-- ==== Sys2Proof/Word.lean ====
section
/-! DEFINITION. The value types of the ES9039Q2M control core (`spec/00_scope.md` rules R6 and R8). -/

namespace Sys2Proof

/-- Every datum of the block is an 8-bit unsigned value (R8, R64). -/
abbrev Byte := BitVec 8

/-- A 7-bit address on the two-wire bus (R6, R60). -/
abbrev Addr7 := BitVec 7

end Sys2Proof
end

