-- ==== Sys2Proof/Config.lean ====
section
/-! DEFINITION. What an implementation fixes (`spec/00_scope.md` rule R6) and the free values: the choices the
spec leaves to the environment, to time or to the device. A free value is an opaque constant without a body. -/

namespace Sys2Proof

/-- One less than the number of transport error codes. The spec leaves the type `Code` open and asks for at least one
element (R6, D8, U10), so this is a free value: no proof can tell whether there is a second code. -/
opaque Config.moreCodes : Nat

/-- A transport error code: one of finitely many, at least one (R6). That they are finitely many is DEDUCED from the
code being a field of a packed word (R100), log entry 3. -/
abbrev Code := Fin (Config.moreCodes + 1)

/-- Which end of the logical volume range is loud (R6, C5, D23); read by no rule. -/
inductive DbSense where
  | zeroIsLoudest
  | zeroIsQuietest
deriving DecidableEq, Repr, Inhabited

/-- The open parameters of R6, carried by the state so that every statement is about every instantiation. -/
structure Config where
  /-- `DEV_ADDR`, the fixed 7-bit device address. -/
  devAddr : Addr7
  aMode : Byte
  aSoftRamp : Byte
  aVolCh1 : Byte
  aVolCh2 : Byte
  aVolHold : Byte
  aFilter : Byte
  aAutomute : Byte
  /-- `CODE_GENERIC_IO`; it may coincide with a code the transport reports. -/
  codeGenericIo : Code
  /-- `T_BUS_TIMEOUT` in microseconds; timing only, read by no rule. -/
  tBusTimeout : Nat
  /-- `EXPOSE_ENGINE`: may `HOST` issue engine requests directly. -/
  exposeEngine : Bool
  /-- `VOLUME_DB_SENSE`, read by no rule. -/
  volumeDbSense : DbSense
deriving DecidableEq, Repr, Inhabited

/-- The seven register addresses, in the order of R6. -/
def Config.addresses (c : Config) : List Byte :=
  [c.aMode, c.aSoftRamp, c.aVolCh1, c.aVolCh2, c.aVolHold, c.aFilter, c.aAutomute]

/-- The premise `DistinctAddrs` of R252: the seven addresses are pairwise distinct (R6, D1). -/
abbrev Config.Distinct (c : Config) : Prop := c.addresses.Nodup

/-- The parameters of one instantiation, with the constraint R6 puts on them. The default values are the
illustrative ones of `spec/95_test_vectors.md`: they show only that such parameters exist. -/
structure Instantiation where
  cfg : Config := ⟨0x55#7, 0xA0#8, 0xA1#8, 0xA2#8, 0xA3#8, 0xA4#8, 0xA5#8, 0xA6#8, 0, 0, false, .zeroIsLoudest⟩
  distinct : cfg.addresses.Nodup := by decide
deriving Inhabited

/-- The instantiation the machine is: no rule gives its numbers (R6, N1, N2, U12), so it is a free value. -/
opaque Config.chosen : Instantiation

/-- What the environment does about one bus primitive (R99, R131, R132). -/
structure Turn where
  /-- `some c`: the transport answers `err(c)`; `none`: it answers `ok`. -/
  err : Option Code
  /-- For a read that answers `ok`, the byte delivered; for a write that answers `ok`, the byte the device's
  register then holds: what the device stores is the environment's (R131, R80 to R83). -/
  byte : Byte
  /-- For a write that answers `err(c)`: did the register nevertheless take the value (R69, U8). -/
  lands : Bool
deriving DecidableEq, Repr, Inhabited

/-- The unconstrained environment E0 (R83): its answer to the `n`-th draw, chosen by no rule. -/
opaque Config.envTurn : Nat → Turn

/-- The byte register `a` of the device holds when its contents become unspecified for the `e`-th time, as a lifetime
of the handle begins (R56, U5) or as the device is disabled (R216, N23): a draw. The four below are draws of the same
moments. -/
opaque Config.devReset : (e : Nat) → (a : Byte) → Byte

/-- Is a hold engaged then (R56, U5, R216). -/
opaque Config.holdReset : (e : Nat) → Bool

/-- Is a soft ramp in progress then (R57, N15). -/
opaque Config.rampReset : (e : Nat) → Bool

/-- The value channel 1 has on the output then. -/
opaque Config.outCh1Reset : (e : Nat) → Byte

/-- The value channel 2 has on the output then. -/
opaque Config.outCh2Reset : (e : Nat) → Byte

/-- Is a hold engaged after the hold register took a byte other than 0x14 and 0x04: the spec gives such a byte
no meaning (R45, N8), so the `n`-th draw decides. -/
opaque Config.holdAfter : (n : Nat) → Bool

/-- The value channel 1 has on the output after the hold register took a byte other than 0x14 and 0x04: the spec is
silent (N8), so the `n`-th draw decides. -/
opaque Config.outCh1After : (n : Nat) → Byte

/-- The value channel 2 has on the output after such a byte: the `n`-th draw. -/
opaque Config.outCh2After : (n : Nat) → Byte

/-- Does a store start or keep up a soft ramp where the spec does not say (R50, N15): the `n`-th draw. -/
opaque Config.rampAfter : (n : Nat) → Bool

/-- Is a soft ramp in progress still going on after a delay (R50, R250): the `n`-th draw. -/
opaque Config.rampGoesOn : (n : Nat) → Bool

/-- How much longer than its lower bound the `n`-th drawn settle delay is, in microseconds (R7 `T_SETTLE`, U11). -/
opaque Config.settleExtra : (n : Nat) → Fin 1001

/-- How much longer than its lower bound the `n`-th drawn back-off delay is, in microseconds (R7 `T_BACKOFF`, U11). -/
opaque Config.backoffExtra : (n : Nat) → Fin 1001

/-- What a hardware reader finds in the fields of the packed result record that hold no value (R29, R100, D20, U9). -/
opaque Config.dontCare : (n : Nat) → BitVec 24

/-- The same for the error code field, whose width is open (R100). -/
opaque Config.dontCareCode : (n : Nat) → Code

end Sys2Proof
end

