-- ==== Sys2Proof/Syntax.lean ====
section
/-! DEFINITION. The eleven operations of `spec/opcode_table.json`: six commands, three engine requests, two bus
primitives. Operand bits the spec calls ignored are operands here too (named `spare`, and `verify` of a read),
because the block latches them (`spec/10_state.md` rules R22 and R24) and a decoder must drop no bit. -/

namespace Sys2Proof

/-- The six commands that have an opcode (`spec/30_encoding.md` rule R92). -/
inductive Op where
  | setVolume
  | getVolume
  | setFilter
  | getFilter
  | enable
  | disable
deriving DecidableEq, Repr, Inhabited

/-- One constructor per row of the opcode table. -/
inductive Instr where
  /-- `BUS_WRITE addr, reg, val` (R131). -/
  | busWrite (addr : Addr7) (reg val : Byte)
  /-- `BUS_READ addr, reg` (R132); `spare` are the don't-care bits 7:0. -/
  | busRead (addr : Addr7) (reg spare : Byte)
  /-- `XREAD reg` (R144); `verify` and `spare` are ignored (R111). -/
  | xread (verify : Bool) (reg spare : Byte)
  /-- `XWRITE reg, val` (R145). -/
  | xwrite (reg val : Byte)
  /-- `XWRITEV reg, val` (R146). -/
  | xwritev (reg val : Byte)
  /-- `SET_VOLUME v` (R175). -/
  | setVolume (v : Byte)
  /-- `GET_VOLUME` (R176); the operand is ignored (R112). -/
  | getVolume (spare : Byte)
  /-- `SET_FILTER shape` (R177). -/
  | setFilter (shape : Byte)
  /-- `GET_FILTER` (R178); the operand is ignored. -/
  | getFilter (spare : Byte)
  /-- `ENABLE` (R179); the operand is ignored. -/
  | enable (spare : Byte)
  /-- `DISABLE` (R180); the operand is ignored. -/
  | disable (spare : Byte)
deriving DecidableEq, Repr

/-- The two pseudo-instructions of the handle's life (R119). -/
inductive Pseudo where
  | bind
  | unbind
deriving DecidableEq, Repr

end Sys2Proof
end

