-- ==== Sys2Proof/WellFormed.lean ====
section
/-! DEFINITION. Which instructions the block itself can issue or be given. Operand widths are in the types, so
two checks remain: a bus primitive names the device (`spec/40_bus_primitives.md` rules R130, R131, R132), and
the canonical spelling writes the ignored bits as 0 (`spec/30_encoding.md` rules R111, R112). -/

namespace Sys2Proof

/-- A bus primitive's address is always `DEV_ADDR` (R49, R130, R131, R132); nothing else is asked, since no
operand of a command or of an engine request is checked (R185). -/
def Instr.WellFormed (c : Config) (i : Instr) : Bool :=
  match i with
  | .busWrite addr _ _ => addr == c.devAddr
  | .busRead addr _ _ => addr == c.devAddr
  | .xread _ _ _ => true
  | .xwrite _ _ => true
  | .xwritev _ _ => true
  | .setVolume _ => true
  | .getVolume _ => true
  | .setFilter _ => true
  | .getFilter _ => true
  | .enable _ => true
  | .disable _ => true

/-- The canonical spelling: every ignored bit is 0 (R111, R112, R132, R144). -/
def Instr.Canonical (i : Instr) : Bool :=
  match i with
  | .busWrite _ _ _ => true
  | .busRead _ _ spare => spare == 0#8
  | .xread verify _ spare => !verify && spare == 0#8
  | .xwrite _ _ => true
  | .xwritev _ _ => true
  | .setVolume _ => true
  | .getVolume spare => spare == 0#8
  | .setFilter _ => true
  | .getFilter spare => spare == 0#8
  | .enable spare => spare == 0#8
  | .disable spare => spare == 0#8

end Sys2Proof
end

