-- ==== Sys2Proof/Decode.lean ====
section
/-! DEFINITION. The three word formats (`spec/30_encoding.md` rules R91, R95, R98), their decoder and their
encoder. A word arrives at the interface of its format, so the format is known before decoding. -/

namespace Sys2Proof

/-- A word at one of the three interfaces. -/
inductive Request where
  /-- A command word at the `HOST` to `SEQ` port, format `CMD` (R90, R91). -/
  | cmd (w : BitVec 11)
  /-- An engine request word at the `SEQ` to `ENG` port, format `XREQ` (R95). -/
  | xreq (w : BitVec 18)
  /-- A bus primitive word at the `ENG` to `ENV` port, format `BUSP` (R98). -/
  | busp (w : BitVec 24)
deriving DecidableEq, Repr

/-- What `HOST` can do at the block's ports. A bus primitive is not among it: `HOST` never reaches the bus except
through the block (R3, R249). -/
inductive HostMove where
  /-- Present a command word (R90, R91). -/
  | cmd (w : BitVec 11)
  /-- Present an engine request word, where the instantiation has that port (R3, R95, D5). -/
  | xreq (w : BitVec 18)
  /-- Destroy the handle and create it anew, which resets the block (R230, R249). -/
  | rebind
deriving DecidableEq, Repr

/-- The word a move of the host presents. -/
def HostMove.word (m : HostMove) : Option Request :=
  match m with
  | .cmd w => some (.cmd w)
  | .xreq w => some (.xreq w)
  | .rebind => none

/-- The move of the host that presents a word, if the host has one. -/
def Request.hostMove (r : Request) : Option HostMove :=
  match r with
  | .cmd w => some (.cmd w)
  | .xreq w => some (.xreq w)
  | .busp _ => none

/-- The word a request puts at the port between `ENG` and `ENV`. -/
def Request.busWord (r : Request) : Option (BitVec 24) :=
  match r with
  | .cmd _ => none
  | .xreq _ => none
  | .busp w => some w

/-- Why the decoder gives no instruction for a word. -/
inductive DecodeError where
  /-- The command opcodes 0b110 and 0b111 name no command (R110). -/
  | reservedOpcode (op : BitVec 3)
deriving DecidableEq, Repr

/-- Why it gives none for bytes. -/
inductive BytesError where
  /-- The bytes are a word that is refused. -/
  | word (e : DecodeError)
  /-- Fewer bytes than the format's container. -/
  | tooShort
  /-- A bit above the format's width is set in the byte container. -/
  | paddingSet
deriving DecidableEq, Repr

/-- The opcode numbers of R92. -/
def Op.code : Op → BitVec 3
  | .setVolume => 0b000#3
  | .getVolume => 0b001#3
  | .setFilter => 0b010#3
  | .getFilter => 0b011#3
  | .enable => 0b100#3
  | .disable => 0b101#3

/-- The command an opcode names, if any (R92, R110). -/
def Op.ofCode (c : BitVec 3) : Option Op :=
  if c = 0b000#3 then some .setVolume
  else if c = 0b001#3 then some .getVolume
  else if c = 0b010#3 then some .setFilter
  else if c = 0b011#3 then some .getFilter
  else if c = 0b100#3 then some .enable
  else if c = 0b101#3 then some .disable
  else none

/-- The instruction of a command with its operand byte (R91, R92). -/
def Op.instr (op : Op) (arg : Byte) : Instr :=
  match op with
  | .setVolume => .setVolume arg
  | .getVolume => .getVolume arg
  | .setFilter => .setFilter arg
  | .getFilter => .getFilter arg
  | .enable => .enable arg
  | .disable => .disable arg

/-- `CMD`: `op` in bits 10:8, `arg` in bits 7:0 (R91). -/
def decodeCmd (w : BitVec 11) : Except DecodeError Instr :=
  match Op.ofCode (w.extractLsb' 8 3) with
  | some op => .ok (op.instr (w.extractLsb' 0 8))
  | none => .error (.reservedOpcode (w.extractLsb' 8 3))

/-- `XREQ`: `is_write` in bit 17, `verify` in bit 16, `reg` in bits 15:8, `val` in bits 7:0 (R95). -/
def decodeXreq (w : BitVec 18) : Instr :=
  let verify := w.getLsbD 16
  let reg : Byte := w.extractLsb' 8 8
  let val : Byte := w.extractLsb' 0 8
  if w.getLsbD 17 then
    if verify then .xwritev reg val else .xwrite reg val
  else .xread verify reg val

/-- `BUSP`: `rw` in bit 23 (1 = read), `addr` in bits 22:16, `reg` in bits 15:8, `val` in bits 7:0 (R98). -/
def decodeBusp (w : BitVec 24) : Instr :=
  let addr : Addr7 := w.extractLsb' 16 7
  let reg : Byte := w.extractLsb' 8 8
  let val : Byte := w.extractLsb' 0 8
  if w.getLsbD 23 then .busRead addr reg val else .busWrite addr reg val

/-- The decoder: total on every word; it refuses the two reserved opcodes (R110). -/
def decode (r : Request) : Except DecodeError Instr :=
  match r with
  | .cmd w => decodeCmd w
  | .xreq w => .ok (decodeXreq w)
  | .busp w => .ok (decodeBusp w)

/-- The command word of an opcode and an operand (R91, R118). -/
def encodeCmd (op : Op) (arg : Byte) : Request := .cmd (op.code ++ arg)

/-- The engine request word of the four inputs (R95). -/
def encodeXreq (isWrite verify : Bool) (reg val : Byte) : Request :=
  .xreq (((BitVec.ofBool isWrite ++ BitVec.ofBool verify) ++ reg) ++ val)

/-- The bus primitive word (R98). -/
def encodeBusp (rw : Bool) (addr : Addr7) (reg val : Byte) : Request :=
  .busp (((BitVec.ofBool rw ++ addr) ++ reg) ++ val)

/-- The encoder, written from the layouts of R91, R92, R95 and R98. -/
def encode (i : Instr) : Request :=
  match i with
  | .busWrite addr reg val => encodeBusp false addr reg val
  | .busRead addr reg spare => encodeBusp true addr reg spare
  | .xread verify reg spare => encodeXreq false verify reg spare
  | .xwrite reg val => encodeXreq true false reg val
  | .xwritev reg val => encodeXreq true true reg val
  | .setVolume v => encodeCmd .setVolume v
  | .getVolume spare => encodeCmd .getVolume spare
  | .setFilter shape => encodeCmd .setFilter shape
  | .getFilter spare => encodeCmd .getFilter spare
  | .enable spare => encodeCmd .enable spare
  | .disable spare => encodeCmd .disable spare

/-- `BIND` is `ENABLE`, `UNBIND` is `DISABLE` (R119). -/
def Pseudo.expand (p : Pseudo) : Instr :=
  match p with
  | .bind => .enable 0#8
  | .unbind => .disable 0#8

/-- The three word formats (R114: each has one fixed length and one layout). -/
inductive Format where
  | cmd
  | xreq
  | busp
deriving DecidableEq, Repr

/-- A word of a format, from its number; `none` when a bit above the format's width is set. -/
def Format.request (f : Format) (w : Nat) : Option Request :=
  match f with
  | .cmd => if w < 2 ^ 11 then some (.cmd (BitVec.ofNat 11 w)) else none
  | .xreq => if w < 2 ^ 18 then some (.xreq (BitVec.ofNat 18 w)) else none
  | .busp => if w < 2 ^ 24 then some (.busp (BitVec.ofNat 24 w)) else none

/-- How many bytes the container of a format takes: 11, 18 and 24 bits in whole bytes. -/
def Format.bytes (f : Format) : Nat :=
  match f with
  | .cmd => 2
  | .xreq => 3
  | .busp => 3

/-- The number a byte list stands for, least significant byte first (the numbering of `spec/opcode_table.json`;
the spec gives no byte layout, DESIGN CHOICE, log entry 4). -/
def numberOfBytes (bs : List Byte) : Nat :=
  match bs with
  | [] => 0
  | b :: rest => b.toNat + 256 * numberOfBytes rest

/-- The `k` low bytes of a number, least significant first. -/
def bytesOfNumber (k w : Nat) : List Byte :=
  match k with
  | 0 => []
  | k + 1 => BitVec.ofNat 8 w :: bytesOfNumber k (w / 256)

/-- The decoder over any bytes: one word of the given format, and the bytes after it. -/
def decodeBytes (f : Format) (bs : List Byte) : Except BytesError (Instr × List Byte) :=
  if bs.length < f.bytes then .error .tooShort
  else
    match f.request (numberOfBytes (bs.take f.bytes)) with
    | none => .error .paddingSet
    | some r =>
      match decode r with
      | .ok i => .ok (i, bs.drop f.bytes)
      | .error e => .error (.word e)

/-- Which format a word of `nbits` bits has. 11 (or 16) bits: `CMD`; 18 bits: `XREQ`; 24 bits: `BUSP`. In whole
bytes `XREQ` and `BUSP` are both 24 bits wide and the table gives nothing to tell them apart; there a number
other than 0 whose bits 23:18 are 0 is read as an `XREQ`, every other one as a `BUSP`. DESIGN CHOICE, log entry 5: it concerns only words handed over without their interface. -/
def tableFormat (nbits w : Nat) : Format :=
  if nbits ≤ 16 then .cmd
  else if nbits < 24 then .xreq
  else if 0 < w ∧ w < 2 ^ 18 then .xreq
  else .busp

/-- What the decoder reads from an instruction whose bits are `w`, laid out in bytes as above. -/
def decodeTableWord (nbits w : Nat) : Option Instr :=
  let f := tableFormat nbits w
  if w < 256 ^ f.bytes then
    match decodeBytes f (bytesOfNumber f.bytes w) with
    | .ok (i, _) => some i
    | .error _ => none
  else none

/-- The request that carries that word; `none` when the number does not fit the format. -/
def tableRequest (nbits w : Nat) : Option Request := (tableFormat nbits w).request w

end Sys2Proof
end

