-- ==== Sys2Proof/Machine/State.lean ====
section
/-! DEFINITION. Every piece of state the spec gives the block (`spec/10_state.md` rules R20 to R33) and its
environment (R40 to R52), as plain data, and the machine right after reset (R55 to R57). -/

namespace Sys2Proof.Machine

/-- What the engine does next inside the current iteration (R26). -/
inductive Phase where
  /-- `E_IDLE`: no engine call in progress. -/
  | idle
  /-- `E_PRIMARY`: about to issue the iteration's primary operation. -/
  | primary
  /-- `E_SETTLE`: primary operation answered, post-operation delay running. -/
  | settle
  /-- `E_READBACK`: about to issue the read-back of a verified write. -/
  | readback
  /-- `E_BACKOFF`: iteration failed with attempts left, back-off delay running. -/
  | backoff
  /-- `E_DONE`: call finished, outcome available to the requester. -/
  | done
deriving DecidableEq, Repr, Inhabited

/-- `BUSA` of a `BUS_WRITE` (R99). -/
inductive WriteAnswer where
  | ok
  | err (c : Code)
deriving DecidableEq, Repr, Inhabited

/-- `BUSA` of a `BUS_READ` (R99). -/
inductive ReadAnswer where
  | ok (b : Byte)
  | err (c : Code)
deriving DecidableEq, Repr, Inhabited

/-- The contents of `eng.prim`: the answer of a primary operation of either kind (R27). -/
inductive Answer where
  | ok
  | okByte (b : Byte)
  | err (c : Code)
deriving DecidableEq, Repr, Inhabited

/-- The four inputs of `transact` other than the handle (R95). -/
structure XReq where
  reg : Byte
  val : Byte
  isWrite : Bool
  verify : Bool
deriving DecidableEq, Repr, Inhabited

/-- The engine response `XRSP` (R96). -/
inductive XRsp where
  | ok (value : Byte)
  | err (register : Byte) (lastCode : Code)
deriving DecidableEq, Repr, Inhabited

/-- `seq`, the control sequencer's command latch and step index (R21 to R23). -/
structure SeqState where
  busy : Bool
  /-- 3 bits, as `Op.code` numbers it; only the six opcodes are ever latched (R172). -/
  op : Op
  arg : Byte
  /-- Range 1 to 4 (R23). -/
  step : BitVec 3
deriving DecidableEq, Repr

/-- `eng`, the transaction engine (R24 to R28). -/
structure EngState where
  reg : Byte
  val : Byte
  isWrite : Bool
  verify : Bool
  /-- Range 1 to 10 (R25). -/
  attempt : BitVec 4
  phase : Phase
  prim : Answer
  /-- Absent until an iteration of the current call has failed (R28). -/
  lastCode : Option Code
  /-- The outcome `E_DONE` makes available (R26, R96); absent while a call has none. It stays readable after the
  requester has taken it, DEDUCED (log entry 11). -/
  rsp : Option XRsp
deriving DecidableEq, Repr

/-- `res`, the result register (R29). A field the spec gives no value in some result is an option (D20). -/
structure ResState where
  valid : Bool
  /-- 0 = `Ok`, 1 = `Err`. -/
  status : Bool
  value : Option Byte
  errReg : Option Byte
  errCode : Option Code
  errOp : Option Op
  errStep : Option (BitVec 3)
deriving DecidableEq, Repr

/-- The device's register space: register address and byte, addresses strictly rising, only registers whose
contents are known (R40). What an unlisted register holds is `Memory.unlisted`. -/
abbrev Memory := List Host.Cell

/-- The listed contents of a register nothing has stored to: no byte. The device then holds the free value
`Config.devReset` there (R56, U5). -/
def Memory.unlisted : Option Byte := none

/-- The device side of `ENV`: its registers, and the three pieces of state R50 names, which the block cannot
observe. -/
structure Device where
  /-- How many times the contents have become unspecified (R56, R216): the index of the draws of an unlisted register. -/
  epoch : Nat
  mem : Memory
  /-- A hold is engaged (R50 (a), R45, R73). -/
  hold : Bool
  /-- The channel-1 value in effect on the output (R73), whether or not the output is audible (log entry 34). -/
  outCh1 : Byte
  /-- The channel-2 value in effect on the output (R73), whether or not the output is audible (log entry 34). -/
  outCh2 : Byte
  /-- A soft ramp is in progress (R50 (b)). -/
  ramp : Bool
  /-- A bus operation has been made and no delay has passed since (R50 (c)). -/
  settling : Bool
deriving DecidableEq, Repr

/-- One entry of E2's fault schedule (R81). -/
inductive Fate where
  | pass
  | fail (c : Code)
deriving DecidableEq, Repr, Inhabited

/-- Which environment answers the bus primitives (R80 to R83). -/
inductive Env where
  /-- E0, the unconstrained oracle: every answer is the free value `Config.envTurn` (R83). -/
  | e0
  /-- E1, the verbatim device with a perfect transport (R80). -/
  | e1
  /-- E2, the verbatim device with a fault schedule (R81). -/
  | e2 (fates : List Fate)
  /-- E3, the masking device (R82). -/
  | e3 (m k : Byte)
  /-- An explicit instance of E0: the answers listed, one per primitive (`spec/95_test_vectors.md` section 0).
  When the list is empty the transport has not answered yet (R130, U7). -/
  | told (turns : List Turn)
deriving DecidableEq, Repr, Inhabited

/-- The event history (R52) and the `Log` events of the trace (R121). -/
inductive Event where
  | busWrite (addr : Addr7) (reg val : Byte) (answer : WriteAnswer)
  | busRead (addr : Addr7) (reg : Byte) (answer : ReadAnswer)
  /-- No byte for a read that failed (R121). -/
  | log (attempt : BitVec 4) (reg : Byte) (val : Option Byte)
  | accepted (op : Op) (arg : Byte)
  | completed (op : Op) (status : Bool)
deriving DecidableEq, Repr

/-- The two delay timers (R211). -/
inductive DelayKind where
  | settle
  | backoff
deriving DecidableEq, Repr, Inhabited

/-- One use of a delay timer and its drawn length in microseconds (R7, R150, R250). -/
structure Delay where
  kind : DelayKind
  micros : Nat
deriving DecidableEq, Repr

structure State where
  /-- The open parameters of the instantiation (R6); no step writes them. -/
  cfg : Config
  seq : SeqState
  eng : EngState
  res : ResState
  env : Env
  dev : Device
  /-- The model's own: how many draws have been made (log entry 6). -/
  draws : Nat
  /-- R52, oldest first. -/
  history : List Event
  /-- The delays taken so far, oldest first: bookkeeping like the history (log entry 8). -/
  delays : List Delay
  /-- The host's moves not yet accepted, in the order they are made (R90, R249); the first one is on the port now. -/
  inbox : List HostMove
  /-- A primitive word standing at the port between `ENG` and `ENV` of an idle block (R98, log entry 19). Nothing the
  host does puts one there (R3). -/
  busPort : Option (BitVec 24)
deriving DecidableEq, Repr

/-- Why a step stops. -/
inductive Fault where
  /-- The transport has not answered a primitive, so the engine has no step (U7, R130, R247): raised by the
  engine's step in `E_PRIMARY` and `E_READBACK` and by a bus primitive of its own. Safe: stuck. -/
  | envSilent
  /-- No row of R142 or R173 is enabled: a step index outside the command's steps, or `E_DONE` without a
  response. Raised by `tick` only, in states that no run reaches. Safe. -/
  | noRule
deriving DecidableEq, Repr

/-- Why an instruction is given no meaning in a state. -/
inductive Refusal where
  /-- An instruction without a meaning; raised by no arm of this model. Safe. -/
  | notModelled (mnemonic : String)
  /-- A word handed to an interface while a command or an engine call is in progress: the block does not accept
  it, and the spec gives the breach no outcome (R90, R172, R240, U1). Raised by every meaning. Safe. -/
  | notIdle
  /-- A command word with a reserved opcode, which a model refuses (R110, U6). Raised by the fetch. Safe. -/
  | reservedOpcode (op : BitVec 3)
  /-- An engine request from `HOST` where `EXPOSE_ENGINE` is false (R3, R6, D5). Raised by the fetch. Safe. -/
  | engineNotExposed
deriving DecidableEq, Repr

/-- R55. The fields the spec gives no value hold 0, the step index its lowest value 1 (log entry 1). -/
def SeqState.reset : SeqState := ⟨false, .setVolume, 0#8, 1#3⟩

/-- R55. The fields the spec gives no value hold 0 and `ok`, the attempt counter its lowest value 1 (log entry 1). -/
def EngState.reset : EngState := ⟨0#8, 0#8, false, false, 1#4, .idle, .ok, none, none⟩

/-- R55: `res.valid = 0`; the status bit holds 0 (log entry 1); no other field holds a value. -/
def ResState.reset : ResState := ⟨false, false, none, none, none, none, none⟩

/-- R56: every register, and whether a hold is engaged, is unspecified when a lifetime begins. -/
def Device.atReset (epoch : Nat) : Device :=
  ⟨epoch, [], Config.holdReset epoch, Config.outCh1Reset epoch, Config.outCh2Reset epoch,
    Config.rampReset epoch, false⟩

/-- The machine right after reset (R55 to R57, R230): idle, nothing presented, empty history, the environment
the unconstrained one (R83), `EXPOSE_ENGINE` at its default (R6). -/
def State.reset : State where
  cfg := { Config.chosen.cfg with exposeEngine := false }
  seq := .reset
  eng := .reset
  res := .reset
  env := .e0
  dev := .atReset 0
  draws := 0
  history := []
  delays := []
  inbox := []
  busPort := none

end Sys2Proof.Machine
end

