-- ==== Sys2Proof/Machine/Flags.lean ====
section
/-! DEFINITION. The three status flags `seq.busy`, `res.valid` and `res.status` (`spec/10_state.md` rule R32) and
the two steps that write them (`spec/42_control_sequencer.md` rule R172). -/

namespace Sys2Proof.Machine

/-- The premise `IdleEntry` of R252: no command and no engine call in progress. -/
def State.idle (s : State) : Bool := !s.seq.busy && s.eng.phase == .idle

/-- The flags of the accept step: `busy` set, `valid` cleared (R172). -/
def flagsAtAccept (s : State) : State :=
  { s with
    seq := { s.seq with busy := true }
    res := { s.res with valid := false } }

/-- The flags of the completion step: `valid` set, `busy` cleared, the status written (R172, R173). -/
def flagsAtCompletion (status : Bool) (s : State) : State :=
  { s with
    seq := { s.seq with busy := false }
    res := { s.res with valid := true, status := status } }

end Sys2Proof.Machine
end

