-- ==== Sys2Proof/Machine/Operands.lean ====
section
/-! DEFINITION. Operand assembly (`spec/30_encoding.md` rules R103 to R107) and the fixed values of
`spec/00_scope.md` rule R7. -/

namespace Sys2Proof.Machine

/-- `N_ATTEMPTS`. -/
def nAttempts : Nat := 10
/-- `V_HOLD`. -/
def vHold : Byte := 0x14#8
/-- `V_RELEASE`. -/
def vRelease : Byte := 0x04#8
/-- `V_RAMP`. -/
def vRamp : Byte := 0x09#8
/-- `V_AUTOMUTE_OFF`. -/
def vAutomuteOff : Byte := 0x00#8
/-- `V_MODE_ON`. -/
def vModeOn : Byte := 0x02#8
/-- `V_MODE_OFF`. -/
def vModeOff : Byte := 0x00#8
/-- `FILTER_FIXED`. -/
def filterFixed : Byte := 0x60#8
/-- `FILTER_MASK`. -/
def filterMask : Byte := 0x07#8
/-- `VOL_MAX`. -/
def volMax : Byte := 255#8
/-- The lower bound of `T_SETTLE` in microseconds. -/
def settleMicros : Nat := 1000
/-- The lower bound of `T_BACKOFF` in microseconds. -/
def backoffMicros : Nat := 1000
/-- `RELEASE_HOLD_ON_ERROR`: off, so no meaning has such a path (R7, D13). -/
def releaseHoldOnError : Bool := false
/-- `FILTER_BOUNDS_CHECK`: off, so no meaning has such a check (R7, D12). -/
def filterBoundsCheck : Bool := false

/-- The register value of a logical volume (R103). -/
def volumeCode (v : Byte) : Byte := volMax - v

/-- The logical volume of a byte read (R105). -/
def volumeOf (b : Byte) : Byte := volMax - b

/-- The register value of a filter shape, from all 8 operand bits, unchecked (R106, R113). -/
def shapeCode (shape : Byte) : Byte := shape ||| filterFixed

/-- The filter shape of a byte read (R107). -/
def shapeOf (b : Byte) : Byte := b &&& filterMask

end Sys2Proof.Machine
end

