-- ==== Sys2Proof/Machine/Ops.lean ====
section
/-! DEFINITION. The named operations over the device's registers, the environment's answers, the two bus
primitives, the delays, the trace, and raising and reporting the one error. -/

namespace Sys2Proof.Machine

/-! ### The register space -/

/-- The listed contents of register `a` (R40). -/
def Memory.read (m : Memory) (a : Nat) : Option Byte :=
  match m with
  | [] => Memory.unlisted
  | (k, v) :: rest => if k = a then some v else Memory.read rest a

/-- Store one byte, keeping the addresses strictly rising. -/
def Memory.write (m : Memory) (a : Nat) (b : Byte) : Memory :=
  match m with
  | [] => [(a, b)]
  | (k, v) :: rest =>
    if a < k then (a, b) :: (k, v) :: rest
    else if a = k then (a, b) :: rest
    else (k, v) :: Memory.write rest a b

/-- Every listed address lies above `lo` (when there is one) and below 256, and they rise strictly. -/
def Memory.wfFrom (lo : Option Nat) (m : Memory) : Bool :=
  match m with
  | [] => true
  | (k, _) :: rest => (lo.all (· < k)) && decide (k < 256) && Memory.wfFrom (some k) rest

/-- The canonical form of the register space: addresses strictly rising and in 0 to 255 (R40). No entry can equal
what an unlisted address reads as, which is no byte. -/
def Memory.wf (m : Memory) : Bool := Memory.wfFrom none m

/-- The byte the device holds at register `r`: the listed one, else the free value of the reset (R56). -/
def Device.held (d : Device) (r : Byte) : Byte := (d.mem.read r.toNat).getD (Config.devReset d.epoch r)

/-- The two observable states of the device (R51, R181). -/
inductive PowerState where
  | enabled
  | disabled
deriving DecidableEq, Repr

/-- The power-state view: `Enabled` when the mode register holds 0x02, `Disabled` otherwise (R51, C11). -/
def State.view (s : State) : PowerState :=
  if s.dev.held s.cfg.aMode = vModeOn then .enabled else .disabled

/-! ### What the device does with a stored byte (R45, R50, R73) -/

/-- Is a hold engaged after register `reg` took `b`: 0x14 engages, 0x04 releases, another byte in the hold
register has no stated meaning (a free value), other registers do not matter (R45, R50 (a)). -/
def holdAfterStore (c : Config) (n : Nat) (reg b : Byte) (hold : Bool) : Bool :=
  if reg = c.aVolHold then
    if b = vHold then true else if b = vRelease then false else Config.holdAfter n
  else hold

/-- Is a soft ramp in progress after register `reg` took `b`: activating the DAC starts one; what any other
store does to the ramp is not stated (R50 (b), N15). -/
def rampAfterStore (c : Config) (n : Nat) (reg b before : Byte) : Bool :=
  if reg = c.aMode ∧ b = vModeOn ∧ before ≠ vModeOn then true else Config.rampAfter n

/-- A channel's value on the output after register `reg`, of which `chan` is the channel's own, took `b`: `now` is the
value the channel register then holds, `before` the output so far, `hold` whether a hold is then engaged. While one is,
the output stays; the store of 0x04 commits the register; with no hold a store to the channel register takes effect at
once (R50, R73; log entry 13). A byte in the hold register other than 0x14 and 0x04 has no stated effect on the output
(N8): it leaves the free value `free` there. Two points the spec leaves open are the model's, DESIGN CHOICE: all this
happens in either power-state view, audible or not (R181, log entry 34); and a store to any other register, the mode
register among them, keeps the output (R216, log entry 35). -/
def outAfterStore (c : Config) (reg b chan now before : Byte) (hold : Bool) (free : Byte) : Byte :=
  if reg = c.aVolHold ∧ b ≠ vHold ∧ b ≠ vRelease then free
  else if hold then before
  else if reg = c.aVolHold ∨ reg = chan then now
  else before

/-- The device stores `b` in register `reg`: the contents, the hold (R45, R50 (a)), both outputs (R73) and the soft
ramp (R50 (b)). -/
def Device.store (d : Device) (c : Config) (n : Nat) (reg b : Byte) : Device :=
  let d' := { d with mem := d.mem.write reg.toNat b }
  let hold := holdAfterStore c n reg b d.hold
  { d' with
    hold := hold
    outCh1 := outAfterStore c reg b c.aVolCh1 (d'.held c.aVolCh1) d.outCh1 hold (Config.outCh1After n)
    outCh2 := outAfterStore c reg b c.aVolCh2 (d'.held c.aVolCh2) d.outCh2 hold (Config.outCh2After n)
    ramp := rampAfterStore c n reg b (d.held reg) }

/-- The device takes `b` in register `reg` and is thereby disabled, without a promise of what it keeps: every other
register, the hold, the ramp and both outputs are then unspecified (R216, N23; log entry 33). -/
def Device.powerDown (d : Device) (reg b : Byte) : Device :=
  { Device.atReset (d.epoch + 1) with mem := [(reg.toNat, b)] }

/-! ### The environment (R80 to R83) -/

/-- The arguments of a bus primitive other than the device address. -/
inductive Prim where
  | write (reg val : Byte)
  | read (reg : Byte)
deriving DecidableEq, Repr

/-- E1 (R80): a write stores its value, a read answers what is held. -/
def verbatimTurn (d : Device) (p : Prim) : Turn :=
  match p with
  | .write _ val => ⟨none, val, true⟩
  | .read reg => ⟨none, d.held reg, false⟩

/-- E2's `fail(c)` (R81): `err(c)`, the register unchanged. -/
def failTurn (c : Code) : Turn := ⟨some c, 0#8, false⟩

/-- E3 (R82): as E1, but a write to register `m` stores `val & k`. -/
def maskingTurn (m k : Byte) (d : Device) (p : Prim) : Turn :=
  match p with
  | .write reg val => ⟨none, if reg = m then val &&& k else val, true⟩
  | .read reg => ⟨none, d.held reg, false⟩

/-- The environment's answer to a primitive at bus address `addr`, and the environment after it; none when the
transport has not answered (U7). E1, E2 and E3 speak of `DEV_ADDR` only: at another address the answer is a
draw (N24). -/
def envAnswer (s : State) (addr : Addr7) (p : Prim) : Option (Turn × Env) :=
  match s.env with
  | .e0 => some (Config.envTurn s.draws, .e0)
  | .e1 => some (if addr = s.cfg.devAddr then verbatimTurn s.dev p else Config.envTurn s.draws, .e1)
  | .e2 [] => some (if addr = s.cfg.devAddr then verbatimTurn s.dev p else Config.envTurn s.draws, .e2 [])
  | .e2 (.pass :: fates) =>
    some (if addr = s.cfg.devAddr then verbatimTurn s.dev p else Config.envTurn s.draws, .e2 fates)
  | .e2 (.fail c :: fates) => some (if addr = s.cfg.devAddr then failTurn c else Config.envTurn s.draws, .e2 fates)
  | .e3 m k => some (if addr = s.cfg.devAddr then maskingTurn m k s.dev p else Config.envTurn s.draws, .e3 m k)
  | .told [] => none
  | .told (t :: turns) => some (t, .told turns)

/-- The answer a turn gives to a write (R99). -/
def writeAnswerOf (t : Turn) : WriteAnswer :=
  match t.err with
  | none => .ok
  | some c => .err c

/-- The answer a turn gives to a read (R99). -/
def readAnswerOf (t : Turn) : ReadAnswer :=
  match t.err with
  | none => .ok t.byte
  | some c => .err c

/-- Does the environment promise that a device keeps its registers while it is disabled. E1, E2 and E3 do: they change
`dev[]` as R80 to R82 say and not otherwise. The unconstrained one and an explicit instance of it do not (R83, R216,
N23). -/
def Env.retains (e : Env) : Bool :=
  match e with
  | .e0 => false
  | .e1 => true
  | .e2 _ => true
  | .e3 _ _ => true
  | .told _ => false

/-- Is the device disabled, without a promise of what it keeps, by taking `b` in register `reg` (R51, R216, N23). -/
def losesRegisters (s : State) (reg b : Byte) : Bool :=
  !s.env.retains && (reg == s.cfg.aMode && b != vModeOn)

/-- The device when register `reg` takes `b`. -/
def deviceTakes (s : State) (reg b : Byte) : Device :=
  if losesRegisters s reg b then s.dev.powerDown reg b else s.dev.store s.cfg s.draws reg b

/-- The byte a turn leaves in the register written to, if it changes it: after `ok` the byte the environment
stores, after `err(c)` the value or nothing (R69, R131). -/
def storedBy (t : Turn) (val : Byte) : Option Byte :=
  match t.err with
  | none => some t.byte
  | some _ => if t.lands then some val else none

/-- The device after a write, if the write was addressed to it. -/
def deviceAfterWrite (s : State) (addr : Addr7) (reg val : Byte) (t : Turn) : Device :=
  if addr = s.cfg.devAddr then
    match storedBy t val with
    | some b => { deviceTakes s reg b with settling := true }
    | none => { s.dev with settling := true }
  else s.dev

/-! ### The bus primitives (R131, R132) -/

/-- `BusWrite(addr, reg, val)`: the answer and the state after it; none while the transport has not answered. -/
def busWrite (addr : Addr7) (reg val : Byte) (s : State) : Option (WriteAnswer × State) :=
  match envAnswer s addr (.write reg val) with
  | none => none
  | some (t, env) =>
    some (writeAnswerOf t, { s with
      env := env
      dev := deviceAfterWrite s addr reg val t
      draws := s.draws + 1
      history := s.history ++ [.busWrite addr reg val (writeAnswerOf t)] })

/-- `BusRead(addr, reg)`: the answer and the state after it; the read does not change the registers (R68). -/
def busRead (addr : Addr7) (reg : Byte) (s : State) : Option (ReadAnswer × State) :=
  match envAnswer s addr (.read reg) with
  | none => none
  | some (t, env) =>
    some (readAnswerOf t, { s with
      env := env
      dev := if addr = s.cfg.devAddr then { s.dev with settling := true } else s.dev
      draws := s.draws + 1
      history := s.history ++ [.busRead addr reg (readAnswerOf t)] })

/-! ### Delays (R150, R250) and the trace (R121) -/

/-- The drawn length of a delay, inside its interval (R7). -/
def delayMicros (k : DelayKind) (n : Nat) : Nat :=
  match k with
  | .settle => settleMicros + (Config.settleExtra n).val
  | .backoff => backoffMicros + (Config.backoffExtra n).val

/-- `Delay(T)`: no value of the block changes; the length is drawn and noted, the device settles, a soft ramp may
end meanwhile (R50, R250). -/
def delay (k : DelayKind) (s : State) : State :=
  { s with
    dev := { s.dev with settling := false, ramp := s.dev.ramp && Config.rampGoesOn s.draws }
    draws := s.draws + 1
    delays := s.delays ++ [⟨k, delayMicros k s.draws⟩] }

/-- `Log(eng.attempt, eng.reg, v)` (R121). -/
def logEvent (v : Option Byte) (s : State) : State :=
  { s with history := s.history ++ [.log s.eng.attempt s.eng.reg v] }

/-! ### The error (R200 to R207) -/

/-- The engine call ends with response `r` (R96, phase `E_DONE`). -/
def respond (r : XRsp) (s : State) : State := { s with eng := { s.eng with rsp := some r, phase := .done } }

/-- `raise IoError(reg, code)`: the call ends with the one error, carrying the register address and the code of the
last failure (R149, R200). -/
def raiseIoError (c : Code) (s : State) : State := respond (.err s.eng.reg c) s

/-- Error entry (R206): the result register takes the error and its annotation, the command completes, nothing
else is saved. There is no error return and nothing to restore (R207). -/
def errorEntry (register : Byte) (c : Code) (s : State) : State :=
  let s := flagsAtCompletion true s
  { s with
    res := { s.res with
      value := none
      errReg := some register
      errCode := some c
      errOp := some s.seq.op
      errStep := some s.seq.step }
    history := s.history ++ [.completed s.seq.op true] }

/-! ### The result port (R90, R100) -/

/-- The packed result record: `valid`, `status`, `err_op`, `err_step`, `err_reg`, `value` from the high end, and the
error code beside it since its width is open. A field without a value shows the free value `Config.dontCare` (R29,
R100, D20). -/
def resWord (s : State) : BitVec 24 × Code :=
  let x := Config.dontCare s.draws
  let errOp := (s.res.errOp.map Op.code).getD (x.extractLsb' 19 3)
  let errStep := s.res.errStep.getD (x.extractLsb' 16 3)
  let errReg := s.res.errReg.getD (x.extractLsb' 8 8)
  let value := s.res.value.getD (x.extractLsb' 0 8)
  (((((BitVec.ofBool s.res.valid ++ BitVec.ofBool s.res.status) ++ errOp) ++ errStep) ++ errReg) ++ value,
    s.res.errCode.getD (Config.dontCareCode s.draws))

/-- Renewal of the handle by an idle `HOST` (R230, R231, R249): the block's fields, the history and the delays take
their reset values; the device's contents are unspecified again (R56); the instantiation, the environment and
what is still presented stay. -/
def rebind (s : State) : State :=
  { s with
    seq := .reset
    eng := .reset
    res := .reset
    dev := .atReset (s.dev.epoch + 1)
    history := []
    delays := [] }

end Sys2Proof.Machine
end

