-- ==== Sys2Proof/Machine/Bus.lean ====
section
/-! DEFINITION. The meanings of `BUS_WRITE` and `BUS_READ` (`spec/40_bus_primitives.md` rules R131, R132): one
primitive placed at the port between the engine and the environment, with nothing else in flight (R70). -/

namespace Sys2Proof.Machine

/-- `BUS_WRITE addr, reg, val` (R131). -/
def execBusWrite (addr : Addr7) (reg val : Byte) (s : State) : Host.Outcome State Fault Refusal :=
  if s.idle then
    match busWrite addr reg val s with
    | some (_, t) => .next t
    | none => .fault .envSilent
  else .refused .notIdle

/-- `BUS_READ addr, reg` (R132); the spare bits are don't-care. -/
def execBusRead (addr : Addr7) (reg _spare : Byte) (s : State) : Host.Outcome State Fault Refusal :=
  if s.idle then
    match busRead addr reg s with
    | some (_, t) => .next t
    | none => .fault .envSilent
  else .refused .notIdle

end Sys2Proof.Machine
end

