-- ==== Sys2Proof/Machine/Engine.lean ====
section
/-! DEFINITION. The Register Transaction Engine (`spec/41_transaction_engine.md`): the pieces of an iteration, the
call as one function (R141), the same call as a state machine (R142), and the three engine requests. -/

namespace Sys2Proof.Machine

/-! ### The pieces both forms share -/

/-- T1: latch the request, first attempt, no code yet (R142, R152). -/
def engLatch (r : XReq) (s : State) : State :=
  { s with eng := { s.eng with
      reg := r.reg
      val := r.val
      isWrite := r.isWrite
      verify := r.verify
      attempt := 1#4
      lastCode := none
      rsp := none
      phase := .primary } }

/-- T2 and T3: issue the iteration's primary operation and keep its answer; none while the transport has not
answered. -/
def primary (s : State) : Option (Answer × State) :=
  if s.eng.isWrite then
    match busWrite s.cfg.devAddr s.eng.reg s.eng.val s with
    | none => none
    | some (.ok, t) => some (.ok, { t with eng := { t.eng with prim := .ok, phase := .settle } })
    | some (.err c, t) => some (.err c, { t with eng := { t.eng with prim := .err c, phase := .settle } })
  else
    match busRead s.cfg.devAddr s.eng.reg s with
    | none => none
    | some (.ok b, t) => some (.okByte b, { t with eng := { t.eng with prim := .okByte b, phase := .settle } })
    | some (.err c, t) => some (.err c, { t with eng := { t.eng with prim := .err c, phase := .settle } })

/-- About to issue the read-back (T6). -/
def enterReadback (s : State) : State := { s with eng := { s.eng with phase := .readback } }

/-- A successful iteration: log it and end the call with `Ok(b)` (T4, T5, T8). -/
def succeed (b : Byte) (s : State) : State := respond (.ok b) (logEvent (some b) s)

/-- Are attempts left after a failed iteration (R142 row FAIL, R25). -/
def attemptsLeft (s : State) : Bool := decide (s.eng.attempt.toNat < nAttempts)

/-- What every failed iteration writes: the code it failed with and its log entry. A failed read has no byte to
log (R28, R121). -/
def noteFailure (c : Code) (s : State) : State :=
  logEvent (if s.eng.isWrite then some s.eng.val else none) { s with eng := { s.eng with lastCode := some c } }

/-- The back-off delay is running. -/
def enterBackoff (s : State) : State := { s with eng := { s.eng with phase := .backoff } }

/-- A failed iteration (R142 row FAIL): note it, then back off or, after the tenth, raise the error. -/
def failIteration (c : Code) (s : State) : State :=
  if attemptsLeft s then enterBackoff (noteFailure c s) else raiseIoError c (noteFailure c s)

/-- T9: the back-off delay, then the next attempt. -/
def nextAttempt (s : State) : State :=
  let s := delay .backoff s
  { s with eng := { s.eng with attempt := s.eng.attempt + 1#4, phase := .primary } }

/-- T10: the requester takes the response and the engine is idle. -/
def engRelease (s : State) : State := { s with eng := { s.eng with phase := .idle } }

/-! ### The call as one function (R141) -/

/-- How one pass of the loop ends. -/
inductive Iter where
  /-- The transport has not answered: the call hangs where it is (R130, U7). -/
  | hung (s : State)
  /-- The call has its response. -/
  | ended (s : State)
  /-- The iteration failed and attempts are left. -/
  | again (s : State)
deriving DecidableEq, Repr

/-- The end of a failed pass. -/
def failedPass (c : Code) (s : State) : Iter :=
  if attemptsLeft s then .again (failIteration c s) else .ended (failIteration c s)

/-- The judgement of a read-back (R141, R146): equal on all 8 bits succeeds, a mismatch fails with
`CODE_GENERIC_IO`, a transport error with its own code (D10). -/
def judgeReadback (q : ReadAnswer) (s : State) : Iter :=
  match q with
  | .ok b => if b = s.eng.val then .ended (succeed s.eng.val s) else failedPass s.cfg.codeGenericIo s
  | .err c => failedPass c s

/-- One pass of the loop of R141: primary operation, settle delay, and for a verified write that answered `ok` the
read-back. -/
def iteration (s : State) : Iter :=
  match primary s with
  | none => .hung s
  | some (p, s) =>
    let s := delay .settle s
    match p with
    | .okByte b => .ended (succeed b s)
    | .err c => failedPass c s
    | .ok =>
      if s.eng.verify then
        let s := enterReadback s
        match busRead s.cfg.devAddr s.eng.reg s with
        | none => .hung s
        | some (q, s) => judgeReadback q s
      else .ended (succeed s.eng.val s)

/-- The loop with `n` passes left. -/
def transactFrom (n : Nat) (s : State) : State :=
  match n with
  | 0 => s
  | n + 1 =>
    match iteration s with
    | .hung s => s
    | .ended s => s
    | .again s => transactFrom n (nextAttempt s)

/-- `Transact(reg, val, is_write, verify)` (R141): at most ten passes (R147). It ends in `E_DONE` with the response,
or, while the transport has not answered, in the phase that waits for it. -/
def transact (r : XReq) (s : State) : State := transactFrom nAttempts (engLatch r s)

/-! ### The call as a state machine (R142) -/

/-- Rows T2 and T3, from `E_PRIMARY`. -/
def rowPrimary (s : State) : Option State :=
  match primary s with
  | none => none
  | some (_, t) => some t

/-- Rows T4 to T7, from `E_SETTLE`. -/
def rowSettle (s : State) : State :=
  let s := delay .settle s
  match s.eng.prim with
  | .okByte b => succeed b s
  | .ok => if s.eng.verify then enterReadback s else succeed s.eng.val s
  | .err c => failIteration c s

/-- Row T8, from `E_READBACK`. -/
def rowReadback (s : State) : Option State :=
  match busRead s.cfg.devAddr s.eng.reg s with
  | none => none
  | some (.ok b, t) => some (if b = t.eng.val then succeed t.eng.val t else failIteration t.cfg.codeGenericIo t)
  | some (.err c, t) => some (failIteration c t)

/-- One row of R142 in the four phases where the engine acts by itself; no row in `E_IDLE` and `E_DONE`. -/
def engTick (s : State) : Option State :=
  match s.eng.phase with
  | .idle => none
  | .primary => rowPrimary s
  | .settle => some (rowSettle s)
  | .readback => rowReadback s
  | .backoff => some (nextAttempt s)
  | .done => none

/-! ### The three requests (R144 to R146) -/

/-- A request served for a requester outside the sequencer: the call, and its response taken (T10) once there is one. -/
def engineCall (r : XReq) (s : State) : State :=
  let s := transact r s
  match s.eng.phase with
  | .done => engRelease s
  | _ => s

/-- `XREAD reg` (R144): `verify` and the spare bits are latched and never read (R24, R111). -/
def execXread (verify : Bool) (reg spare : Byte) (s : State) : Host.Outcome State Fault Refusal :=
  if s.idle then .next (engineCall ⟨reg, spare, false, verify⟩ s) else .refused .notIdle

/-- `XWRITE reg, val` (R145). -/
def execXwrite (reg val : Byte) (s : State) : Host.Outcome State Fault Refusal :=
  if s.idle then .next (engineCall ⟨reg, val, true, false⟩ s) else .refused .notIdle

/-- `XWRITEV reg, val` (R146). -/
def execXwritev (reg val : Byte) (s : State) : Host.Outcome State Fault Refusal :=
  if s.idle then .next (engineCall ⟨reg, val, true, true⟩ s) else .refused .notIdle

end Sys2Proof.Machine
end

