-- ==== Sys2Proof/Machine/Commands.lean ====
section
/-! DEFINITION. The control sequencer (`spec/42_control_sequencer.md`): the micro-sequence table (R171), accepting
and completing a command (R172), the algorithm (R173), the six commands, and one step of a command in progress. -/

namespace Sys2Proof.Machine

/-! ### The micro-sequence table (R171) -/

/-- An engine request `XREAD reg`. -/
def readReq (reg : Byte) : XReq := ⟨reg, 0#8, false, false⟩

/-- An engine request `XWRITEV reg, val`. -/
def writeReq (reg val : Byte) : XReq := ⟨reg, val, true, true⟩

/-- `SET_VOLUME`: hold, channel 1, channel 2, release (R175). -/
def microSetVolume (c : Config) (v : Byte) : List XReq :=
  [writeReq c.aVolHold vHold, writeReq c.aVolCh1 (volumeCode v), writeReq c.aVolCh2 (volumeCode v),
    writeReq c.aVolHold vRelease]

/-- `GET_VOLUME`: one unverified read of channel 1 (R176). -/
def microGetVolume (c : Config) : List XReq := [readReq c.aVolCh1]

/-- `SET_FILTER`: one verified write (R177). -/
def microSetFilter (c : Config) (shape : Byte) : List XReq := [writeReq c.aFilter (shapeCode shape)]

/-- `GET_FILTER`: one unverified read (R178). -/
def microGetFilter (c : Config) : List XReq := [readReq c.aFilter]

/-- `ENABLE`: soft ramp, automute, mode (R179). -/
def microEnable (c : Config) : List XReq :=
  [writeReq c.aSoftRamp vRamp, writeReq c.aAutomute vAutomuteOff, writeReq c.aMode vModeOn]

/-- `DISABLE`: one verified write of the mode register (R180). -/
def microDisable (c : Config) : List XReq := [writeReq c.aMode vModeOff]

/-- The steps of a command. -/
def microSteps (c : Config) (op : Op) (arg : Byte) : List XReq :=
  match op with
  | .setVolume => microSetVolume c arg
  | .getVolume => microGetVolume c
  | .setFilter => microSetFilter c arg
  | .getFilter => microGetFilter c
  | .enable => microEnable c
  | .disable => microDisable c

/-- `Len(op)` (R171). -/
def microLen (op : Op) : Nat :=
  match op with
  | .setVolume => 4
  | .getVolume => 1
  | .setFilter => 1
  | .getFilter => 1
  | .enable => 3
  | .disable => 1

/-- `Micro(op, arg, k)`, the steps counted from 1 (R171). -/
def micro (c : Config) (op : Op) (arg : Byte) (k : BitVec 3) : Option XReq :=
  match k.toNat with
  | 0 => none
  | n + 1 => (microSteps c op arg)[n]?

/-- `Ret(op, b)`: a byte for the two get commands, nothing for the others (R171). -/
def ret (op : Op) (b : Byte) : Option Byte :=
  match op with
  | .setVolume => none
  | .getVolume => some (volumeOf b)
  | .setFilter => none
  | .getFilter => some (shapeOf b)
  | .enable => none
  | .disable => none

/-! ### Accepting, completing, and the algorithm (R172, R173) -/

/-- *Accept* (R172): latch the command, first step, set the flags. -/
def accept (op : Op) (arg : Byte) (s : State) : State :=
  let s := flagsAtAccept s
  { s with
    seq := { s.seq with op := op, arg := arg, step := 1#3 }
    history := s.history ++ [.accepted op arg] }

/-- *Complete* with `Ok` (R172, R173): the returned byte if there is one, no error fields (R29). -/
def completeOk (b : Byte) (s : State) : State :=
  let s := flagsAtCompletion false s
  { s with
    res := { s.res with
      value := ret s.seq.op b
      errReg := none
      errCode := none
      errOp := none
      errStep := none }
    history := s.history ++ [.completed s.seq.op false] }

/-- The sequencer takes the engine's response (T10) and acts on it (R173): abort on an error, complete after the
last step, else go to the next step. -/
def takeResponse (r : XRsp) (s : State) : State :=
  let s := engRelease s
  match r with
  | .err register c => errorEntry register c s
  | .ok b =>
    if s.seq.step.toNat = microLen s.seq.op then completeOk b s
    else { s with seq := { s.seq with step := s.seq.step + 1#3 } }

/-- The loop of R173 with at most `n` steps left. A call that hangs leaves the command in progress (U7). -/
def runSteps (n : Nat) (s : State) : State :=
  match n with
  | 0 => s
  | n + 1 =>
    match micro s.cfg s.seq.op s.seq.arg s.seq.step with
    | none => s
    | some req =>
      let s := transact req s
      match s.eng.phase, s.eng.rsp with
      | .done, some r =>
        let s := takeResponse r s
        if s.seq.busy then runSteps n s else s
      | _, _ => s

/-- The whole command from its acceptance: `RunCommand(op, arg)` (R173); no command has more than 4 steps. -/
def runCommand (op : Op) (arg : Byte) (s : State) : State := runSteps 4 (accept op arg s)

/-- A command word reaches the sequencer: accepted when nothing is in progress (R90, R172). -/
def command (op : Op) (arg : Byte) (s : State) : Host.Outcome State Fault Refusal :=
  if s.idle then .next (runCommand op arg s) else .refused .notIdle

/-! ### The six commands (R175 to R180) -/

/-- `SET_VOLUME v` (R175). -/
def execSetVolume (v : Byte) (s : State) : Host.Outcome State Fault Refusal := command .setVolume v s

/-- `GET_VOLUME` (R176). -/
def execGetVolume (spare : Byte) (s : State) : Host.Outcome State Fault Refusal := command .getVolume spare s

/-- `SET_FILTER shape` (R177). -/
def execSetFilter (shape : Byte) (s : State) : Host.Outcome State Fault Refusal := command .setFilter shape s

/-- `GET_FILTER` (R178). -/
def execGetFilter (spare : Byte) (s : State) : Host.Outcome State Fault Refusal := command .getFilter spare s

/-- `ENABLE` (R179). -/
def execEnable (spare : Byte) (s : State) : Host.Outcome State Fault Refusal := command .enable spare s

/-- `DISABLE` (R180). -/
def execDisable (spare : Byte) (s : State) : Host.Outcome State Fault Refusal := command .disable spare s

/-! ### A command or call in progress -/

/-- One step of the block while it is not idle: the engine's row (R142), the start of the step's engine call (T1),
or the taking of a response (T10, R173). -/
def tick (s : State) : Host.Outcome State Fault Refusal :=
  match s.eng.phase with
  | .idle =>
    match micro s.cfg s.seq.op s.seq.arg s.seq.step with
    | some req => .next (engLatch req s)
    | none => .fault .noRule
  | .done =>
    match s.eng.rsp with
    | some r => .next (if s.seq.busy then takeResponse r s else engRelease s)
    | none => .fault .noRule
  | _ =>
    match engTick s with
    | some t => .next t
    | none => .fault .envSilent

end Sys2Proof.Machine
end

