-- ==== Sys2Proof/Machine/Dispatch.lean ====
section
/-! DEFINITION. One arm per row of the opcode table. -/

namespace Sys2Proof.Machine

def exec (i : Instr) (s : State) : Host.Outcome State Fault Refusal :=
  match i with
  | .busWrite addr reg val => Sys2Proof.Machine.execBusWrite addr reg val s
  | .busRead addr reg spare => Sys2Proof.Machine.execBusRead addr reg spare s
  | .xread verify reg spare => Sys2Proof.Machine.execXread verify reg spare s
  | .xwrite reg val => Sys2Proof.Machine.execXwrite reg val s
  | .xwritev reg val => Sys2Proof.Machine.execXwritev reg val s
  | .setVolume v => Sys2Proof.Machine.execSetVolume v s
  | .getVolume spare => Sys2Proof.Machine.execGetVolume spare s
  | .setFilter shape => Sys2Proof.Machine.execSetFilter shape s
  | .getFilter spare => Sys2Proof.Machine.execGetFilter spare s
  | .enable spare => Sys2Proof.Machine.execEnable spare s
  | .disable spare => Sys2Proof.Machine.execDisable spare s

end Sys2Proof.Machine
end

