-- ==== Sys2Proof/Machine/Fetch.lean ====
section
/-! DEFINITION. What stands at the block's ports: the next word (`spec/30_encoding.md` rules R90, R95, R98) and
whether the block takes it. -/

namespace Sys2Proof.Machine

/-- What an idle block finds at its ports. -/
inductive Fetched where
  /-- Nothing is presented. -/
  | nothing
  /-- `HOST` renews the handle; the state is the one with the request taken. -/
  | rebind (s : State)
  /-- An instruction; the state is the one with its word taken. -/
  | instr (i : Instr) (s : State)
  /-- A word the block does not accept. -/
  | refused (r : Refusal)
deriving DecidableEq, Repr

/-- Does the instantiation have the port a move of the host needs: engine requests from outside need
`EXPOSE_ENGINE` (R3, R6, D5). -/
def portOpen (c : Config) (m : HostMove) : Bool :=
  match m with
  | .cmd _ => true
  | .xreq _ => c.exposeEngine
  | .rebind => true

/-- Look at the host's first move. A reserved opcode is refused (R110). -/
def fetchHost (s : State) : Fetched :=
  match s.inbox with
  | [] => .nothing
  | m :: rest =>
    if portOpen s.cfg m then
      match m.word with
      | none => .rebind { s with inbox := rest }
      | some r =>
        match decode r with
        | .ok i => .instr i { s with inbox := rest }
        | .error (.reservedOpcode op) => .refused (.reservedOpcode op)
    else .refused .engineNotExposed

/-- What an idle block finds: a primitive word at the port to the environment first, else the host's move. -/
def fetch (s : State) : Fetched :=
  match s.busPort with
  | some w => .instr (decodeBusp w) { s with busPort := none }
  | none => fetchHost s

/-- Put a word first at its port of an idle block, and open that port. -/
def present (r : Request) (s : State) : State :=
  { s with
    cfg := { s.cfg with exposeEngine := match r with
      | .cmd _ => s.cfg.exposeEngine
      | .xreq _ => true
      | .busp _ => s.cfg.exposeEngine }
    seq := { s.seq with busy := false }
    eng := { s.eng with phase := .idle }
    inbox := r.hostMove.toList ++ s.inbox
    busPort := r.busWord }

end Sys2Proof.Machine
end

