-- ==== Sys2Proof/Machine/Step.lean ====
section
/-! DEFINITION. One step of the machine: an idle block takes the next word at its ports and runs it, a block with a
command or an engine call in progress takes that one row further (`spec/42_control_sequencer.md` rules R172, R173,
`spec/41_transaction_engine.md` rule R142). -/

namespace Sys2Proof.Machine

def step (s : State) : Host.Outcome State Fault Refusal :=
  if s.idle then
    match fetch s with
    | .nothing => .next s
    | .rebind t => .next (rebind t)
    | .instr i t => exec i t
    | .refused r => .refused r
  else tick s

/-- The state in which the word `w` is the next one the machine takes. -/
def State.withFetchWord (s : State) (nbits w : Nat) : State :=
  match tableRequest nbits w with
  | some r => present r s
  | none => { s with inbox := [], busPort := none }

end Sys2Proof.Machine
end

