-- ==== Sys2Proof/Safety.lean ====
section
/-! DEFINITION. The terms claims are made in: the named premises of `spec/70_reset_and_hazards.md` rule R252, the
invariant of the machine, what can be read off the event history (`spec/10_state.md` rule R52), and rule R141 of
`spec/41_transaction_engine.md` as a function of the answers alone. -/

namespace Sys2Proof.Machine

/-! ### Premises (R252) -/

/-- The premise `EnvAnswers`: every environment but an exhausted list of told answers answers every primitive. -/
def Env.answersAlways (e : Env) : Bool :=
  match e with
  | .e0 => true
  | .e1 => true
  | .e2 _ => true
  | .e3 _ _ => true
  | .told _ => false

/-- The host's duty on the operand of `SET_FILTER` (R246); the block does not check it. -/
def inRange (i : Instr) : Bool :=
  match i with
  | .setFilter shape => decide (shape.toNat < 8)
  | _ => true

/-! ### The event history (R52) -/

/-- The writes of a stretch of history, in order: bus address, register, value. -/
def writesOf (h : List Event) : List (Addr7 × Byte × Byte) :=
  match h with
  | [] => []
  | .busWrite addr reg val _ :: rest => (addr, reg, val) :: writesOf rest
  | _ :: rest => writesOf rest

/-- The reads of a stretch of history, in order: bus address, register. -/
def readsOf (h : List Event) : List (Addr7 × Byte) :=
  match h with
  | [] => []
  | .busRead addr reg _ :: rest => (addr, reg) :: readsOf rest
  | _ :: rest => readsOf rest

/-- How many iterations a stretch of history logs (R121: one `Log` event per iteration). -/
def logsOf (h : List Event) : Nat :=
  match h with
  | [] => 0
  | .log _ _ _ :: rest => logsOf rest + 1
  | _ :: rest => logsOf rest

/-- The bus address and register of every primitive of a stretch of history. -/
def placesOf (h : List Event) : List (Addr7 × Byte) :=
  match h with
  | [] => []
  | .busWrite addr reg _ _ :: rest => (addr, reg) :: placesOf rest
  | .busRead addr reg _ :: rest => (addr, reg) :: placesOf rest
  | _ :: rest => placesOf rest

/-- How many delays of a kind a list holds. -/
def delaysOf (k : DelayKind) (ds : List Delay) : Nat :=
  match ds with
  | [] => 0
  | d :: rest => (if d.kind = k then 1 else 0) + delaysOf k rest

/-! ### Which registers an instruction can store to (R48) -/

/-- The registers a command writes (R48). -/
def opWritten (c : Config) (op : Op) : List Byte :=
  match op with
  | .setVolume => [c.aVolHold, c.aVolCh1, c.aVolCh2]
  | .getVolume => []
  | .setFilter => [c.aFilter]
  | .getFilter => []
  | .enable => [c.aSoftRamp, c.aAutomute, c.aMode]
  | .disable => [c.aMode]

/-! ### R141 as a function of the answers, without the machine's state -/

/-- How one pass of R141's loop is judged. -/
inductive Verdict where
  | success (b : Byte)
  | failure (code : Code)
deriving DecidableEq, Repr

/-- One pass: its verdict, the events it adds to the history, and the answers it leaves. -/
structure Pass where
  verdict : Verdict
  events : List Event
  rest : List Turn
deriving DecidableEq, Repr

/-- The event of the primary operation that is answered by a turn. -/
def primaryEvent (c : Config) (r : XReq) (p : Turn) : Event :=
  if r.isWrite then .busWrite c.devAddr r.reg r.val (writeAnswerOf p) else .busRead c.devAddr r.reg (readAnswerOf p)

/-- The log entry of a failed pass (R121: a failed read has no byte). -/
def failureLog (r : XReq) (k : BitVec 4) : Event := .log k r.reg (if r.isWrite then some r.val else none)

/-- The `k`-th pass over the answers to come; none while they do not suffice (R130). -/
def passTrace (c : Config) (r : XReq) (k : BitVec 4) (turns : List Turn) : Option Pass :=
  match turns with
  | [] => none
  | p :: rest =>
    match p.err with
    | some code => some ⟨.failure code, [primaryEvent c r p, failureLog r k], rest⟩
    | none =>
      if r.isWrite = false then some ⟨.success p.byte, [primaryEvent c r p, .log k r.reg (some p.byte)], rest⟩
      else if r.verify = false then some ⟨.success r.val, [primaryEvent c r p, .log k r.reg (some r.val)], rest⟩
      else
        match rest with
        | [] => none
        | q :: rest =>
          let two := [primaryEvent c r p, .busRead c.devAddr r.reg (readAnswerOf q)]
          match q.err with
          | some code => some ⟨.failure code, two ++ [failureLog r k], rest⟩
          | none =>
            if q.byte = r.val then some ⟨.success r.val, two ++ [.log k r.reg (some r.val)], rest⟩
            else some ⟨.failure c.codeGenericIo, two ++ [failureLog r k], rest⟩

/-- A whole call: its response, the events it adds, its delays in order, and the answers it leaves. -/
structure CallResult where
  rsp : XRsp
  events : List Event
  delays : List DelayKind
  rest : List Turn
deriving DecidableEq, Repr

/-- The passes `11 - n`, ..., 10 of a call, over the answers to come (R141). -/
def callTrace (c : Config) (r : XReq) (n : Nat) (turns : List Turn) : Option CallResult :=
  match n with
  | 0 => none
  | n + 1 =>
    match passTrace c r (BitVec.ofNat 4 (10 - n)) turns with
    | none => none
    | some p =>
      match p.verdict with
      | .success b => some ⟨.ok b, p.events, [.settle], p.rest⟩
      | .failure code =>
        if n = 0 then some ⟨.err r.reg code, p.events, [.settle], p.rest⟩
        else
          match callTrace c r n p.rest with
          | none => none
          | some q => some ⟨q.rsp, p.events ++ q.events, .settle :: .backoff :: q.delays, q.rest⟩

/-- The instruction that makes a request. -/
def reqInstr (r : XReq) : Instr :=
  if r.isWrite then if r.verify then .xwritev r.reg r.val else .xwrite r.reg r.val
  else .xread r.verify r.reg r.val

/-! ### Running the small-step forms -/

/-- `n` rows of R142, staying where no row is enabled. -/
def engTicks (n : Nat) (s : State) : State :=
  match n with
  | 0 => s
  | n + 1 =>
    match engTick s with
    | some t => engTicks n t
    | none => s

/-- `n` steps of a block that is not idle, staying where it becomes idle or has no step. -/
def ticks (n : Nat) (s : State) : State :=
  match n with
  | 0 => s
  | n + 1 =>
    if s.idle then s
    else
      match tick s with
      | .next t => ticks n t
      | .fault _ => s
      | .refused _ => s

/-! ### The invariant -/

/-- A completed result has the shape R29 gives it: on `Ok` no error field holds a value, on `Err` all four do and
there is no returned byte. -/
def ResState.shaped (r : ResState) : Prop :=
  r.valid = true →
    (r.status = false → r.errReg = none ∧ r.errCode = none ∧ r.errOp = none ∧ r.errStep = none) ∧
    (r.status = true → r.value = none ∧ r.errReg.isSome ∧ r.errCode.isSome ∧ r.errOp.isSome ∧ r.errStep.isSome)

/-- What every step keeps. -/
structure BlockInv (s : State) : Prop where
  /-- The register space is in canonical form (R40). -/
  memWf : s.dev.mem.wf = true
  /-- The seven addresses are distinct (R6). -/
  distinct : s.cfg.Distinct
  /-- R23: the step index lies in 1 to 4, and within the command's steps while one is in progress. -/
  stepRange : 1 ≤ s.seq.step.toNat ∧ s.seq.step.toNat ≤ 4
  stepOfOp : s.seq.busy = true → s.seq.step.toNat ≤ microLen s.seq.op
  /-- R25: the attempt counter lies in 1 to 10, and a back-off happens only with attempts left. -/
  attemptRange : 1 ≤ s.eng.attempt.toNat ∧ s.eng.attempt.toNat ≤ 10
  backoffLeft : s.eng.phase = .backoff → s.eng.attempt.toNat ≤ 9
  /-- R28: a code is kept once an iteration has failed. -/
  backoffCode : s.eng.phase = .backoff → s.eng.lastCode.isSome
  /-- R26: a response is available in `E_DONE`. -/
  doneRsp : s.eng.phase = .done → s.eng.rsp.isSome
  /-- R27: the answer kept is of the kind the primary operation has. -/
  primKind : s.eng.phase = .settle → (s.eng.prim = .ok → s.eng.isWrite = true) ∧
    (∀ b, s.eng.prim = .okByte b → s.eng.isWrite = false)
  /-- R26: the read-back belongs to a verified write. -/
  readbackKind : s.eng.phase = .readback → s.eng.isWrite = true ∧ s.eng.verify = true
  /-- R29: a valid result means that no command is in progress. -/
  validIdle : s.res.valid = true → s.seq.busy = false
  resShaped : s.res.shaped
  /-- R7: every delay lies in its interval, 1000 to 2000 microseconds. -/
  delayBounds : ∀ d ∈ s.delays, 1000 ≤ d.micros ∧ d.micros ≤ 2000

end Sys2Proof.Machine
end

