-- ==== Sys2Proof/Certificates/Slice0/Obligations.lean ====
section
/-! DEFINITION. The statements about the machine. Each docstring names the rules of the spec a statement formalises. A
statement about an instruction says that `exec` answers a next state and what that state holds; an engine request `r`
is the instruction `reqInstr r`, a command the instruction `op.instr arg`. -/

open Sys2Proof Sys2Proof.Machine Host

/-! ### Words -/

/-- R91, R92, R95, R98: the decoder inverts the encoder on every instruction, whatever its operands. -/
def Obligations.DecodeOfEncode : Prop := ∀ i : Instr, decode (encode i) = .ok i

/-- R91, R95, R98, R114: a word that decodes is the word of what it decodes to. The decoder drops no bit of it, the
don't-care bits of R111 and R112 included: that it keeps these is the model's reading (log entry 23, DEDUCED), and two
words that differ in them only mean the same to the block (OperandIgnored, VerifyIgnoredOnReads). -/
def Obligations.EncodeOfDecode : Prop := ∀ (r : Request) (i : Instr), decode r = .ok i → encode i = r

/-- `95_test_vectors.md` 2.1: one written-out word for each of the eleven rows, the non-canonical words E5a and E14a
among them. -/
def Obligations.WrittenWordsDecode : Prop :=
  decode (.cmd 0x0C8#11) = .ok (.setVolume 200#8) ∧ decode (.cmd 0x15A#11) = .ok (.getVolume 0x5A#8) ∧
  decode (.cmd 0x205#11) = .ok (.setFilter 5#8) ∧ decode (.cmd 0x300#11) = .ok (.getFilter 0#8) ∧
  decode (.cmd 0x400#11) = .ok (.enable 0#8) ∧ decode (.cmd 0x500#11) = .ok (.disable 0#8) ∧
  decode (.xreq 0x1A2FF#18) = .ok (.xread true 0xA2#8 0xFF#8) ∧ decode (.xreq 0x2A563#18) = .ok (.xwrite 0xA5#8 0x63#8) ∧
  decode (.xreq 0x3A414#18) = .ok (.xwritev 0xA4#8 0x14#8) ∧
  decode (.busp 0x55A414#24) = .ok (.busWrite 0x55#7 0xA4#8 0x14#8) ∧
  decode (.busp 0xD5A400#24) = .ok (.busRead 0x55#7 0xA4#8 0#8)

/-- R110: a command word whose opcode is 6 or 7 is refused by the decoder, and an idle block to which it is presented
refuses it under that name. -/
def Obligations.ReservedOpcodesRefused : Prop :=
  ∀ (w : BitVec 11) (rest : List HostMove) (s : State), 6 ≤ (w.extractLsb' 8 3).toNat →
    decode (.cmd w) = .error (.reservedOpcode (w.extractLsb' 8 3)) ∧
    (s.idle = true → s.busPort = none → s.inbox = .cmd w :: rest → step s = .refused (.reservedOpcode (w.extractLsb' 8 3)))

/-! ### Operand assembly -/

/-- R104: the inversion never borrows, is the complement on 8 bits, and is its own inverse. -/
def Obligations.VolumeInversion : Prop :=
  ∀ v : Byte, (volumeCode v).toNat = 255 - v.toNat ∧ volumeCode v = ~~~v ∧ volumeCode v = v ^^^ 0xFF#8 ∧
    volumeOf (volumeCode v) = v ∧ volumeCode (volumeOf v) = v

/-- R106, R107: the operand maps of the filter shape, on all 8 bits, and what a round trip keeps. -/
def Obligations.FilterOperands : Prop :=
  ∀ x : Byte, shapeCode x = x ||| 0x60#8 ∧ shapeOf x = x &&& 0x07#8 ∧ (shapeOf x).toNat < 8 ∧
    shapeOf (shapeCode x) = x &&& 0x07#8 ∧
    (x.toNat < 8 → 0x60 ≤ (shapeCode x).toNat ∧ (shapeCode x).toNat ≤ 0x67 ∧ shapeOf (shapeCode x) = x)

/-! ### The bus primitives and the environments -/

/-- R80: in E1 a write answers `ok` and stores its value, a read answers what is held and changes nothing held. -/
def Obligations.VerbatimDevice : Prop :=
  ∀ (s : State) (reg val spare : Byte), s.idle = true → s.env = .e1 →
    (∃ t, exec (.busWrite s.cfg.devAddr reg val) s = .next t ∧
      t.history = s.history ++ [.busWrite s.cfg.devAddr reg val .ok] ∧ t.env = .e1 ∧
      ∀ r : Byte, t.dev.held r = if r = reg then val else s.dev.held r) ∧
    (∃ t, exec (.busRead s.cfg.devAddr reg spare) s = .next t ∧
      t.history = s.history ++ [.busRead s.cfg.devAddr reg (.ok (s.dev.held reg))] ∧ t.env = .e1 ∧
      ∀ r : Byte, t.dev.held r = s.dev.held r)

/-- R81: in E2 each primitive consumes the head of the schedule, an empty schedule means `pass`; on `pass` it behaves as
E1, on `fail(c)` it answers `err(c)` and leaves the registers unchanged. -/
def Obligations.FaultSchedule : Prop :=
  ∀ (s : State) (reg val spare : Byte) (fates : List Fate), s.idle = true → s.env = .e2 fates →
    (∃ t, exec (.busWrite s.cfg.devAddr reg val) s = .next t ∧ t.env = .e2 fates.tail ∧
      match fates with
      | .fail c :: _ => t.history = s.history ++ [.busWrite s.cfg.devAddr reg val (.err c)] ∧
          ∀ r : Byte, t.dev.held r = s.dev.held r
      | _ => t.history = s.history ++ [.busWrite s.cfg.devAddr reg val .ok] ∧
          ∀ r : Byte, t.dev.held r = if r = reg then val else s.dev.held r) ∧
    (∃ t, exec (.busRead s.cfg.devAddr reg spare) s = .next t ∧ t.env = .e2 fates.tail ∧
      (∀ r : Byte, t.dev.held r = s.dev.held r) ∧
      match fates with
      | .fail c :: _ => t.history = s.history ++ [.busRead s.cfg.devAddr reg (.err c)]
      | _ => t.history = s.history ++ [.busRead s.cfg.devAddr reg (.ok (s.dev.held reg))])

/-- R82: E3 is as E1, except that a write to register `m` stores `val & k`. -/
def Obligations.MaskingDevice : Prop :=
  ∀ (s : State) (reg val spare m k : Byte), s.idle = true → s.env = .e3 m k →
    (∃ t, exec (.busWrite s.cfg.devAddr reg val) s = .next t ∧ t.env = .e3 m k ∧
      t.history = s.history ++ [.busWrite s.cfg.devAddr reg val .ok] ∧
      ∀ r : Byte, t.dev.held r = if r = reg then (if reg = m then val &&& k else val) else s.dev.held r) ∧
    (∃ t, exec (.busRead s.cfg.devAddr reg spare) s = .next t ∧ t.env = .e3 m k ∧
      t.history = s.history ++ [.busRead s.cfg.devAddr reg (.ok (s.dev.held reg))] ∧
      ∀ r : Byte, t.dev.held r = s.dev.held r)

/-- R69: after a write that answers `err(c)` the register holds the value written or what it held before, as the
environment has it; a read that answers `err(c)` delivers no byte. That the read changes no register (log entry 14,
DEDUCED from R68), that the write changes no other one (log entry 7), and that a write which disables the device is the
exception (log entry 33), are the model's. -/
def Obligations.FailedAccess : Prop :=
  ∀ (s : State) (reg val spare b : Byte) (c : Code) (lands : Bool) (rest : List Turn), s.idle = true →
    s.env = .told (⟨some c, b, lands⟩ :: rest) →
    (∃ t, exec (.busWrite s.cfg.devAddr reg val) s = .next t ∧
      t.history = s.history ++ [.busWrite s.cfg.devAddr reg val (.err c)] ∧
      t.dev.held reg = (if lands then val else s.dev.held reg) ∧
      ∀ r : Byte, r ≠ reg → lands = false ∨ reg ≠ s.cfg.aMode ∨ val = 0x02#8 → t.dev.held r = s.dev.held r) ∧
    (∃ t, exec (.busRead s.cfg.devAddr reg spare) s = .next t ∧
      t.history = s.history ++ [.busRead s.cfg.devAddr reg (.err c)] ∧ ∀ r : Byte, t.dev.held r = s.dev.held r)

/-- R131, R132, R83: in every environment that answers, E0 among them, and at every bus address, a primitive completes
with one event; it writes no field of the block, and of the registers at most the one a write names, and none of the
device's when the address is another one. A write to the mode register may disable the device, and where the environment
does not promise that it keeps its other registers then (R216, N23; log entry 33), nothing is said of them. That a read
changes no register, that a write changes no other one, and that another address leaves the device alone, are the
model's choices (log entries 14, 7 and 18). -/
def Obligations.BusPrimitivesCompleteAndFrame : Prop :=
  ∀ (s : State) (addr : Addr7) (reg val spare : Byte), s.idle = true → s.env ≠ .told [] →
    (∃ t a, exec (.busWrite addr reg val) s = .next t ∧ t.history = s.history ++ [.busWrite addr reg val a] ∧
      t.cfg = s.cfg ∧ t.seq = s.seq ∧ t.eng = s.eng ∧ t.res = s.res ∧ t.delays = s.delays ∧ t.inbox = s.inbox ∧
      t.busPort = s.busPort ∧ (addr ≠ s.cfg.devAddr → t.dev = s.dev) ∧
      (s.env.retains = true ∨ reg ≠ s.cfg.aMode → ∀ r : Byte, r ≠ reg → t.dev.held r = s.dev.held r)) ∧
    (∃ t a, exec (.busRead addr reg spare) s = .next t ∧ t.history = s.history ++ [.busRead addr reg a] ∧
      t.cfg = s.cfg ∧ t.seq = s.seq ∧ t.eng = s.eng ∧ t.res = s.res ∧ t.delays = s.delays ∧ t.inbox = s.inbox ∧
      t.busPort = s.busPort ∧ t.dev.hold = s.dev.hold ∧ t.dev.outCh1 = s.dev.outCh1 ∧ t.dev.outCh2 = s.dev.outCh2 ∧
      t.dev.ramp = s.dev.ramp ∧ ∀ r : Byte, t.dev.held r = s.dev.held r)

/-- R130, U7: while the transport has not answered, a primitive of its own has no step. That this is a fault is the
model's choice (log entry 9). -/
def Obligations.SilentTransportStops : Prop :=
  ∀ (s : State) (addr : Addr7) (reg val : Byte), s.idle = true → s.env = .told [] →
    exec (.busWrite addr reg val) s = .fault .envSilent ∧ exec (.busRead addr reg val) s = .fault .envSilent

/-- R45, R50 (a), R73, on the verbatim device E1: the store of 0x14 engages the hold; while it is engaged a store to a
channel register does not reach the output; the store of 0x04 releases the hold and both channels take effect.
The form of the device-side state is the model's (log entry 13), and so is that the outputs change in either power-state
view (log entry 34). -/
def Obligations.HoldDefersAndReleaseCommits : Prop :=
  ∀ (s : State) (v : Byte), s.idle = true → s.env = .e1 → s.cfg.Distinct →
    (∃ t, exec (.busWrite s.cfg.devAddr s.cfg.aVolHold 0x14#8) s = .next t ∧ t.dev.hold = true ∧
      t.dev.outCh1 = s.dev.outCh1 ∧ t.dev.outCh2 = s.dev.outCh2) ∧
    (∃ t, exec (.busWrite s.cfg.devAddr s.cfg.aVolCh1 v) s = .next t ∧ t.dev.hold = s.dev.hold ∧
      t.dev.held s.cfg.aVolCh1 = v ∧ t.dev.outCh1 = (if s.dev.hold then s.dev.outCh1 else v) ∧
      t.dev.outCh2 = s.dev.outCh2) ∧
    (∃ t, exec (.busWrite s.cfg.devAddr s.cfg.aVolCh2 v) s = .next t ∧ t.dev.hold = s.dev.hold ∧
      t.dev.held s.cfg.aVolCh2 = v ∧ t.dev.outCh2 = (if s.dev.hold then s.dev.outCh2 else v) ∧
      t.dev.outCh1 = s.dev.outCh1) ∧
    (∃ t, exec (.busWrite s.cfg.devAddr s.cfg.aVolHold 0x04#8) s = .next t ∧ t.dev.hold = false ∧
      t.dev.outCh1 = s.dev.held s.cfg.aVolCh1 ∧ t.dev.outCh2 = s.dev.held s.cfg.aVolCh2)

/-- R50 (b) and (c), R243: a primitive at the device, answered, starts its settling; a settle or back-off delay ends it,
and starts no soft ramp; on the verbatim device E1 the store of 0x02 to a mode register that held another value starts
one. The form of this state is the model's (log entry 13, DEDUCED); no rule of the block reads it. -/
def Obligations.SettlingAndSoftRamp : Prop :=
  ∀ s : State,
    (∀ reg val spare : Byte, s.idle = true → s.env ≠ .told [] →
      (∃ t, exec (.busWrite s.cfg.devAddr reg val) s = .next t ∧ t.dev.settling = true) ∧
      (∃ t, exec (.busRead s.cfg.devAddr reg spare) s = .next t ∧ t.dev.settling = true)) ∧
    (s.eng.phase = .settle ∨ s.eng.phase = .backoff →
      ∃ t, step s = .next t ∧ t.dev.settling = false ∧ (s.dev.ramp = false → t.dev.ramp = false)) ∧
    (s.idle = true → s.env = .e1 → s.dev.held s.cfg.aMode ≠ 0x02#8 →
      ∃ t, exec (.busWrite s.cfg.devAddr s.cfg.aMode 0x02#8) s = .next t ∧ t.dev.ramp = true)

/-! ### The engine -/

/-- R141: for every request and every list of answers, the machine ends the call with the response, the bus primitives,
the log entries and the delays that R141's loop gives for those answers, each delay a draw from its interval, and leaves
the other answers. The log entry of a failed read carries no byte, as R121 has it and R141's `Log(attempt, reg, val)`
does not say: log entry 29, DEDUCED. -/
def Obligations.EngineRunsTransact : Prop :=
  ∀ (s : State) (r : XReq) (turns : List Turn) (q : CallResult), s.idle = true → s.env = .told turns →
    callTrace s.cfg r 10 turns = some q →
    ∃ t ds, exec (reqInstr r) s = .next t ∧ t.idle = true ∧ t.eng.rsp = some q.rsp ∧
      t.history = s.history ++ q.events ∧ t.delays = s.delays ++ ds ∧ ds.map Delay.kind = q.delays ∧
      (∀ d ∈ ds, 1000 ≤ d.micros ∧ d.micros ≤ 2000) ∧ t.env = .told q.rest

/-- R130, U7, R247: when the answers do not suffice the call does not end: the engine waits in `E_PRIMARY` or
`E_READBACK` with every answer used, and has no step. That having no step is a fault is the model's choice (log entry
9). -/
def Obligations.EngineHangsWithoutAnswers : Prop :=
  ∀ (s : State) (r : XReq) (turns : List Turn), s.idle = true → s.env = .told turns →
    callTrace s.cfg r 10 turns = none →
    ∃ t, exec (reqInstr r) s = .next t ∧ (t.eng.phase = .primary ∨ t.eng.phase = .readback) ∧ t.env = .told [] ∧
      step t = .fault .envSilent

/-- R143: the state machine of R142, run from the latch until no row is enabled, reaches exactly the state of the call
as one function, in at most 40 rows. -/
def Obligations.SmallStepMeetsBigStep : Prop :=
  ∀ (s : State) (r : XReq), ∃ n, n ≤ 40 ∧ engTicks n (engLatch r s) = transact r s ∧ engTick (transact r s) = none

/-- R142: what each row does to the control state and which response it gives (the bus rows T2, T3 and T8 are in the
statements about the bus and the call). A block in one of these phases takes the row in one step. T10 stands here for a
requester outside the sequencer; for the sequencer it is in ErrorEntry and SequencerTakesOk. The row FAIL logs no byte
for a failed read, as R121 has it and the row's `eng.val` does not: log entry 29, DEDUCED. -/
def Obligations.EngineRows : Prop :=
  ∀ s : State,
    (s.eng.phase = .settle → ∃ t, step s = .next t ∧
      match s.eng.prim with
      | .okByte b => t.eng.phase = .done ∧ t.eng.rsp = some (.ok b) ∧
          t.history = s.history ++ [.log s.eng.attempt s.eng.reg (some b)]
      | .ok => if s.eng.verify then t.eng.phase = .readback ∧ t.history = s.history
          else t.eng.phase = .done ∧ t.eng.rsp = some (.ok s.eng.val) ∧
            t.history = s.history ++ [.log s.eng.attempt s.eng.reg (some s.eng.val)]
      | .err c => t.eng.lastCode = some c ∧
          t.history = s.history ++ [.log s.eng.attempt s.eng.reg (if s.eng.isWrite then some s.eng.val else none)] ∧
          (s.eng.attempt.toNat ≤ 9 → t.eng.phase = .backoff ∧ t.eng.rsp = s.eng.rsp) ∧
          (9 < s.eng.attempt.toNat → t.eng.phase = .done ∧ t.eng.rsp = some (.err s.eng.reg c))) ∧
    (s.eng.phase = .backoff → ∃ t, step s = .next t ∧ t.eng.phase = .primary ∧ t.eng.attempt = s.eng.attempt + 1#4 ∧
      t.history = s.history) ∧
    (s.eng.phase = .done → s.seq.busy = false → s.eng.rsp.isSome = true →
      ∃ t, step s = .next t ∧ t.eng.phase = .idle ∧ t.eng.rsp = s.eng.rsp)

/-- R147: a call issues at most ten primary operations, each the same as the first; nine failures and then a success
still succeed; ten failures end in the error with the code of the tenth. A failure here is a transport error on the
primary operation. A read makes no write (R144), an unverified write no read (R145). -/
def Obligations.BoundedRetry : Prop :=
  (∀ (s : State) (r : XReq), s.idle = true → ∃ t new, exec (reqInstr r) s = .next t ∧ t.history = s.history ++ new ∧
    (if r.isWrite then (writesOf new).length else (readsOf new).length) ≤ 10 ∧ (readsOf new).length ≤ 10 ∧
    (r.isWrite = false → writesOf new = []) ∧ (r.isWrite = true → r.verify = false → readsOf new = []) ∧
    (∀ w ∈ writesOf new, w = (s.cfg.devAddr, r.reg, r.val)) ∧ (∀ p ∈ readsOf new, p = (s.cfg.devAddr, r.reg))) ∧
  (∀ (s : State) (r : XReq) (fails : List Turn) (good back : Turn) (rest : List Turn), s.idle = true →
    fails.length = 9 → (∀ f ∈ fails, f.err.isSome = true) → good.err = none → back.err = none → back.byte = r.val →
    s.env = .told (fails ++ good :: back :: rest) →
    ∃ t, exec (reqInstr r) s = .next t ∧ t.eng.rsp = some (.ok (if r.isWrite then r.val else good.byte))) ∧
  (∀ (s : State) (r : XReq) (fails : List Turn) (last : Turn) (c : Code) (rest : List Turn), s.idle = true →
    fails.length = 9 → (∀ f ∈ fails, f.err.isSome = true) → last.err = some c →
    s.env = .told (fails ++ last :: rest) →
    ∃ t, exec (reqInstr r) s = .next t ∧ t.eng.rsp = some (.err r.reg c))

/-- R150: of a call that ends, the settle delays are as many as the iterations run, the back-off delays one fewer, since
every iteration but the last one failed; each delay lies in its interval. -/
def Obligations.DelayCounts : Prop :=
  ∀ (s : State) (r : XReq), s.idle = true → s.env.answersAlways = true →
    ∃ t new ds, exec (reqInstr r) s = .next t ∧ t.history = s.history ++ new ∧ t.delays = s.delays ++ ds ∧
      delaysOf .settle ds = logsOf new ∧ delaysOf .backoff ds + 1 = logsOf new ∧
      ∀ d ∈ ds, 1000 ≤ d.micros ∧ d.micros ≤ 2000

/-- R111: a read request with `verify` set, and whatever its value bits, is in every respect the read without: the two
final states differ in the latched bits that are never read. -/
def Obligations.VerifyIgnoredOnReads : Prop :=
  ∀ (s : State) (v v' : Bool) (reg x x' : Byte), s.idle = true →
    ∃ t, exec (.xread v reg x) s = .next t ∧
      exec (.xread v' reg x') s = .next { t with eng := { t.eng with verify := v', val := x' } }

/-- R148: on `Ok` of a verified write the last primitive is a read-back that returned the value written; on `Ok` of a
read or of an unverified write the last primitive is the primary operation and it reported no error. -/
def Obligations.SuccessGuarantee : Prop :=
  ∀ (s : State) (r : XReq) (b : Byte), s.idle = true → s.env.answersAlways = true →
    ∃ t new, exec (reqInstr r) s = .next t ∧ t.history = s.history ++ new ∧
      (t.eng.rsp = some (.ok b) → ∃ early k, new = early ++
        [if r.isWrite ∧ r.verify = false then Event.busWrite s.cfg.devAddr r.reg r.val .ok
          else Event.busRead s.cfg.devAddr r.reg (.ok b), Event.log k r.reg (some b)] ∧
        (r.isWrite = true → b = r.val))

/-- R144 to R146, R149, R250: in every environment that answers, a request ends, the engine is idle again, and the
response is there: the value, or the error with the request's register. -/
def Obligations.EngineCallsEnd : Prop :=
  ∀ (s : State) (r : XReq), s.idle = true → s.env.answersAlways = true →
    ∃ t, exec (reqInstr r) s = .next t ∧ t.idle = true ∧
      ((∃ b, t.eng.rsp = some (.ok b)) ∨ ∃ c, t.eng.rsp = some (.err r.reg c) ∧ t.eng.attempt = 10#4)

/-- R61, R63, R68, R131, R132, R152: the frame of the three requests: no command state, no result field, no parameter,
nothing presented; the history only grows; of the device's registers at most the one a write names, and a read leaves
the hold and both outputs. What this says of the device rests on the model's choices: a read changes no register (log
entry 14), a write no other one (log entry 7), the hold and the outputs are those of log entry 13. A write to the mode
register is excepted where the environment does not promise that a disabled device keeps its registers (R216, N23; log
entry 33). -/
def Obligations.EngineFrame : Prop :=
  ∀ (s : State) (r : XReq), s.idle = true → ∃ t, exec (reqInstr r) s = .next t ∧ t.cfg = s.cfg ∧ t.seq = s.seq ∧
    t.res = s.res ∧ t.inbox = s.inbox ∧ t.busPort = s.busPort ∧ s.history <+: t.history ∧
    (∀ a : Byte, (r.isWrite = true → a ≠ r.reg ∧ (s.env.retains = true ∨ r.reg ≠ s.cfg.aMode)) →
      t.dev.held a = s.dev.held a) ∧
    (r.isWrite = false → t.dev.hold = s.dev.hold ∧ t.dev.outCh1 = s.dev.outCh1 ∧ t.dev.outCh2 = s.dev.outCh2)

/-- R144 to R146 in E1: one pass each. A read returns what is held and changes no register; a write stores its value and
returns it, with a read-back exactly when it is verified. -/
def Obligations.RequestsOnVerbatimDevice : Prop :=
  ∀ (s : State) (reg val : Byte) (v : Bool), s.idle = true → s.env = .e1 →
    (∃ t, exec (.xread v reg val) s = .next t ∧ t.idle = true ∧ t.eng.rsp = some (.ok (s.dev.held reg)) ∧
      t.history = s.history ++ [.busRead s.cfg.devAddr reg (.ok (s.dev.held reg)), .log 1#4 reg (some (s.dev.held reg))] ∧
      ∀ a : Byte, t.dev.held a = s.dev.held a) ∧
    (∃ t, exec (.xwrite reg val) s = .next t ∧ t.idle = true ∧ t.eng.rsp = some (.ok val) ∧
      t.history = s.history ++ [.busWrite s.cfg.devAddr reg val .ok, .log 1#4 reg (some val)] ∧
      ∀ a : Byte, t.dev.held a = if a = reg then val else s.dev.held a) ∧
    (∃ t, exec (.xwritev reg val) s = .next t ∧ t.idle = true ∧ t.eng.rsp = some (.ok val) ∧
      t.history = s.history ++
        [.busWrite s.cfg.devAddr reg val .ok, .busRead s.cfg.devAddr reg (.ok val), .log 1#4 reg (some val)] ∧
      ∀ a : Byte, t.dev.held a = if a = reg then val else s.dev.held a)

/-! ### The sequencer, in every environment -/

/-- R171: the micro-sequence table, its lengths and its returns. -/
def Obligations.MicroSequenceTable : Prop :=
  ∀ (c : Config) (arg b : Byte) (k : BitVec 3),
    micro c .setVolume arg k = (if k = 1#3 then some ⟨c.aVolHold, 0x14#8, true, true⟩
      else if k = 2#3 then some ⟨c.aVolCh1, 255#8 - arg, true, true⟩
      else if k = 3#3 then some ⟨c.aVolCh2, 255#8 - arg, true, true⟩
      else if k = 4#3 then some ⟨c.aVolHold, 0x04#8, true, true⟩ else none) ∧
    micro c .getVolume arg k = (if k = 1#3 then some ⟨c.aVolCh1, 0#8, false, false⟩ else none) ∧
    micro c .setFilter arg k = (if k = 1#3 then some ⟨c.aFilter, arg ||| 0x60#8, true, true⟩ else none) ∧
    micro c .getFilter arg k = (if k = 1#3 then some ⟨c.aFilter, 0#8, false, false⟩ else none) ∧
    micro c .enable arg k = (if k = 1#3 then some ⟨c.aSoftRamp, 0x09#8, true, true⟩
      else if k = 2#3 then some ⟨c.aAutomute, 0x00#8, true, true⟩
      else if k = 3#3 then some ⟨c.aMode, 0x02#8, true, true⟩ else none) ∧
    micro c .disable arg k = (if k = 1#3 then some ⟨c.aMode, 0x00#8, true, true⟩ else none) ∧
    (∀ op, microLen op = (microSteps c op arg).length) ∧
    ret .getVolume b = some (255#8 - b) ∧ ret .getFilter b = some (b &&& 0x07#8) ∧
    ret .setVolume b = none ∧ ret .setFilter b = none ∧ ret .enable b = none ∧ ret .disable b = none

/-- R173, R142: the command as one function is its steps: run from the accepted state until the block is idle again or
waits for an answer, the steps of the block reach exactly the state `exec` answers. -/
def Obligations.CommandIsItsSteps : Prop :=
  ∀ (s : State) (op : Op) (arg : Byte), s.idle = true →
    ∃ n t, exec (op.instr arg) s = .next t ∧ ticks n (accept op arg s) = t ∧
      (t.idle = true ∨ step t = .fault .envSilent)

/-- R13, R173, R202, R250: in every environment that answers, every command completes: the block is idle, the result
valid. An `Ok` comes from the last step, whose last primitive is a read of its register that delivered a byte `b`, and
the value is `Ret` of that byte: a byte exactly for the get commands. An `Err` names the command, the step that failed
and that step's register. -/
def Obligations.CommandsComplete : Prop :=
  ∀ (s : State) (op : Op) (arg : Byte), s.idle = true → s.env.answersAlways = true →
    ∃ t, exec (op.instr arg) s = .next t ∧ t.idle = true ∧ t.res.valid = true ∧ t.seq.op = op ∧ t.seq.arg = arg ∧
      (t.res.status = false → t.seq.step.toNat = microLen op ∧
        t.res.errReg = none ∧ t.res.errCode = none ∧ t.res.errOp = none ∧ t.res.errStep = none ∧
        ∃ r b k early, micro s.cfg op arg t.seq.step = some r ∧ t.res.value = ret op b ∧
          t.history = s.history ++ early ++
            [.busRead s.cfg.devAddr r.reg (.ok b), .log k r.reg (some b), .completed op false]) ∧
      (t.res.status = true → t.res.value = none ∧ t.res.errOp = some op ∧ t.res.errStep = some t.seq.step ∧
        (∃ c, t.res.errCode = some c) ∧
        ∃ r, micro s.cfg op arg t.seq.step = some r ∧ t.res.errReg = some r.reg)

/-- R71, R171, R182, R241: whatever the environment answers, the writes a command makes are its table's writes in
order, each repeated 1 to 10 times, up to the step the command reached; the get commands make none. -/
def Obligations.WritesFollowTheTable : Prop :=
  ∀ (s : State) (op : Op) (arg : Byte), s.idle = true → s.env.answersAlways = true →
    ∃ (t : State) (new : List Event) (counts : List Nat), exec (op.instr arg) s = .next t ∧
      t.history = s.history ++ new ∧ counts.length = t.seq.step.toNat ∧ (∀ n ∈ counts, 1 ≤ n ∧ n ≤ 10) ∧
      writesOf new = ((counts.zip (microSteps s.cfg op arg)).filter (fun p => p.2.isWrite)).flatMap
        (fun p => List.replicate p.1 (s.cfg.devAddr, p.2.reg, p.2.val))

/-- R49: every primitive a command issues is at `DEV_ADDR` and at one of the seven registers; a request's are at
`DEV_ADDR` and at its own register, whichever it is. -/
def Obligations.PrimitivesStayOnTheDevice : Prop :=
  (∀ (s : State) (op : Op) (arg : Byte), s.idle = true → ∃ t new, exec (op.instr arg) s = .next t ∧
    t.history = s.history ++ new ∧ ∀ p ∈ placesOf new, p.1 = s.cfg.devAddr ∧ p.2 ∈ s.cfg.addresses) ∧
  (∀ (s : State) (r : XReq), s.idle = true → ∃ t new, exec (reqInstr r) s = .next t ∧
    t.history = s.history ++ new ∧ ∀ p ∈ placesOf new, p = (s.cfg.devAddr, r.reg))

/-- R33, R48, R68, R131, R132: the frame of the six commands, in every environment: no parameter and nothing presented is
written, the history only grows, and every register the command does not write (R48) keeps what it held; for the get
commands that is every register. That a write changes no other register and a read none is the model's choice (log
entries 7 and 14). What the device keeps when a command that writes the mode register disables it is not in the source
(R216, N23; log entry 33): there the environment must promise it. -/
def Obligations.CommandFrame : Prop :=
  ∀ (s : State) (op : Op) (arg : Byte), s.idle = true → ∃ t, exec (op.instr arg) s = .next t ∧ t.cfg = s.cfg ∧
    t.inbox = s.inbox ∧ t.busPort = s.busPort ∧ s.history <+: t.history ∧
    (s.env.retains = true ∨ s.cfg.aMode ∉ opWritten s.cfg op →
      ∀ a : Byte, a ∉ opWritten s.cfg op → t.dev.held a = s.dev.held a)

/-- R112: the operand of the four commands that take none is latched and has no other effect: two runs that differ in
it end in states that differ in the latch and in the recorded word of the acceptance. -/
def Obligations.OperandIgnored : Prop :=
  ∀ (s : State) (op : Op) (x y : Byte), s.idle = true → op ≠ .setVolume → op ≠ .setFilter →
    ∃ t new, exec (op.instr x) s = .next t ∧ t.history = s.history ++ .accepted op x :: new ∧
      exec (op.instr y) s = .next { t with
        seq := { t.seq with arg := y }
        history := s.history ++ .accepted op y :: new }

/-- R20, R152: the command's behaviour does not depend on what the fields of `seq`, `eng` and `res` held before: two
idle states that differ there only end alike. -/
def Obligations.DeadFieldsDoNotMatter : Prop :=
  ∀ (s : State) (q : SeqState) (e : EngState) (r : ResState) (op : Op) (arg : Byte), s.idle = true →
    q.busy = false → e.phase = .idle → s.env.answersAlways = true →
    ∃ t, exec (op.instr arg) s = .next t ∧ exec (op.instr arg) { s with seq := q, eng := e, res := r } = .next t

/-- R130, R172, U7: with a transport that does not answer, a command is accepted and waits in its first step: the latch,
the flags and the history are those of the acceptance, and the block has no step. That having no step is a fault is the
model's choice (log entry 9). -/
def Obligations.CommandWaitsForTheTransport : Prop :=
  ∀ (s : State) (op : Op) (arg : Byte), s.idle = true → s.env = .told [] →
    ∃ t, exec (op.instr arg) s = .next t ∧ t.seq = ⟨true, op, arg, 1#3⟩ ∧ t.res.valid = false ∧
      t.eng.phase = .primary ∧ t.eng.attempt = 1#4 ∧ t.eng.lastCode = none ∧
      t.history = s.history ++ [.accepted op arg] ∧ step t = .fault .envSilent

/-! ### The commands on the reference devices -/

/-- R175, R182 in E1: `SET_VOLUME v` makes exactly the four writes hold, channel 1, channel 2, release, each followed by
one read-back, ends `Ok`, leaves 255 - v in both channels and in effect, the hold released, and no other register
changed. The hold and what is in effect are the device-side state of log entry 13 (DEDUCED from R50 and R73), which E1
as R80 gives it does not have; that they change in either power-state view is log entry 34. -/
def Obligations.SetVolumeOnVerbatimDevice : Prop :=
  ∀ (s : State) (v : Byte), s.idle = true → s.env = .e1 → s.cfg.Distinct →
    ∃ t, exec (.setVolume v) s = .next t ∧ t.idle = true ∧ t.res = ⟨true, false, none, none, none, none, none⟩ ∧
      t.env = .e1 ∧
      t.history = s.history ++ [.accepted .setVolume v,
        .busWrite s.cfg.devAddr s.cfg.aVolHold 0x14#8 .ok, .busRead s.cfg.devAddr s.cfg.aVolHold (.ok 0x14#8),
        .log 1#4 s.cfg.aVolHold (some 0x14#8),
        .busWrite s.cfg.devAddr s.cfg.aVolCh1 (255#8 - v) .ok, .busRead s.cfg.devAddr s.cfg.aVolCh1 (.ok (255#8 - v)),
        .log 1#4 s.cfg.aVolCh1 (some (255#8 - v)),
        .busWrite s.cfg.devAddr s.cfg.aVolCh2 (255#8 - v) .ok, .busRead s.cfg.devAddr s.cfg.aVolCh2 (.ok (255#8 - v)),
        .log 1#4 s.cfg.aVolCh2 (some (255#8 - v)),
        .busWrite s.cfg.devAddr s.cfg.aVolHold 0x04#8 .ok, .busRead s.cfg.devAddr s.cfg.aVolHold (.ok 0x04#8),
        .log 1#4 s.cfg.aVolHold (some 0x04#8), .completed .setVolume false] ∧
      (∀ a : Byte, t.dev.held a = if a = s.cfg.aVolHold then 0x04#8
        else if a = s.cfg.aVolCh1 ∨ a = s.cfg.aVolCh2 then 255#8 - v else s.dev.held a) ∧
      t.dev.hold = false ∧ t.dev.outCh1 = 255#8 - v ∧ t.dev.outCh2 = 255#8 - v

/-- R176 in E1: `GET_VOLUME` makes one read of channel 1 and no write, and returns 255 minus the byte held there. -/
def Obligations.GetVolumeOnVerbatimDevice : Prop :=
  ∀ (s : State) (x : Byte), s.idle = true → s.env = .e1 →
    ∃ t, exec (.getVolume x) s = .next t ∧ t.idle = true ∧ t.env = .e1 ∧
      t.res = ⟨true, false, some (255#8 - s.dev.held s.cfg.aVolCh1), none, none, none, none⟩ ∧
      t.history = s.history ++ [.accepted .getVolume x,
        .busRead s.cfg.devAddr s.cfg.aVolCh1 (.ok (s.dev.held s.cfg.aVolCh1)),
        .log 1#4 s.cfg.aVolCh1 (some (s.dev.held s.cfg.aVolCh1)), .completed .getVolume false] ∧
      ∀ a : Byte, t.dev.held a = s.dev.held a

/-- R177 in E1: `SET_FILTER x` makes one verified write of `x | 0x60`, for every operand byte. -/
def Obligations.SetFilterOnVerbatimDevice : Prop :=
  ∀ (s : State) (x : Byte), s.idle = true → s.env = .e1 →
    ∃ t, exec (.setFilter x) s = .next t ∧ t.idle = true ∧ t.env = .e1 ∧
      t.res = ⟨true, false, none, none, none, none, none⟩ ∧
      t.history = s.history ++ [.accepted .setFilter x,
        .busWrite s.cfg.devAddr s.cfg.aFilter (x ||| 0x60#8) .ok,
        .busRead s.cfg.devAddr s.cfg.aFilter (.ok (x ||| 0x60#8)),
        .log 1#4 s.cfg.aFilter (some (x ||| 0x60#8)), .completed .setFilter false] ∧
      ∀ a : Byte, t.dev.held a = if a = s.cfg.aFilter then x ||| 0x60#8 else s.dev.held a

/-- R178 in E1: `GET_FILTER` makes one read of the filter register and no write, and returns the low 3 bits. -/
def Obligations.GetFilterOnVerbatimDevice : Prop :=
  ∀ (s : State) (x : Byte), s.idle = true → s.env = .e1 →
    ∃ t, exec (.getFilter x) s = .next t ∧ t.idle = true ∧ t.env = .e1 ∧
      t.res = ⟨true, false, some (s.dev.held s.cfg.aFilter &&& 0x07#8), none, none, none, none⟩ ∧
      t.history = s.history ++ [.accepted .getFilter x,
        .busRead s.cfg.devAddr s.cfg.aFilter (.ok (s.dev.held s.cfg.aFilter)),
        .log 1#4 s.cfg.aFilter (some (s.dev.held s.cfg.aFilter)), .completed .getFilter false] ∧
      ∀ a : Byte, t.dev.held a = s.dev.held a

/-- R179, R181, R182, R232 in E1: `ENABLE` makes exactly the three verified writes soft-ramp, automute, mode, whatever
the device held, and the view is then `Enabled`. -/
def Obligations.EnableOnVerbatimDevice : Prop :=
  ∀ (s : State) (x : Byte), s.idle = true → s.env = .e1 → s.cfg.Distinct →
    ∃ t, exec (.enable x) s = .next t ∧ t.idle = true ∧ t.env = .e1 ∧
      t.res = ⟨true, false, none, none, none, none, none⟩ ∧
      t.history = s.history ++ [.accepted .enable x,
        .busWrite s.cfg.devAddr s.cfg.aSoftRamp 0x09#8 .ok, .busRead s.cfg.devAddr s.cfg.aSoftRamp (.ok 0x09#8),
        .log 1#4 s.cfg.aSoftRamp (some 0x09#8),
        .busWrite s.cfg.devAddr s.cfg.aAutomute 0x00#8 .ok, .busRead s.cfg.devAddr s.cfg.aAutomute (.ok 0x00#8),
        .log 1#4 s.cfg.aAutomute (some 0x00#8),
        .busWrite s.cfg.devAddr s.cfg.aMode 0x02#8 .ok, .busRead s.cfg.devAddr s.cfg.aMode (.ok 0x02#8),
        .log 1#4 s.cfg.aMode (some 0x02#8), .completed .enable false] ∧
      (∀ a : Byte, t.dev.held a = if a = s.cfg.aMode then 0x02#8 else if a = s.cfg.aAutomute then 0x00#8
        else if a = s.cfg.aSoftRamp then 0x09#8 else s.dev.held a) ∧
      t.view = .enabled

/-- R180, R181, R182 in E1: `DISABLE` makes exactly one verified write, 0x00 to the mode register, and the view is then
`Disabled`. -/
def Obligations.DisableOnVerbatimDevice : Prop :=
  ∀ (s : State) (x : Byte), s.idle = true → s.env = .e1 →
    ∃ t, exec (.disable x) s = .next t ∧ t.idle = true ∧ t.env = .e1 ∧
      t.res = ⟨true, false, none, none, none, none, none⟩ ∧
      t.history = s.history ++ [.accepted .disable x,
        .busWrite s.cfg.devAddr s.cfg.aMode 0x00#8 .ok, .busRead s.cfg.devAddr s.cfg.aMode (.ok 0x00#8),
        .log 1#4 s.cfg.aMode (some 0x00#8), .completed .disable false] ∧
      (∀ a : Byte, t.dev.held a = if a = s.cfg.aMode then 0x00#8 else s.dev.held a) ∧ t.view = .disabled

/-- R108: on the verbatim device, a channel-1 register that holds what `SET_VOLUME v` writes makes `GET_VOLUME` return
`v`; a filter register that holds what `SET_FILTER x` writes makes `GET_FILTER` return the low 3 bits of `x`, which are
`x` itself when `x` is below 8; and the two set commands do leave those registers so. -/
def Obligations.RoundTrips : Prop :=
  ∀ (s : State) (v x y : Byte), s.idle = true → s.env = .e1 →
    (s.dev.held s.cfg.aVolCh1 = 255#8 - v → ∃ u, exec (.getVolume y) s = .next u ∧ u.res.status = false ∧
      u.res.value = some v) ∧
    (s.dev.held s.cfg.aFilter = x ||| 0x60#8 → ∃ u, exec (.getFilter y) s = .next u ∧ u.res.status = false ∧
      u.res.value = some (x &&& 0x07#8) ∧ (x.toNat < 8 → u.res.value = some x)) ∧
    (s.cfg.Distinct → ∃ t u, exec (.setVolume v) s = .next t ∧ exec (.getVolume y) t = .next u ∧
      u.res.status = false ∧ u.res.value = some v) ∧
    (∃ t u, exec (.setFilter x) s = .next t ∧ exec (.getFilter y) t = .next u ∧ u.res.status = false ∧
      u.res.value = some (x &&& 0x07#8) ∧ (x.toNat < 8 → u.res.value = some x))

/-- R181: against a device that stores what is written, `ENABLE` and `DISABLE` set the view from either view, and the
other four commands leave it. -/
def Obligations.ViewTransitions : Prop :=
  ∀ (s : State) (op : Op) (arg : Byte), s.idle = true → s.env = .e1 → s.cfg.Distinct →
    ∃ t, exec (op.instr arg) s = .next t ∧ t.res.status = false ∧
      t.view = (match op with
        | .enable => .enabled
        | .disable => .disabled
        | _ => s.view)

/-- R174, R175 (a), R206, R242, on E2: a `SET_VOLUME` whose step `k + 1` fails ten times reports that step, its register
and the code; the earlier steps' writes stay, no later step writes, and from the second step on the hold stays engaged,
while a failure of the first leaves it as it was. The hold and the outputs are the device-side state of log entry 13,
in either power-state view (log entry 34). -/
def Obligations.SetVolumeAborts : Prop :=
  ∀ (s : State) (v : Byte) (c : Code) (k : Nat) (r : XReq), s.idle = true → s.cfg.Distinct → k < 4 →
    (microSteps s.cfg .setVolume v)[k]? = some r →
    s.env = .e2 (List.replicate (2 * k) .pass ++ List.replicate 10 (.fail c)) →
    ∃ t new, exec (.setVolume v) s = .next t ∧ t.idle = true ∧ t.history = s.history ++ new ∧
      t.res = ⟨true, true, none, some r.reg, some c, some .setVolume, some (BitVec.ofNat 3 (k + 1))⟩ ∧
      writesOf new = ((microSteps s.cfg .setVolume v).take k).map (fun q => (s.cfg.devAddr, q.reg, q.val)) ++
        List.replicate 10 (s.cfg.devAddr, r.reg, r.val) ∧
      t.dev.hold = (if k = 0 then s.dev.hold else true) ∧
      t.dev.outCh1 = s.dev.outCh1 ∧ t.dev.outCh2 = s.dev.outCh2 ∧
      ∀ a : Byte, t.dev.held a = if a = s.cfg.aVolHold ∧ 1 ≤ k then 0x14#8
        else if a = s.cfg.aVolCh1 ∧ 2 ≤ k then 255#8 - v
        else if a = s.cfg.aVolCh2 ∧ 3 ≤ k then 255#8 - v else s.dev.held a

/-- R174, R179 (b), on E2: an `ENABLE` whose step `k + 1` fails ten times reports it and makes no later write: its writes
are those of the first `k` steps and ten of the failing one, and a failure at any step leaves the mode register as it
was. -/
def Obligations.EnableAborts : Prop :=
  ∀ (s : State) (x : Byte) (c : Code) (k : Nat) (r : XReq), s.idle = true → s.cfg.Distinct → k < 3 →
    (microSteps s.cfg .enable x)[k]? = some r →
    s.env = .e2 (List.replicate (2 * k) .pass ++ List.replicate 10 (.fail c)) →
    ∃ t new, exec (.enable x) s = .next t ∧ t.idle = true ∧ t.history = s.history ++ new ∧
      t.res = ⟨true, true, none, some r.reg, some c, some .enable, some (BitVec.ofNat 3 (k + 1))⟩ ∧
      writesOf new = ((microSteps s.cfg .enable x).take k).map (fun q => (s.cfg.devAddr, q.reg, q.val)) ++
        List.replicate 10 (s.cfg.devAddr, r.reg, r.val) ∧
      ∀ a : Byte, t.dev.held a = if a = s.cfg.aSoftRamp ∧ 1 ≤ k then 0x09#8
        else if a = s.cfg.aAutomute ∧ 2 ≤ k then 0x00#8 else s.dev.held a

/-- R113, R146, R201, U2, on E3: a `SET_FILTER` whose value the device does not hold fails after ten writes and ten
read-backs with `CODE_GENERIC_IO`, though no transport error occurred. -/
def Obligations.MaskedFilterFails : Prop :=
  ∀ (s : State) (x k : Byte), s.idle = true → s.env = .e3 s.cfg.aFilter k → (x ||| 0x60#8) &&& k ≠ x ||| 0x60#8 →
    ∃ t new, exec (.setFilter x) s = .next t ∧ t.idle = true ∧ t.history = s.history ++ new ∧
      t.res = ⟨true, true, none, some s.cfg.aFilter, some s.cfg.codeGenericIo, some .setFilter, some 1#3⟩ ∧
      writesOf new = List.replicate 10 (s.cfg.devAddr, s.cfg.aFilter, x ||| 0x60#8) ∧
      readsOf new = List.replicate 10 (s.cfg.devAddr, s.cfg.aFilter) ∧
      t.dev.held s.cfg.aFilter = (x ||| 0x60#8) &&& k

/-! ### The machine -/

/-- R90, R95, R98, R172: when the word at a port of an idle block decodes to `i`, the step is `exec i`, with that word
taken: a primitive word at the port to the environment first, else the host's move, where its port exists. The list of
the host's moves and the port for single primitives are the model's choices (log entries 17 and 19). -/
def Obligations.StepRunsTheDecodedInstruction : Prop :=
  ∀ (s : State) (i : Instr), s.idle = true →
    (∀ w, s.busPort = some w → decode (.busp w) = .ok i → step s = exec i { s with busPort := none }) ∧
    (∀ m rest r, s.busPort = none → s.inbox = m :: rest → portOpen s.cfg m = true → m.word = some r →
      decode r = .ok i → step s = exec i { s with inbox := rest })

/-- R90, R230: an idle block with nothing presented stays as it is and issues nothing. -/
def Obligations.IdleBlockWaits : Prop :=
  ∀ s : State, s.idle = true → s.busPort = none → s.inbox = [] → step s = .next s

/-- R3, R249: `HOST` never reaches the bus except through the block. No step puts a word on the port to the environment,
and where the engine is not exposed, whatever the host does, the primitives an idle block issues in a step are at
`DEV_ADDR` and at one of the seven registers. (The history is empty after a renewal of the handle.) -/
def Obligations.HostReachesTheBusOnlyThroughTheBlock : Prop :=
  ∀ s t : State, s.busPort = none → step s = .next t → t.busPort = none ∧
    (s.idle = true → s.cfg.exposeEngine = false → t.history = [] ∨
      ∃ new, t.history = s.history ++ new ∧ ∀ p ∈ placesOf new, p.1 = s.cfg.devAddr ∧ p.2 ∈ s.cfg.addresses)

/-- R90, R172, R240: while a command or a call is in progress no word is accepted: what is presented stays presented,
and no acceptance enters the history. -/
def Obligations.BusyBlockAcceptsNothing : Prop :=
  ∀ s t : State, s.idle = false → step s = .next t → t.inbox = s.inbox ∧ t.busPort = s.busPort ∧
    ∃ new, t.history = s.history ++ new ∧ ∀ op arg, Event.accepted op arg ∉ new

/-- R206: when the engine delivers the error to a busy sequencer, the step writes the result with the error, the command
and the step, completes the command, and issues nothing; the device is not touched. -/
def Obligations.ErrorEntry : Prop :=
  ∀ (s : State) (g : Byte) (c : Code), s.seq.busy = true → s.eng.phase = .done → s.eng.rsp = some (.err g c) →
    ∃ t, step s = .next t ∧ t.idle = true ∧
      t.res = ⟨true, true, none, some g, some c, some s.seq.op, some s.seq.step⟩ ∧
      t.seq = { s.seq with busy := false } ∧ t.dev = s.dev ∧ t.env = s.env ∧
      t.history = s.history ++ [.completed s.seq.op true]

/-- R172, R173 (T10): when the engine delivers `Ok(b)` to a busy sequencer, the step completes the command with `Ret` of
that byte if it was the last step, and else goes on to the next step; it issues nothing and the device is not touched. -/
def Obligations.SequencerTakesOk : Prop :=
  ∀ (s : State) (b : Byte), s.seq.busy = true → s.eng.phase = .done → s.eng.rsp = some (.ok b) →
    ∃ t, step s = .next t ∧ t.eng = { s.eng with phase := .idle } ∧ t.dev = s.dev ∧ t.env = s.env ∧
      if s.seq.step.toNat = microLen s.seq.op then
        t.idle = true ∧ t.seq = { s.seq with busy := false } ∧
          t.res = ⟨true, false, ret s.seq.op b, none, none, none, none⟩ ∧
          t.history = s.history ++ [.completed s.seq.op false]
      else t.seq = { s.seq with step := s.seq.step + 1#3 } ∧ t.res = s.res ∧ t.history = s.history

/-- R240, U1: handed to a block that is not idle, every instruction is refused by that name. That this is a refusal is
the model's choice (log entry 10). -/
def Obligations.NothingRunsUnlessIdle : Prop :=
  ∀ (i : Instr) (s : State), s.idle = false → exec i s = .refused .notIdle

/-- R3, R6, D5: an engine request from outside is refused where the instantiation does not expose the engine. The name
of the refusal is the model's choice (log entry 12). -/
def Obligations.EngineHiddenUnlessExposed : Prop :=
  ∀ (s : State) (w : BitVec 18) (rest : List HostMove), s.idle = true → s.busPort = none → s.inbox = .xreq w :: rest →
    s.cfg.exposeEngine = false → step s = .refused .engineNotExposed

/-- R55, R57, R6: what the spec gives the machine right after reset: idle, no valid result, no code, an empty history,
pairwise distinct addresses; nothing is issued. That nothing is presented at reset is the model's choice (log entry
17). -/
def Obligations.ResetState : Prop :=
  State.reset.seq.busy = false ∧ State.reset.eng.phase = .idle ∧ State.reset.res.valid = false ∧
    State.reset.eng.lastCode = none ∧ State.reset.history = [] ∧ State.reset.cfg.Distinct ∧
    step State.reset = .next State.reset

/-- R230, R231, R56: the renewal of the handle brings every field of the block to its reset value, empties the history,
and keeps nothing known of the device: its contents, the hold, the ramp and the outputs are those of a new lifetime's
draws, at an index not used before. The parameters stay. The reset values the spec does not give, and the one request
that stands for the renewal, are the model's choices (log entries 1, 2 and 16). -/
def Obligations.RebindResetsTheBlock : Prop :=
  ∀ (s : State) (rest : List HostMove), s.idle = true → s.busPort = none → s.inbox = .rebind :: rest →
    ∃ t, step s = .next t ∧ t.seq = State.reset.seq ∧ t.eng = State.reset.eng ∧ t.res = State.reset.res ∧
      t.history = [] ∧ t.dev = Device.atReset (s.dev.epoch + 1) ∧ t.cfg = s.cfg ∧ t.inbox = rest ∧ t.busPort = none

/-- R100, R29: the packed result word: `valid`, `status`, and each field that holds a value, at its place. The bit numbers
and the error code beside the word are the model's choice, since R100 packs `err_code`, whose width is open, at the low
end (log entry 24). -/
def Obligations.ResultWordLayout : Prop :=
  ∀ s : State, (resWord s).1.getLsbD 23 = s.res.valid ∧ (resWord s).1.getLsbD 22 = s.res.status ∧
    (∀ op, s.res.errOp = some op → (resWord s).1.extractLsb' 19 3 = op.code) ∧
    (∀ k, s.res.errStep = some k → (resWord s).1.extractLsb' 16 3 = k) ∧
    (∀ g, s.res.errReg = some g → (resWord s).1.extractLsb' 8 8 = g) ∧
    (∀ b, s.res.value = some b → (resWord s).1.extractLsb' 0 8 = b) ∧
    (∀ c, s.res.errCode = some c → (resWord s).2 = c)

/-- R6, R62, R75: no step changes a parameter: nothing that is read from or written to the bus can change what the
block does next otherwise than through the answers. -/
def Obligations.ParametersAreConstant : Prop := ∀ s t : State, step s = .next t → t.cfg = s.cfg

/-- The invariant holds right after reset; its clauses on the fields the spec gives no reset value rest on the model's
values (log entry 1). -/
def Obligations.InvariantAtReset : Prop := BlockInv State.reset

/-- Every step, from every state, keeps the invariant: the ranges of R23 and R25, the engine's control state (R26 to
R28), the shape of the result (R29), the canonical register space (R40), the delay bounds (R7). -/
def Obligations.StepKeepsInvariant : Prop := ∀ s t : State, BlockInv s → step s = .next t → BlockInv t

/-- Under the invariant a step never stops for want of a rule (R142, R173): only a silent transport faults. -/
def Obligations.OnlySilenceFaults : Prop :=
  ∀ (s : State) (f : Fault), BlockInv s → step s = .fault f → f = .envSilent ∧ s.env = .told []
end

