-- ==== Sys2Proof/Laws/State.lean ====
section
/-! SUPPORT. What each state update does to each field, so that no proof unfolds a record update. -/

namespace Sys2Proof.Machine

/-! `flagsAtAccept` -/

@[simp] theorem flagsAtAccept_cfg (s : State) : (flagsAtAccept s).cfg = s.cfg := rfl
@[simp] theorem flagsAtAccept_seq (s : State) : (flagsAtAccept s).seq = { s.seq with busy := true } := rfl
@[simp] theorem flagsAtAccept_eng (s : State) : (flagsAtAccept s).eng = s.eng := rfl
@[simp] theorem flagsAtAccept_res (s : State) : (flagsAtAccept s).res = { s.res with valid := false } := rfl
@[simp] theorem flagsAtAccept_env (s : State) : (flagsAtAccept s).env = s.env := rfl
@[simp] theorem flagsAtAccept_dev (s : State) : (flagsAtAccept s).dev = s.dev := rfl
@[simp] theorem flagsAtAccept_draws (s : State) : (flagsAtAccept s).draws = s.draws := rfl
@[simp] theorem flagsAtAccept_history (s : State) : (flagsAtAccept s).history = s.history := rfl
@[simp] theorem flagsAtAccept_delays (s : State) : (flagsAtAccept s).delays = s.delays := rfl
@[simp] theorem flagsAtAccept_inbox (s : State) : (flagsAtAccept s).inbox = s.inbox := rfl
@[simp] theorem flagsAtAccept_busPort (s : State) : (flagsAtAccept s).busPort = s.busPort := rfl

/-! `flagsAtCompletion` -/

@[simp] theorem flagsAtCompletion_cfg (b : Bool) (s : State) : (flagsAtCompletion b s).cfg = s.cfg := rfl
@[simp] theorem flagsAtCompletion_seq (b : Bool) (s : State) : (flagsAtCompletion b s).seq = { s.seq with busy := false } := rfl
@[simp] theorem flagsAtCompletion_eng (b : Bool) (s : State) : (flagsAtCompletion b s).eng = s.eng := rfl
@[simp] theorem flagsAtCompletion_res (b : Bool) (s : State) : (flagsAtCompletion b s).res = { s.res with valid := true, status := b } := rfl
@[simp] theorem flagsAtCompletion_env (b : Bool) (s : State) : (flagsAtCompletion b s).env = s.env := rfl
@[simp] theorem flagsAtCompletion_dev (b : Bool) (s : State) : (flagsAtCompletion b s).dev = s.dev := rfl
@[simp] theorem flagsAtCompletion_draws (b : Bool) (s : State) : (flagsAtCompletion b s).draws = s.draws := rfl
@[simp] theorem flagsAtCompletion_history (b : Bool) (s : State) : (flagsAtCompletion b s).history = s.history := rfl
@[simp] theorem flagsAtCompletion_delays (b : Bool) (s : State) : (flagsAtCompletion b s).delays = s.delays := rfl
@[simp] theorem flagsAtCompletion_inbox (b : Bool) (s : State) : (flagsAtCompletion b s).inbox = s.inbox := rfl
@[simp] theorem flagsAtCompletion_busPort (b : Bool) (s : State) : (flagsAtCompletion b s).busPort = s.busPort := rfl

/-! `delay` -/

@[simp] theorem delay_cfg (k : DelayKind) (s : State) : (delay k s).cfg = s.cfg := rfl
@[simp] theorem delay_seq (k : DelayKind) (s : State) : (delay k s).seq = s.seq := rfl
@[simp] theorem delay_eng (k : DelayKind) (s : State) : (delay k s).eng = s.eng := rfl
@[simp] theorem delay_res (k : DelayKind) (s : State) : (delay k s).res = s.res := rfl
@[simp] theorem delay_env (k : DelayKind) (s : State) : (delay k s).env = s.env := rfl
@[simp] theorem delay_dev (k : DelayKind) (s : State) : (delay k s).dev = { s.dev with settling := false, ramp := s.dev.ramp && Config.rampGoesOn s.draws } := rfl
@[simp] theorem delay_draws (k : DelayKind) (s : State) : (delay k s).draws = s.draws + 1 := rfl
@[simp] theorem delay_history (k : DelayKind) (s : State) : (delay k s).history = s.history := rfl
@[simp] theorem delay_delays (k : DelayKind) (s : State) : (delay k s).delays = s.delays ++ [⟨k, delayMicros k s.draws⟩] := rfl
@[simp] theorem delay_inbox (k : DelayKind) (s : State) : (delay k s).inbox = s.inbox := rfl
@[simp] theorem delay_busPort (k : DelayKind) (s : State) : (delay k s).busPort = s.busPort := rfl

/-! `logEvent` -/

@[simp] theorem logEvent_cfg (v : Option Byte) (s : State) : (logEvent v s).cfg = s.cfg := rfl
@[simp] theorem logEvent_seq (v : Option Byte) (s : State) : (logEvent v s).seq = s.seq := rfl
@[simp] theorem logEvent_eng (v : Option Byte) (s : State) : (logEvent v s).eng = s.eng := rfl
@[simp] theorem logEvent_res (v : Option Byte) (s : State) : (logEvent v s).res = s.res := rfl
@[simp] theorem logEvent_env (v : Option Byte) (s : State) : (logEvent v s).env = s.env := rfl
@[simp] theorem logEvent_dev (v : Option Byte) (s : State) : (logEvent v s).dev = s.dev := rfl
@[simp] theorem logEvent_draws (v : Option Byte) (s : State) : (logEvent v s).draws = s.draws := rfl
@[simp] theorem logEvent_history (v : Option Byte) (s : State) : (logEvent v s).history = s.history ++ [.log s.eng.attempt s.eng.reg v] := rfl
@[simp] theorem logEvent_delays (v : Option Byte) (s : State) : (logEvent v s).delays = s.delays := rfl
@[simp] theorem logEvent_inbox (v : Option Byte) (s : State) : (logEvent v s).inbox = s.inbox := rfl
@[simp] theorem logEvent_busPort (v : Option Byte) (s : State) : (logEvent v s).busPort = s.busPort := rfl

/-! `respond` -/

@[simp] theorem respond_cfg (r : XRsp) (s : State) : (respond r s).cfg = s.cfg := rfl
@[simp] theorem respond_seq (r : XRsp) (s : State) : (respond r s).seq = s.seq := rfl
@[simp] theorem respond_eng (r : XRsp) (s : State) : (respond r s).eng = { s.eng with rsp := some r, phase := .done } := rfl
@[simp] theorem respond_res (r : XRsp) (s : State) : (respond r s).res = s.res := rfl
@[simp] theorem respond_env (r : XRsp) (s : State) : (respond r s).env = s.env := rfl
@[simp] theorem respond_dev (r : XRsp) (s : State) : (respond r s).dev = s.dev := rfl
@[simp] theorem respond_draws (r : XRsp) (s : State) : (respond r s).draws = s.draws := rfl
@[simp] theorem respond_history (r : XRsp) (s : State) : (respond r s).history = s.history := rfl
@[simp] theorem respond_delays (r : XRsp) (s : State) : (respond r s).delays = s.delays := rfl
@[simp] theorem respond_inbox (r : XRsp) (s : State) : (respond r s).inbox = s.inbox := rfl
@[simp] theorem respond_busPort (r : XRsp) (s : State) : (respond r s).busPort = s.busPort := rfl

/-! `raiseIoError` -/

@[simp] theorem raiseIoError_cfg (c : Code) (s : State) : (raiseIoError c s).cfg = s.cfg := rfl
@[simp] theorem raiseIoError_seq (c : Code) (s : State) : (raiseIoError c s).seq = s.seq := rfl
@[simp] theorem raiseIoError_eng (c : Code) (s : State) : (raiseIoError c s).eng = { s.eng with rsp := some (.err s.eng.reg c), phase := .done } := rfl
@[simp] theorem raiseIoError_res (c : Code) (s : State) : (raiseIoError c s).res = s.res := rfl
@[simp] theorem raiseIoError_env (c : Code) (s : State) : (raiseIoError c s).env = s.env := rfl
@[simp] theorem raiseIoError_dev (c : Code) (s : State) : (raiseIoError c s).dev = s.dev := rfl
@[simp] theorem raiseIoError_draws (c : Code) (s : State) : (raiseIoError c s).draws = s.draws := rfl
@[simp] theorem raiseIoError_history (c : Code) (s : State) : (raiseIoError c s).history = s.history := rfl
@[simp] theorem raiseIoError_delays (c : Code) (s : State) : (raiseIoError c s).delays = s.delays := rfl
@[simp] theorem raiseIoError_inbox (c : Code) (s : State) : (raiseIoError c s).inbox = s.inbox := rfl
@[simp] theorem raiseIoError_busPort (c : Code) (s : State) : (raiseIoError c s).busPort = s.busPort := rfl

/-! `errorEntry` -/

@[simp] theorem errorEntry_cfg (g : Byte) (c : Code) (s : State) : (errorEntry g c s).cfg = s.cfg := rfl
@[simp] theorem errorEntry_seq (g : Byte) (c : Code) (s : State) : (errorEntry g c s).seq = { s.seq with busy := false } := rfl
@[simp] theorem errorEntry_eng (g : Byte) (c : Code) (s : State) : (errorEntry g c s).eng = s.eng := rfl
@[simp] theorem errorEntry_res (g : Byte) (c : Code) (s : State) : (errorEntry g c s).res = ⟨true, true, none, some g, some c, some s.seq.op, some s.seq.step⟩ := rfl
@[simp] theorem errorEntry_env (g : Byte) (c : Code) (s : State) : (errorEntry g c s).env = s.env := rfl
@[simp] theorem errorEntry_dev (g : Byte) (c : Code) (s : State) : (errorEntry g c s).dev = s.dev := rfl
@[simp] theorem errorEntry_draws (g : Byte) (c : Code) (s : State) : (errorEntry g c s).draws = s.draws := rfl
@[simp] theorem errorEntry_history (g : Byte) (c : Code) (s : State) : (errorEntry g c s).history = s.history ++ [.completed s.seq.op true] := rfl
@[simp] theorem errorEntry_delays (g : Byte) (c : Code) (s : State) : (errorEntry g c s).delays = s.delays := rfl
@[simp] theorem errorEntry_inbox (g : Byte) (c : Code) (s : State) : (errorEntry g c s).inbox = s.inbox := rfl
@[simp] theorem errorEntry_busPort (g : Byte) (c : Code) (s : State) : (errorEntry g c s).busPort = s.busPort := rfl

/-! `engLatch` -/

@[simp] theorem engLatch_cfg (r : XReq) (s : State) : (engLatch r s).cfg = s.cfg := rfl
@[simp] theorem engLatch_seq (r : XReq) (s : State) : (engLatch r s).seq = s.seq := rfl
@[simp] theorem engLatch_eng (r : XReq) (s : State) : (engLatch r s).eng = ⟨r.reg, r.val, r.isWrite, r.verify, 1#4, .primary, s.eng.prim, none, none⟩ := rfl
@[simp] theorem engLatch_res (r : XReq) (s : State) : (engLatch r s).res = s.res := rfl
@[simp] theorem engLatch_env (r : XReq) (s : State) : (engLatch r s).env = s.env := rfl
@[simp] theorem engLatch_dev (r : XReq) (s : State) : (engLatch r s).dev = s.dev := rfl
@[simp] theorem engLatch_draws (r : XReq) (s : State) : (engLatch r s).draws = s.draws := rfl
@[simp] theorem engLatch_history (r : XReq) (s : State) : (engLatch r s).history = s.history := rfl
@[simp] theorem engLatch_delays (r : XReq) (s : State) : (engLatch r s).delays = s.delays := rfl
@[simp] theorem engLatch_inbox (r : XReq) (s : State) : (engLatch r s).inbox = s.inbox := rfl
@[simp] theorem engLatch_busPort (r : XReq) (s : State) : (engLatch r s).busPort = s.busPort := rfl

/-! `enterReadback` -/

@[simp] theorem enterReadback_cfg (s : State) : (enterReadback s).cfg = s.cfg := rfl
@[simp] theorem enterReadback_seq (s : State) : (enterReadback s).seq = s.seq := rfl
@[simp] theorem enterReadback_eng (s : State) : (enterReadback s).eng = { s.eng with phase := .readback } := rfl
@[simp] theorem enterReadback_res (s : State) : (enterReadback s).res = s.res := rfl
@[simp] theorem enterReadback_env (s : State) : (enterReadback s).env = s.env := rfl
@[simp] theorem enterReadback_dev (s : State) : (enterReadback s).dev = s.dev := rfl
@[simp] theorem enterReadback_draws (s : State) : (enterReadback s).draws = s.draws := rfl
@[simp] theorem enterReadback_history (s : State) : (enterReadback s).history = s.history := rfl
@[simp] theorem enterReadback_delays (s : State) : (enterReadback s).delays = s.delays := rfl
@[simp] theorem enterReadback_inbox (s : State) : (enterReadback s).inbox = s.inbox := rfl
@[simp] theorem enterReadback_busPort (s : State) : (enterReadback s).busPort = s.busPort := rfl

/-! `succeed` -/

@[simp] theorem succeed_cfg (b : Byte) (s : State) : (succeed b s).cfg = s.cfg := rfl
@[simp] theorem succeed_seq (b : Byte) (s : State) : (succeed b s).seq = s.seq := rfl
@[simp] theorem succeed_eng (b : Byte) (s : State) : (succeed b s).eng = { s.eng with rsp := some (.ok b), phase := .done } := rfl
@[simp] theorem succeed_res (b : Byte) (s : State) : (succeed b s).res = s.res := rfl
@[simp] theorem succeed_env (b : Byte) (s : State) : (succeed b s).env = s.env := rfl
@[simp] theorem succeed_dev (b : Byte) (s : State) : (succeed b s).dev = s.dev := rfl
@[simp] theorem succeed_draws (b : Byte) (s : State) : (succeed b s).draws = s.draws := rfl
@[simp] theorem succeed_history (b : Byte) (s : State) : (succeed b s).history = s.history ++ [.log s.eng.attempt s.eng.reg (some b)] := rfl
@[simp] theorem succeed_delays (b : Byte) (s : State) : (succeed b s).delays = s.delays := rfl
@[simp] theorem succeed_inbox (b : Byte) (s : State) : (succeed b s).inbox = s.inbox := rfl
@[simp] theorem succeed_busPort (b : Byte) (s : State) : (succeed b s).busPort = s.busPort := rfl

/-! `nextAttempt` -/

@[simp] theorem nextAttempt_cfg (s : State) : (nextAttempt s).cfg = s.cfg := rfl
@[simp] theorem nextAttempt_seq (s : State) : (nextAttempt s).seq = s.seq := rfl
@[simp] theorem nextAttempt_eng (s : State) : (nextAttempt s).eng = { s.eng with attempt := s.eng.attempt + 1#4, phase := .primary } := rfl
@[simp] theorem nextAttempt_res (s : State) : (nextAttempt s).res = s.res := rfl
@[simp] theorem nextAttempt_env (s : State) : (nextAttempt s).env = s.env := rfl
@[simp] theorem nextAttempt_dev (s : State) : (nextAttempt s).dev = { s.dev with settling := false, ramp := s.dev.ramp && Config.rampGoesOn s.draws } := rfl
@[simp] theorem nextAttempt_draws (s : State) : (nextAttempt s).draws = s.draws + 1 := rfl
@[simp] theorem nextAttempt_history (s : State) : (nextAttempt s).history = s.history := rfl
@[simp] theorem nextAttempt_delays (s : State) : (nextAttempt s).delays = s.delays ++ [⟨.backoff, delayMicros .backoff s.draws⟩] := rfl
@[simp] theorem nextAttempt_inbox (s : State) : (nextAttempt s).inbox = s.inbox := rfl
@[simp] theorem nextAttempt_busPort (s : State) : (nextAttempt s).busPort = s.busPort := rfl

/-! `engRelease` -/

@[simp] theorem engRelease_cfg (s : State) : (engRelease s).cfg = s.cfg := rfl
@[simp] theorem engRelease_seq (s : State) : (engRelease s).seq = s.seq := rfl
@[simp] theorem engRelease_eng (s : State) : (engRelease s).eng = { s.eng with phase := .idle } := rfl
@[simp] theorem engRelease_res (s : State) : (engRelease s).res = s.res := rfl
@[simp] theorem engRelease_env (s : State) : (engRelease s).env = s.env := rfl
@[simp] theorem engRelease_dev (s : State) : (engRelease s).dev = s.dev := rfl
@[simp] theorem engRelease_draws (s : State) : (engRelease s).draws = s.draws := rfl
@[simp] theorem engRelease_history (s : State) : (engRelease s).history = s.history := rfl
@[simp] theorem engRelease_delays (s : State) : (engRelease s).delays = s.delays := rfl
@[simp] theorem engRelease_inbox (s : State) : (engRelease s).inbox = s.inbox := rfl
@[simp] theorem engRelease_busPort (s : State) : (engRelease s).busPort = s.busPort := rfl

/-! `accept` -/

@[simp] theorem accept_cfg (op : Op) (a : Byte) (s : State) : (accept op a s).cfg = s.cfg := rfl
@[simp] theorem accept_seq (op : Op) (a : Byte) (s : State) : (accept op a s).seq = ⟨true, op, a, 1#3⟩ := rfl
@[simp] theorem accept_eng (op : Op) (a : Byte) (s : State) : (accept op a s).eng = s.eng := rfl
@[simp] theorem accept_res (op : Op) (a : Byte) (s : State) : (accept op a s).res = { s.res with valid := false } := rfl
@[simp] theorem accept_env (op : Op) (a : Byte) (s : State) : (accept op a s).env = s.env := rfl
@[simp] theorem accept_dev (op : Op) (a : Byte) (s : State) : (accept op a s).dev = s.dev := rfl
@[simp] theorem accept_draws (op : Op) (a : Byte) (s : State) : (accept op a s).draws = s.draws := rfl
@[simp] theorem accept_history (op : Op) (a : Byte) (s : State) : (accept op a s).history = s.history ++ [.accepted op a] := rfl
@[simp] theorem accept_delays (op : Op) (a : Byte) (s : State) : (accept op a s).delays = s.delays := rfl
@[simp] theorem accept_inbox (op : Op) (a : Byte) (s : State) : (accept op a s).inbox = s.inbox := rfl
@[simp] theorem accept_busPort (op : Op) (a : Byte) (s : State) : (accept op a s).busPort = s.busPort := rfl

/-! `completeOk` -/

@[simp] theorem completeOk_cfg (b : Byte) (s : State) : (completeOk b s).cfg = s.cfg := rfl
@[simp] theorem completeOk_seq (b : Byte) (s : State) : (completeOk b s).seq = { s.seq with busy := false } := rfl
@[simp] theorem completeOk_eng (b : Byte) (s : State) : (completeOk b s).eng = s.eng := rfl
@[simp] theorem completeOk_res (b : Byte) (s : State) : (completeOk b s).res = ⟨true, false, ret s.seq.op b, none, none, none, none⟩ := rfl
@[simp] theorem completeOk_env (b : Byte) (s : State) : (completeOk b s).env = s.env := rfl
@[simp] theorem completeOk_dev (b : Byte) (s : State) : (completeOk b s).dev = s.dev := rfl
@[simp] theorem completeOk_draws (b : Byte) (s : State) : (completeOk b s).draws = s.draws := rfl
@[simp] theorem completeOk_history (b : Byte) (s : State) : (completeOk b s).history = s.history ++ [.completed s.seq.op false] := rfl
@[simp] theorem completeOk_delays (b : Byte) (s : State) : (completeOk b s).delays = s.delays := rfl
@[simp] theorem completeOk_inbox (b : Byte) (s : State) : (completeOk b s).inbox = s.inbox := rfl
@[simp] theorem completeOk_busPort (b : Byte) (s : State) : (completeOk b s).busPort = s.busPort := rfl

/-! `rebind` -/

@[simp] theorem rebind_cfg (s : State) : (rebind s).cfg = s.cfg := rfl
@[simp] theorem rebind_seq (s : State) : (rebind s).seq = .reset := rfl
@[simp] theorem rebind_eng (s : State) : (rebind s).eng = .reset := rfl
@[simp] theorem rebind_res (s : State) : (rebind s).res = .reset := rfl
@[simp] theorem rebind_env (s : State) : (rebind s).env = s.env := rfl
@[simp] theorem rebind_dev (s : State) : (rebind s).dev = .atReset (s.dev.epoch + 1) := rfl
@[simp] theorem rebind_draws (s : State) : (rebind s).draws = s.draws := rfl
@[simp] theorem rebind_history (s : State) : (rebind s).history = [] := rfl
@[simp] theorem rebind_delays (s : State) : (rebind s).delays = [] := rfl
@[simp] theorem rebind_inbox (s : State) : (rebind s).inbox = s.inbox := rfl
@[simp] theorem rebind_busPort (s : State) : (rebind s).busPort = s.busPort := rfl

/-! `present` -/

@[simp] theorem present_seq (r : Request) (s : State) : (present r s).seq = { s.seq with busy := false } := rfl
@[simp] theorem present_eng (r : Request) (s : State) : (present r s).eng = { s.eng with phase := .idle } := rfl
@[simp] theorem present_res (r : Request) (s : State) : (present r s).res = s.res := rfl
@[simp] theorem present_env (r : Request) (s : State) : (present r s).env = s.env := rfl
@[simp] theorem present_dev (r : Request) (s : State) : (present r s).dev = s.dev := rfl
@[simp] theorem present_draws (r : Request) (s : State) : (present r s).draws = s.draws := rfl
@[simp] theorem present_history (r : Request) (s : State) : (present r s).history = s.history := rfl
@[simp] theorem present_delays (r : Request) (s : State) : (present r s).delays = s.delays := rfl
@[simp] theorem present_inbox (r : Request) (s : State) : (present r s).inbox = r.hostMove.toList ++ s.inbox := rfl
@[simp] theorem present_busPort (r : Request) (s : State) : (present r s).busPort = r.busWord := rfl

/-! `failIteration`, which branches on the attempts left -/

@[simp] theorem failIteration_cfg (c : Code) (s : State) : (failIteration c s).cfg = s.cfg := by
  unfold failIteration; split <;> rfl
@[simp] theorem failIteration_seq (c : Code) (s : State) : (failIteration c s).seq = s.seq := by
  unfold failIteration; split <;> rfl
@[simp] theorem failIteration_res (c : Code) (s : State) : (failIteration c s).res = s.res := by
  unfold failIteration; split <;> rfl
@[simp] theorem failIteration_env (c : Code) (s : State) : (failIteration c s).env = s.env := by
  unfold failIteration; split <;> rfl
@[simp] theorem failIteration_dev (c : Code) (s : State) : (failIteration c s).dev = s.dev := by
  unfold failIteration; split <;> rfl
@[simp] theorem failIteration_draws (c : Code) (s : State) : (failIteration c s).draws = s.draws := by
  unfold failIteration; split <;> rfl
@[simp] theorem failIteration_delays (c : Code) (s : State) : (failIteration c s).delays = s.delays := by
  unfold failIteration; split <;> rfl
@[simp] theorem failIteration_busPort (c : Code) (s : State) : (failIteration c s).busPort = s.busPort := by
  unfold failIteration; split <;> rfl
@[simp] theorem failIteration_inbox (c : Code) (s : State) : (failIteration c s).inbox = s.inbox := by
  unfold failIteration; split <;> rfl
@[simp] theorem failIteration_history (c : Code) (s : State) : (failIteration c s).history =
    s.history ++ [.log s.eng.attempt s.eng.reg (if s.eng.isWrite then some s.eng.val else none)] := by
  unfold failIteration; split <;> rfl

/-- The engine after a failed iteration with attempts left. -/
theorem failIteration_eng_again (c : Code) (s : State) (h : attemptsLeft s = true) :
    (failIteration c s).eng = { s.eng with lastCode := some c, phase := .backoff } := by
  rw [failIteration, if_pos h]; rfl

/-- The engine after the last failed iteration. -/
theorem failIteration_eng_ended (c : Code) (s : State) (h : attemptsLeft s = false) :
    (failIteration c s).eng = { s.eng with lastCode := some c, rsp := some (.err s.eng.reg c), phase := .done } := by
  rw [failIteration, if_neg (by simp [h])]; rfl

end Sys2Proof.Machine
end

