-- ==== Sys2Proof/Laws/Memory.lean ====
section
/-! SUPPORT. The laws of the register space: a read after a write, the canonical form, and the device's contents
after a store. -/

namespace Sys2Proof.Machine

theorem memory_read_write_same (m : Memory) (a : Nat) (b : Byte) : (m.write a b).read a = some b := by
  induction m with
  | nil => simp [Memory.write, Memory.read]
  | cons e rest ih =>
    obtain ⟨k, v⟩ := e
    simp only [Memory.write]
    split
    · simp [Memory.read]
    · split
      · simp [Memory.read]
      · simp only [Memory.read, ih]
        split <;> simp_all

theorem memory_read_write_other (m : Memory) {a a' : Nat} (b : Byte) (h : a' ≠ a) :
    (m.write a b).read a' = m.read a' := by
  induction m with
  | nil => simp [Memory.write, Memory.read, Ne.symm h]
  | cons e rest ih =>
    obtain ⟨k, v⟩ := e
    simp only [Memory.write]
    split
    · simp [Memory.read, Ne.symm h]
    · split
      · subst_vars; simp [Memory.read, Ne.symm h]
      · simp only [Memory.read, ih]

/-- A write keeps the canonical form above any bound below its address. -/
theorem memory_wfFrom_write (m : Memory) {a : Nat} (b : Byte) (ha : a < 256) :
    ∀ lo : Option Nat, (lo.all (· < a)) = true → m.wfFrom lo = true → (m.write a b).wfFrom lo = true := by
  induction m with
  | nil => intro lo hlo _; simp [Memory.write, Memory.wfFrom, hlo, ha]
  | cons e rest ih =>
    obtain ⟨k, v⟩ := e
    intro lo hlo h
    simp only [Memory.wfFrom, Bool.and_eq_true] at h
    obtain ⟨⟨h1, h2⟩, h3⟩ := h
    simp only [Memory.write]
    split
    · rename_i hk
      simp [Memory.wfFrom, hlo, ha, h2, h3, hk]
    · split
      · subst_vars; simp [Memory.wfFrom, hlo, ha, h3]
      · rename_i hk hk'
        have hka : k < a := by omega
        simp only [Memory.wfFrom, h1, h2, Bool.true_and]
        exact ih (some k) (by simpa using hka) h3

/-- Every memory operation keeps the canonical form (the only one that changes memory is the write). -/
theorem memory_write_wf (m : Memory) {a : Nat} (b : Byte) (ha : a < 256) (h : m.wf = true) :
    (m.write a b).wf = true :=
  memory_wfFrom_write m b ha none rfl h

theorem memory_reset_wf (epoch : Nat) : (Device.atReset epoch).mem.wf = true := rfl

@[simp] theorem store_mem (d : Device) (c : Config) (n : Nat) (reg b : Byte) :
    (d.store c n reg b).mem = d.mem.write reg.toNat b := rfl

@[simp] theorem store_epoch (d : Device) (c : Config) (n : Nat) (reg b : Byte) :
    (d.store c n reg b).epoch = d.epoch := rfl

@[simp] theorem store_hold (d : Device) (c : Config) (n : Nat) (reg b : Byte) :
    (d.store c n reg b).hold = holdAfterStore c n reg b d.hold := rfl

/-- Only the contents and the lifetime decide what is held. -/
theorem held_congr {d d' : Device} (hm : d'.mem = d.mem) (he : d'.epoch = d.epoch) (r : Byte) :
    d'.held r = d.held r := by
  simp only [Device.held, hm, he]

@[simp] theorem held_settling (d : Device) (x : Bool) (r : Byte) : ({ d with settling := x } : Device).held r = d.held r :=
  rfl

theorem held_store_same (d : Device) (c : Config) (n : Nat) (reg b : Byte) : (d.store c n reg b).held reg = b := by
  simp [Device.held, memory_read_write_same]

theorem held_store_other (d : Device) (c : Config) (n : Nat) {reg r : Byte} (b : Byte) (h : r ≠ reg) :
    (d.store c n reg b).held r = d.held r := by
  have h' : r.toNat ≠ reg.toNat := fun e => h (BitVec.eq_of_toNat_eq e)
  simp [Device.held, memory_read_write_other _ _ h']

/-- What is held after a store. -/
theorem held_store (d : Device) (c : Config) (n : Nat) (reg b r : Byte) :
    (d.store c n reg b).held r = if r = reg then b else d.held r := by
  split
  · rename_i h; rw [h]; exact held_store_same d c n reg b
  · rename_i h; exact held_store_other d c n b h

/-- The store that releases the hold commits both channels (R73). -/
theorem store_release (d : Device) (c : Config) (n : Nat) :
    (d.store c n c.aVolHold vRelease).hold = false ∧
    (d.store c n c.aVolHold vRelease).outCh1 = (d.store c n c.aVolHold vRelease).held c.aVolCh1 ∧
    (d.store c n c.aVolHold vRelease).outCh2 = (d.store c n c.aVolHold vRelease).held c.aVolCh2 := by
  have h : holdAfterStore c n c.aVolHold vRelease d.hold = false := by simp [holdAfterStore, vHold, vRelease]
  refine ⟨h, ?_, ?_⟩ <;> simp only [Device.store, h] <;> simp [outAfterStore] <;> rfl

/-- The store that engages the hold leaves both outputs (R73). -/
theorem store_engage (d : Device) (c : Config) (n : Nat) :
    (d.store c n c.aVolHold vHold).hold = true ∧ (d.store c n c.aVolHold vHold).outCh1 = d.outCh1 ∧
    (d.store c n c.aVolHold vHold).outCh2 = d.outCh2 := by
  simp [Device.store, holdAfterStore, outAfterStore]

/-- A store to another register while a hold is engaged leaves the hold and both outputs (R73). -/
theorem store_held {d : Device} {c : Config} (n : Nat) {g : Byte} (b : Byte) (h : d.hold = true) (hg : g ≠ c.aVolHold) :
    (d.store c n g b).hold = true ∧ (d.store c n g b).outCh1 = d.outCh1 ∧ (d.store c n g b).outCh2 = d.outCh2 := by
  simp [Device.store, holdAfterStore, outAfterStore, h, hg]

theorem powerDown_wf (d : Device) (reg b : Byte) : (d.powerDown reg b).mem.wf = true := by
  simp [Device.powerDown, Memory.wf, Memory.wfFrom, reg.isLt]

/-- A device that is disabled without a promise still holds the byte it took. -/
theorem held_powerDown_same (d : Device) (reg b : Byte) : (d.powerDown reg b).held reg = b := by
  simp [Device.held, Device.powerDown, Memory.read]

end Sys2Proof.Machine
end

