-- ==== Sys2Proof/Laws/Bus.lean ====
section
/-! SUPPORT. Everything a bus primitive can do: one lemma per primitive for any environment, and its closed form in
the reference environment E1. -/

namespace Sys2Proof.Machine

/-- Everything `busWrite` can do. The registers other than the one written keep their contents, and at another bus
address all of them do. -/
theorem busWrite_spec {addr : Addr7} {reg val : Byte} {s t : State} {a : WriteAnswer}
    (h : busWrite addr reg val s = some (a, t)) :
    ∃ turn env, envAnswer s addr (.write reg val) = some (turn, env) ∧ a = writeAnswerOf turn ∧
      t = { s with
        env := env
        dev := deviceAfterWrite s addr reg val turn
        draws := s.draws + 1
        history := s.history ++ [.busWrite addr reg val a] } := by
  unfold busWrite at h
  split at h
  · cases h
  · rename_i turn env he
    simp only [Option.some.injEq, Prod.mk.injEq] at h
    obtain ⟨rfl, rfl⟩ := h
    exact ⟨turn, env, he, rfl, rfl⟩

/-- Everything `busRead` can do. -/
theorem busRead_spec {addr : Addr7} {reg : Byte} {s t : State} {a : ReadAnswer}
    (h : busRead addr reg s = some (a, t)) :
    ∃ turn env, envAnswer s addr (.read reg) = some (turn, env) ∧ a = readAnswerOf turn ∧
      t = { s with
        env := env
        dev := if addr = s.cfg.devAddr then { s.dev with settling := true } else s.dev
        draws := s.draws + 1
        history := s.history ++ [.busRead addr reg a] } := by
  unfold busRead at h
  split at h
  · cases h
  · rename_i turn env he
    simp only [Option.some.injEq, Prod.mk.injEq] at h
    obtain ⟨rfl, rfl⟩ := h
    exact ⟨turn, env, he, rfl, rfl⟩

/-- `busWrite` from the turn it is given. -/
theorem busWrite_of_turn {s : State} {addr : Addr7} {g v : Byte} {turn : Turn} {e : Env}
    (h : envAnswer s addr (.write g v) = some (turn, e)) :
    busWrite addr g v s = some (writeAnswerOf turn, { s with
      env := e
      dev := deviceAfterWrite s addr g v turn
      draws := s.draws + 1
      history := s.history ++ [.busWrite addr g v (writeAnswerOf turn)] }) := by
  simp [busWrite, h]

/-- `busRead` from the turn it is given. -/
theorem busRead_of_turn {s : State} {addr : Addr7} {g : Byte} {turn : Turn} {e : Env}
    (h : envAnswer s addr (.read g) = some (turn, e)) :
    busRead addr g s = some (readAnswerOf turn, { s with
      env := e
      dev := if addr = s.cfg.devAddr then { s.dev with settling := true } else s.dev
      draws := s.draws + 1
      history := s.history ++ [.busRead addr g (readAnswerOf turn)] }) := by
  simp [busRead, h]

/-- What keeps the device's other registers through a write to `reg`: the environment's promise, or that the write cannot
disable the device. -/
theorem losesRegisters_eq_false {s : State} {reg : Byte} (h : s.env.retains = true ∨ reg ≠ s.cfg.aMode) (b : Byte) :
    losesRegisters s reg b = false := by
  obtain h | h := h <;> simp [losesRegisters, h]

/-- Without a loss of registers the device stores the byte. -/
theorem deviceTakes_keeps {s : State} {reg : Byte} (h : s.env.retains = true ∨ reg ≠ s.cfg.aMode) (b : Byte) :
    deviceTakes s reg b = s.dev.store s.cfg s.draws reg b := by
  simp [deviceTakes, losesRegisters_eq_false h]

/-- Whatever else happens, the register written to holds the byte taken. -/
theorem held_deviceTakes_same (s : State) (reg b : Byte) : (deviceTakes s reg b).held reg = b := by
  unfold deviceTakes
  split
  · exact held_powerDown_same _ _ _
  · exact held_store_same _ _ _ _ _

theorem deviceTakes_wf (s : State) (reg b : Byte) (h : s.dev.mem.wf = true) : (deviceTakes s reg b).mem.wf = true := by
  unfold deviceTakes
  split
  · exact powerDown_wf _ _ _
  · exact memory_write_wf _ _ reg.isLt h

/-- What is held after a write to the device. -/
theorem held_afterWrite (s : State) (g v : Byte) (t : Turn) (r : Byte) (hk : s.env.retains = true ∨ g ≠ s.cfg.aMode) :
    (deviceAfterWrite s s.cfg.devAddr g v t).held r = match storedBy t v with
      | some b => if r = g then b else s.dev.held r
      | none => s.dev.held r := by
  unfold deviceAfterWrite
  simp only [if_true]
  cases hx : storedBy t v with
  | none => rfl
  | some b =>
    simp only [deviceTakes_keeps hk, held_settling]
    exact held_store s.dev s.cfg s.draws g b r

/-- A write that stores nothing changes nothing held. -/
theorem held_afterWrite_failed (s : State) (addr : Addr7) (g v : Byte) {t : Turn} (r : Byte) (h : storedBy t v = none) :
    (deviceAfterWrite s addr g v t).held r = s.dev.held r := by
  unfold deviceAfterWrite
  split <;> simp [h]

/-- What the register written to holds afterwards. -/
theorem held_afterWrite_same (s : State) (g v : Byte) (t : Turn) :
    (deviceAfterWrite s s.cfg.devAddr g v t).held g = (storedBy t v).getD (s.dev.held g) := by
  unfold deviceAfterWrite
  simp only [if_true]
  cases hx : storedBy t v with
  | none => rfl
  | some b => exact (held_settling _ _ _).trans (held_deviceTakes_same s g b)

/-- A read changes nothing held. -/
theorem held_afterRead (s : State) (addr : Addr7) (r : Byte) :
    (if addr = s.cfg.devAddr then { s.dev with settling := true } else s.dev : Device).held r = s.dev.held r := by
  split <;> rfl

/-- The other registers after a write. -/
theorem held_afterWrite_other (s : State) (addr : Addr7) {reg : Byte} (val : Byte) (turn : Turn) {r : Byte}
    (hk : s.env.retains = true ∨ reg ≠ s.cfg.aMode) (h : r ≠ reg) :
    (deviceAfterWrite s addr reg val turn).held r = s.dev.held r := by
  by_cases ha : addr = s.cfg.devAddr
  · subst ha
    rw [held_afterWrite _ _ _ _ _ hk]
    split <;> simp [h]
  · simp [deviceAfterWrite, ha]

theorem deviceAfterWrite_wf (s : State) (addr : Addr7) (reg val : Byte) (turn : Turn) (h : s.dev.mem.wf = true) :
    (deviceAfterWrite s addr reg val turn).mem.wf = true := by
  unfold deviceAfterWrite
  split
  · split
    · exact deviceTakes_wf _ _ _ h
    · exact h
  · exact h

/-- Which environment it is does not change, so neither does its promise. -/
theorem envAnswer_retains {s : State} {addr : Addr7} {p : Prim} {turn : Turn} {e : Env}
    (h : envAnswer s addr p = some (turn, e)) : e.retains = s.env.retains := by
  unfold envAnswer at h
  split at h <;> simp_all [Env.retains] <;> obtain ⟨-, rfl⟩ := h <;> rfl

/-- The two primitives answer unless the told answers have run out. -/
theorem envAnswer_isSome (s : State) (addr : Addr7) (p : Prim) (h : s.env.answersAlways = true) :
    ∃ turn env, envAnswer s addr p = some (turn, env) ∧ env.answersAlways = true := by
  unfold envAnswer
  split <;> simp_all [Env.answersAlways]

/-- `busWrite` in E1 (R80). -/
theorem busWrite_e1 {s : State} (h : s.env = .e1) (reg val : Byte) :
    busWrite s.cfg.devAddr reg val s = some (.ok, { s with
      dev := { s.dev.store s.cfg s.draws reg val with settling := true }
      draws := s.draws + 1
      history := s.history ++ [.busWrite s.cfg.devAddr reg val .ok] }) := by
  simp [busWrite, envAnswer, h, verbatimTurn, writeAnswerOf, deviceAfterWrite, storedBy, deviceTakes, losesRegisters,
    Env.retains]

/-- `busRead` in E1 (R80). -/
theorem busRead_e1 {s : State} (h : s.env = .e1) (reg : Byte) :
    busRead s.cfg.devAddr reg s = some (.ok (s.dev.held reg), { s with
      dev := { s.dev with settling := true }
      draws := s.draws + 1
      history := s.history ++ [.busRead s.cfg.devAddr reg (.ok (s.dev.held reg))] }) := by
  simp [busRead, envAnswer, h, verbatimTurn, readAnswerOf]

end Sys2Proof.Machine
end

