-- ==== Sys2Proof/Laws/History.lean ====
section
/-! SUPPORT. What is read off the event history: the parts of an appended stretch, and which events they come from. -/

namespace Sys2Proof.Machine

@[simp] theorem writesOf_append (h g : List Event) : writesOf (h ++ g) = writesOf h ++ writesOf g := by
  induction h with
  | nil => rfl
  | cons e h ih => cases e <;> simp [writesOf, ih]

@[simp] theorem readsOf_append (h g : List Event) : readsOf (h ++ g) = readsOf h ++ readsOf g := by
  induction h with
  | nil => rfl
  | cons e h ih => cases e <;> simp [readsOf, ih]

@[simp] theorem placesOf_append (h g : List Event) : placesOf (h ++ g) = placesOf h ++ placesOf g := by
  induction h with
  | nil => rfl
  | cons e h ih => cases e <;> simp [placesOf, ih]

@[simp] theorem logsOf_append (h g : List Event) : logsOf (h ++ g) = logsOf h + logsOf g := by
  induction h with
  | nil => simp [logsOf]
  | cons e h ih => cases e <;> simp [logsOf, ih]; omega

theorem mem_writesOf {h : List Event} {w : Addr7 × Byte × Byte} (hw : w ∈ writesOf h) :
    ∃ a, Event.busWrite w.1 w.2.1 w.2.2 a ∈ h := by
  induction h with
  | nil => cases hw
  | cons e h ih =>
    cases e <;> simp only [writesOf, List.mem_cons] at hw
    case busWrite addr reg val a =>
      obtain rfl | hw := hw
      · exact ⟨a, List.mem_cons_self⟩
      · obtain ⟨a', h'⟩ := ih hw; exact ⟨a', List.mem_cons_of_mem _ h'⟩
    all_goals obtain ⟨a', h'⟩ := ih hw; exact ⟨a', List.mem_cons_of_mem _ h'⟩

theorem mem_readsOf {h : List Event} {p : Addr7 × Byte} (hp : p ∈ readsOf h) : ∃ a, Event.busRead p.1 p.2 a ∈ h := by
  induction h with
  | nil => cases hp
  | cons e h ih =>
    cases e <;> simp only [readsOf, List.mem_cons] at hp
    case busRead addr reg a =>
      obtain rfl | hp := hp
      · exact ⟨a, List.mem_cons_self⟩
      · obtain ⟨a', h'⟩ := ih hp; exact ⟨a', List.mem_cons_of_mem _ h'⟩
    all_goals obtain ⟨a', h'⟩ := ih hp; exact ⟨a', List.mem_cons_of_mem _ h'⟩

theorem mem_placesOf {h : List Event} {p : Addr7 × Byte} (hp : p ∈ placesOf h) :
    (∃ v a, Event.busWrite p.1 p.2 v a ∈ h) ∨ ∃ a, Event.busRead p.1 p.2 a ∈ h := by
  induction h with
  | nil => cases hp
  | cons e h ih =>
    cases e <;> simp only [placesOf, List.mem_cons] at hp
    case busWrite addr reg val a =>
      obtain rfl | hp := hp
      · exact .inl ⟨val, a, List.mem_cons_self⟩
      · exact (ih hp).imp (fun ⟨v, a, h'⟩ => ⟨v, a, List.mem_cons_of_mem _ h'⟩) fun ⟨a, h'⟩ => ⟨a, List.mem_cons_of_mem _ h'⟩
    case busRead addr reg a =>
      obtain rfl | hp := hp
      · exact .inr ⟨a, List.mem_cons_self⟩
      · exact (ih hp).imp (fun ⟨v, a, h'⟩ => ⟨v, a, List.mem_cons_of_mem _ h'⟩) fun ⟨a, h'⟩ => ⟨a, List.mem_cons_of_mem _ h'⟩
    all_goals
      exact (ih hp).imp (fun ⟨v, a, h'⟩ => ⟨v, a, List.mem_cons_of_mem _ h'⟩) fun ⟨a, h'⟩ => ⟨a, List.mem_cons_of_mem _ h'⟩

/-- The events a call of request `r` can add: its own write, a read of its register, a log entry. -/
def CallEvent (c : Config) (r : XReq) : Event → Prop
  | .busWrite addr reg val _ => r.isWrite = true ∧ addr = c.devAddr ∧ reg = r.reg ∧ val = r.val
  | .busRead addr reg _ => addr = c.devAddr ∧ reg = r.reg
  | .log _ reg _ => reg = r.reg
  | .accepted _ _ => False
  | .completed _ _ => False

/-- The request latched. -/
def EngState.req (e : EngState) : XReq := ⟨e.reg, e.val, e.isWrite, e.verify⟩

end Sys2Proof.Machine
end

