-- ==== Sys2Proof/Laws/Engine.lean ====
section
/-! SUPPORT. What an engine call can do, said once: every call is a chain of the moves of `EngMove`, so a relation
that each move keeps holds between a call's two ends. Then the shape of a pass, and the calls in E1. -/

namespace Sys2Proof.Machine

/-- One move of the engine inside a call. The request latch stays as it is. -/
inductive EngMove : State → State → Prop where
  | write {s t : State} {a : WriteAnswer} (hw : s.eng.isWrite = true)
      (h : busWrite s.cfg.devAddr s.eng.reg s.eng.val s = some (a, t)) : EngMove s t
  | read {s t : State} {a : ReadAnswer} (h : busRead s.cfg.devAddr s.eng.reg s = some (a, t)) : EngMove s t
  | delay (k : DelayKind) (s : State) : EngMove s (delay k s)
  | log (v : Option Byte) (s : State) : EngMove s (logEvent v s)
  | eng (s : State) (e : EngState) (h : e.reg = s.eng.reg ∧ e.val = s.eng.val ∧ e.isWrite = s.eng.isWrite ∧
      e.verify = s.eng.verify) : EngMove s { s with eng := e }

/-- Any number of moves. -/
abbrev EngMoves : State → State → Prop := Relation.ReflTransGen EngMove

/-- A relation that is reflexive, transitive and kept by every move holds across any number of moves. -/
theorem EngMoves.lift {R : State → State → Prop} (hrefl : ∀ s, R s s) (htrans : ∀ s t u, R s t → R t u → R s u)
    (hmove : ∀ s t, EngMove s t → R s t) {s t : State} (h : EngMoves s t) : R s t := by
  induction h with
  | refl => exact hrefl _
  | tail _ hm ih => exact htrans _ _ _ ih (hmove _ _ hm)

/-- The end of a pass as a state. -/
def Iter.state : Iter → State
  | .hung s => s
  | .ended s => s
  | .again s => s

theorem respond_moves (r : XRsp) (s : State) : EngMoves s (respond r s) :=
  .single (.eng s _ ⟨rfl, rfl, rfl, rfl⟩)

theorem succeed_moves (b : Byte) (s : State) : EngMoves s (succeed b s) :=
  (Relation.ReflTransGen.single (.log _ s)).trans (respond_moves _ _)

theorem noteFailure_moves (c : Code) (s : State) : EngMoves s (noteFailure c s) :=
  (Relation.ReflTransGen.single (.eng s { s.eng with lastCode := some c } ⟨rfl, rfl, rfl, rfl⟩)).trans
    (.single (.log _ _))

theorem failIteration_moves (c : Code) (s : State) : EngMoves s (failIteration c s) := by
  unfold failIteration
  split
  · exact (noteFailure_moves c s).trans (.single (.eng _ _ ⟨rfl, rfl, rfl, rfl⟩))
  · exact (noteFailure_moves c s).trans (respond_moves _ _)

theorem nextAttempt_moves (s : State) : EngMoves s (nextAttempt s) :=
  (Relation.ReflTransGen.single (.delay .backoff s)).trans (.single (.eng _ _ ⟨rfl, rfl, rfl, rfl⟩))

/-- Everything a primary operation can do: the bus primitive of the request, its answer kept, `E_SETTLE` next. -/
theorem primary_spec {s u : State} {p : Answer} (h : primary s = some (p, u)) :
    ∃ t, u = { t with eng := { t.eng with prim := p, phase := .settle } } ∧ t.eng = s.eng ∧
      ((s.eng.isWrite = true ∧ p = .ok ∧ busWrite s.cfg.devAddr s.eng.reg s.eng.val s = some (.ok, t)) ∨
       (s.eng.isWrite = true ∧ ∃ c, p = .err c ∧ busWrite s.cfg.devAddr s.eng.reg s.eng.val s = some (.err c, t)) ∨
       (s.eng.isWrite = false ∧ ∃ b, p = .okByte b ∧ busRead s.cfg.devAddr s.eng.reg s = some (.ok b, t)) ∨
       (s.eng.isWrite = false ∧ ∃ c, p = .err c ∧ busRead s.cfg.devAddr s.eng.reg s = some (.err c, t))) := by
  unfold primary at h
  split at h
  · rename_i hw
    split at h
    · cases h
    · rename_i t hb
      simp only [Option.some.injEq, Prod.mk.injEq] at h
      obtain ⟨rfl, rfl⟩ := h
      obtain ⟨_, _, _, _, ht⟩ := busWrite_spec hb
      exact ⟨t, rfl, by rw [ht], .inl ⟨hw, rfl, hb⟩⟩
    · rename_i c t hb
      simp only [Option.some.injEq, Prod.mk.injEq] at h
      obtain ⟨rfl, rfl⟩ := h
      obtain ⟨_, _, _, _, ht⟩ := busWrite_spec hb
      exact ⟨t, rfl, by rw [ht], .inr (.inl ⟨hw, c, rfl, hb⟩)⟩
  · rename_i hw
    have hw : s.eng.isWrite = false := by simpa using hw
    split at h
    · cases h
    · rename_i b t hb
      simp only [Option.some.injEq, Prod.mk.injEq] at h
      obtain ⟨rfl, rfl⟩ := h
      obtain ⟨_, _, _, _, ht⟩ := busRead_spec hb
      exact ⟨t, rfl, by rw [ht], .inr (.inr (.inl ⟨hw, b, rfl, hb⟩))⟩
    · rename_i c t hb
      simp only [Option.some.injEq, Prod.mk.injEq] at h
      obtain ⟨rfl, rfl⟩ := h
      obtain ⟨_, _, _, _, ht⟩ := busRead_spec hb
      exact ⟨t, rfl, by rw [ht], .inr (.inr (.inr ⟨hw, c, rfl, hb⟩))⟩

theorem primary_moves {s u : State} {p : Answer} (h : primary s = some (p, u)) : EngMoves s u := by
  obtain ⟨t, rfl, _, hc⟩ := primary_spec h
  have hend : EngMoves t { t with eng := { t.eng with prim := p, phase := .settle } } :=
    .single (.eng t _ ⟨rfl, rfl, rfl, rfl⟩)
  obtain ⟨hw, _, hb⟩ | ⟨hw, _, _, hb⟩ | ⟨_, _, _, hb⟩ | ⟨_, _, _, hb⟩ := hc
  · exact (Relation.ReflTransGen.single (.write hw hb)).trans hend
  · exact (Relation.ReflTransGen.single (.write hw hb)).trans hend
  · exact (Relation.ReflTransGen.single (.read hb)).trans hend
  · exact (Relation.ReflTransGen.single (.read hb)).trans hend

theorem failedPass_moves (c : Code) (s : State) : EngMoves s (failedPass c s).state := by
  unfold failedPass
  split <;> exact failIteration_moves c s

theorem judgeReadback_moves (q : ReadAnswer) (s : State) : EngMoves s (judgeReadback q s).state := by
  unfold judgeReadback
  split
  · split
    · exact succeed_moves _ _
    · exact failedPass_moves _ _
  · exact failedPass_moves _ _

theorem iteration_moves (s : State) : EngMoves s (iteration s).state := by
  unfold iteration
  split
  · exact .refl
  · rename_i p u hp
    have h1 : EngMoves s (delay .settle u) := (primary_moves hp).tail (.delay _ _)
    simp only
    split
    · exact h1.trans (succeed_moves _ _)
    · exact h1.trans (failedPass_moves _ _)
    · split
      · have h2 : EngMoves s (enterReadback (delay .settle u)) := h1.tail (.eng _ _ ⟨rfl, rfl, rfl, rfl⟩)
        split
        · exact h2
        · rename_i q t hq
          exact (h2.tail (.read hq)).trans (judgeReadback_moves _ _)
      · exact h1.trans (succeed_moves _ _)

/-- Every engine call is a chain of moves from its latch on. -/
theorem transactFrom_moves (n : Nat) : ∀ s : State, EngMoves s (transactFrom n s) := by
  induction n with
  | zero => intro s; exact .refl
  | succ n ih =>
    intro s
    have h := iteration_moves s
    unfold transactFrom
    split
    · rename_i t e; rw [e] at h; exact h
    · rename_i t e; rw [e] at h; exact h
    · rename_i t e; rw [e] at h; exact (h.trans (nextAttempt_moves t)).trans (ih _)

theorem transact_moves (r : XReq) (s : State) : EngMoves (engLatch r s) (transact r s) := transactFrom_moves _ _

/-- The fields no engine move touches, and the environment's promise. -/
theorem EngMoves.frame {s t : State} (h : EngMoves s t) :
    t.cfg = s.cfg ∧ t.seq = s.seq ∧ t.res = s.res ∧ t.inbox = s.inbox ∧ t.busPort = s.busPort ∧
      t.env.retains = s.env.retains := by
  refine EngMoves.lift (R := fun s t => t.cfg = s.cfg ∧ t.seq = s.seq ∧ t.res = s.res ∧ t.inbox = s.inbox ∧
    t.busPort = s.busPort ∧ t.env.retains = s.env.retains) (fun s => ⟨rfl, rfl, rfl, rfl, rfl, rfl⟩) ?_ ?_ h
  · rintro s t u ⟨h1, h2, h3, h4, h5, h6⟩ ⟨g1, g2, g3, g4, g5, g6⟩
    exact ⟨g1.trans h1, g2.trans h2, g3.trans h3, g4.trans h4, g5.trans h5, g6.trans h6⟩
  · intro s t h
    cases h with
    | write hw h =>
      obtain ⟨_, _, he, _, rfl⟩ := busWrite_spec h
      exact ⟨rfl, rfl, rfl, rfl, rfl, envAnswer_retains he⟩
    | read h =>
      obtain ⟨_, _, he, _, rfl⟩ := busRead_spec h
      exact ⟨rfl, rfl, rfl, rfl, rfl, envAnswer_retains he⟩
    | delay k => exact ⟨rfl, rfl, rfl, rfl, rfl, rfl⟩
    | log v => exact ⟨rfl, rfl, rfl, rfl, rfl, rfl⟩
    | eng _ e h => exact ⟨rfl, rfl, rfl, rfl, rfl, rfl⟩

/-- The request latch is constant during a call (R24). -/
theorem EngMoves.latch {s t : State} (h : EngMoves s t) :
    t.eng.reg = s.eng.reg ∧ t.eng.val = s.eng.val ∧ t.eng.isWrite = s.eng.isWrite ∧ t.eng.verify = s.eng.verify := by
  refine EngMoves.lift (R := fun s t => t.eng.reg = s.eng.reg ∧ t.eng.val = s.eng.val ∧
    t.eng.isWrite = s.eng.isWrite ∧ t.eng.verify = s.eng.verify) (fun s => ⟨rfl, rfl, rfl, rfl⟩) ?_ ?_ h
  · rintro s t u ⟨h1, h2, h3, h4⟩ ⟨g1, g2, g3, g4⟩
    exact ⟨g1.trans h1, g2.trans h2, g3.trans h3, g4.trans h4⟩
  · intro s t h
    cases h with
    | write hw h => obtain ⟨_, _, _, _, rfl⟩ := busWrite_spec h; exact ⟨rfl, rfl, rfl, rfl⟩
    | read h => obtain ⟨_, _, _, _, rfl⟩ := busRead_spec h; exact ⟨rfl, rfl, rfl, rfl⟩
    | delay k => exact ⟨rfl, rfl, rfl, rfl⟩
    | log v => exact ⟨rfl, rfl, rfl, rfl⟩
    | eng _ e h => exact h

/-- The history only grows. -/
theorem EngMoves.history {s t : State} (h : EngMoves s t) : s.history <+: t.history := by
  refine EngMoves.lift (R := fun s t => s.history <+: t.history) (fun s => List.prefix_rfl)
    (fun _ _ _ h g => h.trans g) ?_ h
  intro s t h
  cases h with
  | write hw h => obtain ⟨_, _, _, _, rfl⟩ := busWrite_spec h; exact List.prefix_append _ _
  | read h => obtain ⟨_, _, _, _, rfl⟩ := busRead_spec h; exact List.prefix_append _ _
  | delay k => exact List.prefix_rfl
  | log v => exact List.prefix_append _ _
  | eng _ e h => exact List.prefix_rfl

/-- A register the call keeps: one it does not write, where what it writes cannot cost the device its registers. -/
def EngKeeps (s : State) (a : Byte) : Prop :=
  s.eng.isWrite = true → a ≠ s.eng.reg ∧ (s.env.retains = true ∨ s.eng.reg ≠ s.cfg.aMode)

/-- Every register but the one written to keeps its contents, and a call that writes nothing keeps them all. -/
theorem EngMoves.memory {s t : State} (h : EngMoves s t) (a : Byte) (ha : EngKeeps s a) :
    t.dev.held a = s.dev.held a := by
  have key : (EngKeeps s a → EngKeeps t a) ∧ (EngKeeps s a → t.dev.held a = s.dev.held a) := by
    refine EngMoves.lift (R := fun s t => (EngKeeps s a → EngKeeps t a) ∧
      (EngKeeps s a → t.dev.held a = s.dev.held a)) (fun s => ⟨id, fun _ => rfl⟩) ?_ ?_ h
    · rintro s t u ⟨h1, h2⟩ ⟨g1, g2⟩
      exact ⟨fun k => g1 (h1 k), fun k => (g2 (h1 k)).trans (h2 k)⟩
    · intro s t h
      have hf := EngMoves.frame (.single h)
      have hl := EngMoves.latch (.single h)
      refine ⟨fun k => by simpa only [EngKeeps, hf, hl] using k, fun k => ?_⟩
      cases h with
      | write hw h =>
        obtain ⟨_, _, _, _, rfl⟩ := busWrite_spec h
        exact held_afterWrite_other _ _ _ _ (k hw).2 (k hw).1
      | read h =>
        obtain ⟨_, _, _, _, rfl⟩ := busRead_spec h
        exact held_afterRead _ _ _
      | delay k => rfl
      | log v => rfl
      | eng _ e h => rfl
  exact key.2 ha

/-- A call that writes nothing leaves the hold and both outputs. -/
theorem EngMoves.outputs {s t : State} (h : EngMoves s t) (hw : s.eng.isWrite = false) :
    t.dev.hold = s.dev.hold ∧ t.dev.outCh1 = s.dev.outCh1 ∧ t.dev.outCh2 = s.dev.outCh2 := by
  have key : t.eng.isWrite = s.eng.isWrite ∧ (s.eng.isWrite = false →
      t.dev.hold = s.dev.hold ∧ t.dev.outCh1 = s.dev.outCh1 ∧ t.dev.outCh2 = s.dev.outCh2) := by
    refine EngMoves.lift (R := fun s t => t.eng.isWrite = s.eng.isWrite ∧ (s.eng.isWrite = false →
      t.dev.hold = s.dev.hold ∧ t.dev.outCh1 = s.dev.outCh1 ∧ t.dev.outCh2 = s.dev.outCh2))
      (fun s => ⟨rfl, fun _ => ⟨rfl, rfl, rfl⟩⟩) ?_ ?_ h
    · rintro s t u ⟨h1, h2⟩ ⟨g1, g2⟩
      refine ⟨g1.trans h1, fun hw => ?_⟩
      obtain ⟨a1, a2, a3⟩ := h2 hw
      obtain ⟨b1, b2, b3⟩ := g2 (h1.trans hw)
      exact ⟨b1.trans a1, b2.trans a2, b3.trans a3⟩
    intro s t h
    cases h with
    | write hw h =>
      obtain ⟨_, _, _, _, rfl⟩ := busWrite_spec h
      exact ⟨rfl, fun h => by rw [hw] at h; cases h⟩
    | read h =>
      obtain ⟨_, _, _, _, rfl⟩ := busRead_spec h
      refine ⟨rfl, fun _ => ?_⟩
      simp only; split <;> exact ⟨rfl, rfl, rfl⟩
    | delay k => exact ⟨rfl, fun _ => ⟨rfl, rfl, rfl⟩⟩
    | log v => exact ⟨rfl, fun _ => ⟨rfl, rfl, rfl⟩⟩
    | eng _ e h => exact ⟨h.2.2.1, fun _ => ⟨rfl, rfl, rfl⟩⟩
  exact key.2 hw

/-- The register space stays in canonical form. -/
theorem EngMoves.wf {s t : State} (h : EngMoves s t) (hs : s.dev.mem.wf = true) : t.dev.mem.wf = true := by
  refine EngMoves.lift (R := fun s t => s.dev.mem.wf = true → t.dev.mem.wf = true) (fun s => id)
    (fun _ _ _ h g => fun x => g (h x)) ?_ h hs
  intro s t h
  cases h with
  | write hw h => obtain ⟨_, _, _, _, rfl⟩ := busWrite_spec h; exact deviceAfterWrite_wf _ _ _ _ _
  | read h =>
    obtain ⟨_, _, _, _, rfl⟩ := busRead_spec h
    intro hs; simp only; split <;> exact hs
  | delay k => exact id
  | log v => exact id
  | eng _ e h => exact id

/-- The delays of a call only grow, and the new ones lie in their intervals (R7, R150). -/
theorem EngMoves.delays {s t : State} (h : EngMoves s t) :
    ∃ ds, t.delays = s.delays ++ ds ∧ ∀ d ∈ ds, 1000 ≤ d.micros ∧ d.micros ≤ 2000 := by
  refine EngMoves.lift (R := fun s t => ∃ ds, t.delays = s.delays ++ ds ∧
    ∀ d ∈ ds, 1000 ≤ d.micros ∧ d.micros ≤ 2000) (fun s => ⟨[], by simp, by simp⟩) ?_ ?_ h
  · rintro s t u ⟨d1, h1, g1⟩ ⟨d2, h2, g2⟩
    exact ⟨d1 ++ d2, by rw [h2, h1, List.append_assoc], fun d hd => (List.mem_append.1 hd).elim (g1 d) (g2 d)⟩
  intro s t h
  cases h with
  | write hw h => obtain ⟨_, _, _, _, rfl⟩ := busWrite_spec h; exact ⟨[], by simp, by simp⟩
  | read h => obtain ⟨_, _, _, _, rfl⟩ := busRead_spec h; exact ⟨[], by simp, by simp⟩
  | delay k =>
    refine ⟨[_], delay_delays k s, fun d hd => ?_⟩
    rw [List.mem_singleton.1 hd]
    cases k
    · have := (Config.settleExtra s.draws).isLt
      simp only [delayMicros, settleMicros]; omega
    · have := (Config.backoffExtra s.draws).isLt
      simp only [delayMicros, backoffMicros]; omega
  | log v => exact ⟨[], by simp, by simp⟩
  | eng _ e h => exact ⟨[], by simp, by simp⟩

/-- The events a call adds are its own. -/
theorem EngMoves.events {s t : State} (h : EngMoves s t) :
    ∃ new, t.history = s.history ++ new ∧ ∀ x ∈ new, CallEvent s.cfg s.eng.req x := by
  have key : (t.cfg = s.cfg ∧ t.eng.req = s.eng.req) ∧
      ∃ new, t.history = s.history ++ new ∧ ∀ x ∈ new, CallEvent s.cfg s.eng.req x := by
    refine EngMoves.lift (R := fun s t => (t.cfg = s.cfg ∧ t.eng.req = s.eng.req) ∧
      ∃ new, t.history = s.history ++ new ∧ ∀ x ∈ new, CallEvent s.cfg s.eng.req x)
      (fun s => ⟨⟨rfl, rfl⟩, [], by simp, by simp⟩) ?_ ?_ h
    · rintro s t u ⟨⟨h1, h2⟩, n1, h3, h4⟩ ⟨⟨g1, g2⟩, n2, g3, g4⟩
      rw [h1, h2] at g4
      exact ⟨⟨g1.trans h1, g2.trans h2⟩, n1 ++ n2, by rw [g3, h3, List.append_assoc],
        fun x hx => (List.mem_append.1 hx).elim (h4 x) (g4 x)⟩
    intro s t h
    cases h with
    | write hw h =>
      obtain ⟨_, _, _, _, rfl⟩ := busWrite_spec h
      refine ⟨⟨rfl, rfl⟩, [_], rfl, fun x hx => ?_⟩
      rw [List.mem_singleton.1 hx]
      exact ⟨hw, rfl, rfl, rfl⟩
    | read h =>
      obtain ⟨_, _, _, _, rfl⟩ := busRead_spec h
      refine ⟨⟨rfl, rfl⟩, [_], rfl, fun x hx => ?_⟩
      rw [List.mem_singleton.1 hx]
      exact ⟨rfl, rfl⟩
    | delay k => exact ⟨⟨rfl, rfl⟩, [], by simp, by simp⟩
    | log v =>
      refine ⟨⟨rfl, rfl⟩, [_], rfl, fun x hx => ?_⟩
      rw [List.mem_singleton.1 hx]
      exact rfl
    | eng _ e h => exact ⟨⟨rfl, by simp [EngState.req, h]⟩, [], by simp, by simp⟩
  exact key.2

end Sys2Proof.Machine
end

