-- ==== Sys2Proof/Laws/Calls.lean ====
section
/-! SUPPORT. A call seen from its answers: whatever the environment is, a pass and a call do what `passTrace` and
`callTrace` say of the turns the environment gave. -/

namespace Sys2Proof.Machine

/-- The environment gave the turns `used` and is now `e'`. -/
structure Serves (e : Env) (used : List Turn) (e' : Env) : Prop where
  always : e.answersAlways = true → e'.answersAlways = true
  told : ∀ ts, e = .told ts → ∃ more, ts = used ++ more ∧ e' = .told more

theorem Serves.nil (e : Env) : Serves e [] e := ⟨id, fun ts h => ⟨ts, rfl, h⟩⟩

theorem Serves.append {e e' e'' : Env} {u v : List Turn} (h : Serves e u e') (g : Serves e' v e'') :
    Serves e (u ++ v) e'' where
  always := fun x => g.always (h.always x)
  told := by
    intro ts hts
    obtain ⟨more, rfl, h'⟩ := h.told ts hts
    obtain ⟨more', rfl, g'⟩ := g.told _ h'
    exact ⟨more', by simp, g'⟩

/-- One answer is one turn. -/
theorem envAnswer_serves {s : State} {addr : Addr7} {p : Prim} {turn : Turn} {e : Env}
    (h : envAnswer s addr p = some (turn, e)) : Serves s.env [turn] e := by
  unfold envAnswer at h
  split at h <;> simp_all <;> obtain ⟨h1, h2⟩ := h <;> subst h1 <;> subst h2 <;>
    constructor <;> simp_all [Env.answersAlways]

/-- Only an exhausted list of told answers gives none. -/
theorem envAnswer_none {s : State} {addr : Addr7} {p : Prim} (h : envAnswer s addr p = none) : s.env = .told [] := by
  unfold envAnswer at h
  split at h <;> simp_all

theorem busWrite_none {s : State} {addr : Addr7} {reg val : Byte} (h : busWrite addr reg val s = none) :
    s.env = .told [] := by
  unfold busWrite at h
  split at h
  · rename_i he; exact envAnswer_none he
  · cases h

theorem busRead_none {s : State} {addr : Addr7} {reg : Byte} (h : busRead addr reg s = none) : s.env = .told [] := by
  unfold busRead at h
  split at h
  · rename_i he; exact envAnswer_none he
  · cases h

/-- The kinds of the delays taken. -/
def State.delayKinds (s : State) : List DelayKind := s.delays.map Delay.kind

theorem engLatch_req (r : XReq) (s : State) : (engLatch r s).eng.req = r := rfl

theorem primary_none {s : State} (h : primary s = none) : s.env = .told [] := by
  unfold primary at h
  split at h
  · split at h
    · rename_i hb; exact busWrite_none hb
    · cases h
    · cases h
  · split at h
    · rename_i hb; exact busRead_none hb
    · cases h
    · cases h

/-- The primary operation takes one turn and adds its event. -/
theorem primary_turn {s u : State} {p : Answer} (h : primary s = some (p, u)) :
    ∃ turn, Serves s.env [turn] u.env ∧ u.history = s.history ++ [primaryEvent s.cfg s.eng.req turn] ∧
      u.cfg = s.cfg ∧ u.delays = s.delays ∧ u.eng = { s.eng with prim := p, phase := .settle } ∧
      p = (match turn.err with
        | some c => .err c
        | none => if s.eng.isWrite then .ok else .okByte turn.byte) := by
  obtain ⟨t, rfl, he, hc⟩ := primary_spec h
  obtain ⟨hw, rfl, hb⟩ | ⟨hw, c, rfl, hb⟩ | ⟨hw, b, rfl, hb⟩ | ⟨hw, c, rfl, hb⟩ := hc
  all_goals
    first
      | obtain ⟨turn, env, ha, hans, rfl⟩ := busWrite_spec hb
      | obtain ⟨turn, env, ha, hans, rfl⟩ := busRead_spec hb
    refine ⟨turn, envAnswer_serves ha, ?_, rfl, rfl, rfl, ?_⟩
    · simp [primaryEvent, EngState.req, hw, hans]
    · cases hx : turn.err <;> simp_all [writeAnswerOf, readAnswerOf]

/-- A pass that took the turns `used` and did `p`. -/
structure PassDone (s t : State) (used : List Turn) (p : Pass) : Prop where
  serves : Serves s.env used t.env
  trace : ∀ more, passTrace s.cfg s.eng.req s.eng.attempt (used ++ more) = some { p with rest := more }
  history : t.history = s.history ++ p.events
  kinds : t.delayKinds = s.delayKinds ++ [.settle]
  cfg : t.cfg = s.cfg
  req : t.eng.req = s.eng.req
  attempt : t.eng.attempt = s.eng.attempt

/-- How a pass ends. -/
def PassSpec (s : State) : Iter → Prop
  | .hung t => ∃ used, Serves s.env used (.told []) ∧ t.env = .told [] ∧
      passTrace s.cfg s.eng.req s.eng.attempt used = none ∧
      (t = s ∨ t.eng.phase = .readback) ∧ ∃ ev, t.history = s.history ++ ev ∧ ev.length ≤ 1
  | .ended t => ∃ used p, PassDone s t used p ∧ t.eng.phase = .done ∧
      ((∃ b, p.verdict = .success b ∧ t.eng.rsp = some (.ok b)) ∨
        ∃ c, p.verdict = .failure c ∧ t.eng.rsp = some (.err s.eng.reg c) ∧ 10 ≤ s.eng.attempt.toNat)
  | .again t => ∃ used p c, PassDone s t used p ∧ t.eng.phase = .backoff ∧ p.verdict = .failure c ∧
      s.eng.attempt.toNat < 10

theorem failedPass_spec {s u : State} {c : Code} {used : List Turn} {ev : List Event}
    (hs : Serves s.env used u.env)
    (ht : ∀ more, passTrace s.cfg s.eng.req s.eng.attempt (used ++ more) =
      some ⟨.failure c, ev ++ [failureLog s.eng.req s.eng.attempt], more⟩)
    (hh : u.history = s.history ++ ev) (hk : u.delayKinds = s.delayKinds ++ [.settle]) (hc : u.cfg = s.cfg)
    (hr : u.eng.req = s.eng.req) (ha : u.eng.attempt = s.eng.attempt) : PassSpec s (failedPass c u) := by
  have hreg : u.eng.reg = s.eng.reg := congrArg XReq.reg hr
  have hval : u.eng.val = s.eng.val := congrArg XReq.val hr
  have hw : u.eng.isWrite = s.eng.isWrite := congrArg XReq.isWrite hr
  have hl : (failIteration c u).history = s.history ++ (ev ++ [failureLog s.eng.req s.eng.attempt]) := by
    rw [failIteration_history, hh, ha, hreg, hval, hw, List.append_assoc]; rfl
  have hd : (failIteration c u).eng.req = u.eng.req → (failIteration c u).eng.attempt = u.eng.attempt →
      PassDone s (failIteration c u) used ⟨.failure c, ev ++ [failureLog s.eng.req s.eng.attempt], []⟩ := fun h1 h2 =>
    ⟨by rw [failIteration_env]; exact hs, ht, hl, by rw [State.delayKinds, failIteration_delays]; exact hk,
      by rw [failIteration_cfg]; exact hc, h1.trans hr, h2.trans ha⟩
  unfold failedPass
  split
  · rename_i hx
    have he := failIteration_eng_again c u hx
    exact ⟨used, _, c, hd (by rw [he]; rfl) (by rw [he]), by rw [he], rfl, by simpa [attemptsLeft, nAttempts, ha] using hx⟩
  · rename_i hx
    have he := failIteration_eng_ended c u (by simpa using hx)
    exact ⟨used, _, hd (by rw [he]; rfl) (by rw [he]), by rw [he], .inr ⟨c, rfl, by rw [he, hreg], by simpa [attemptsLeft, nAttempts, ha] using hx⟩⟩

theorem succeed_spec {s u : State} {b : Byte} {used : List Turn} {ev : List Event}
    (hs : Serves s.env used u.env)
    (ht : ∀ more, passTrace s.cfg s.eng.req s.eng.attempt (used ++ more) =
      some ⟨.success b, ev ++ [.log s.eng.attempt s.eng.reg (some b)], more⟩)
    (hh : u.history = s.history ++ ev) (hk : u.delayKinds = s.delayKinds ++ [.settle]) (hc : u.cfg = s.cfg)
    (hr : u.eng.req = s.eng.req) (ha : u.eng.attempt = s.eng.attempt) : PassSpec s (.ended (succeed b u)) := by
  have hreg : u.eng.reg = s.eng.reg := congrArg XReq.reg hr
  exact ⟨used, ⟨.success b, _, []⟩, ⟨hs, ht, by rw [succeed_history, hh, ha, hreg, List.append_assoc], hk, hc, hr, ha⟩, rfl,
    .inl ⟨b, rfl, rfl⟩⟩

theorem iteration_spec (s : State) : PassSpec s (iteration s) := by
  unfold iteration
  split
  · rename_i hp
    have he := primary_none hp
    refine ⟨[], ?_, he, rfl, .inl rfl, [], by simp, by simp⟩
    rw [he]; exact .nil _
  · rename_i p u hp
    obtain ⟨turn, hs, hh, hc, hd, he, rfl⟩ := primary_turn hp
    have hk : (delay .settle u).delayKinds = s.delayKinds ++ [.settle] := by simp [State.delayKinds, hd]
    have hr : (delay .settle u).eng.req = s.eng.req := by simp [he, EngState.req]
    have ha : (delay .settle u).eng.attempt = s.eng.attempt := by simp [he]
    have hw : (delay .settle u).eng.verify = s.eng.verify := by simp [he]
    have hv : (delay .settle u).eng.val = s.eng.val := by simp [he]
    simp only
    split
    · rename_i b hm
      split at hm
      · cases hm
      · rename_i hn
        split at hm
        · cases hm
        · rename_i hwr
          cases hm
          exact succeed_spec (used := [turn]) hs (fun more => by
            simp [passTrace, hn, EngState.req, hwr]) hh hk hc hr ha
    · rename_i c hm
      split at hm
      · rename_i hn
        cases hm
        exact failedPass_spec (used := [turn]) hs (fun more => by simp [passTrace, hn]) hh hk hc hr ha
      · split at hm <;> cases hm
    · rename_i hm
      split at hm
      · cases hm
      rename_i hn
      split at hm
      swap
      · cases hm
      rename_i hwr
      split
      · rename_i hver
        rw [hw] at hver
        split
        · rename_i hq
          have hq' := busRead_none hq
          refine ⟨[turn], ?_, hq', ?_, .inr rfl, [_], hh, by simp⟩
          · rw [← hq']; exact hs
          · simp [passTrace, hn, EngState.req, hwr, hver]
        · rename_i q t hq
          obtain ⟨turn2, env, h2, rfl, ht⟩ := busRead_spec hq
          have hs2 : Serves s.env [turn, turn2] t.env := by
            rw [ht]; exact hs.append (envAnswer_serves (s := enterReadback (delay .settle u)) h2)
          have hh2 : t.history = s.history ++ ([primaryEvent s.cfg s.eng.req turn] ++
              [Event.busRead s.cfg.devAddr s.eng.reg (readAnswerOf turn2)]) := by
            rw [ht]; simp [hh, hc, he]
          have hk : t.delayKinds = s.delayKinds ++ [.settle] := by rw [ht]; exact hk
          have hr : t.eng.req = s.eng.req := by rw [ht]; exact hr
          have ha : t.eng.attempt = s.eng.attempt := by rw [ht]; exact ha
          have hv : t.eng.val = s.eng.val := congrArg XReq.val hr
          have hc : t.cfg = s.cfg := by rw [ht]; exact hc
          clear ht
          unfold judgeReadback
          split
          · rename_i b hb
            have hb2 : turn2.err = none ∧ turn2.byte = b := by
              cases hx : turn2.err <;> simp_all [readAnswerOf]
            obtain ⟨h3, rfl⟩ := hb2
            split
            · rename_i hbv
              have hbv' : turn2.byte = s.eng.val := hbv.trans hv
              rw [hv]
              refine succeed_spec hs2 (fun more => ?_) hh2 hk hc hr ha
              simp [passTrace, hn, EngState.req, hwr, hver, h3, hbv']
            · rename_i hbv
              have hbv' : turn2.byte ≠ s.eng.val := fun e => hbv (e.trans hv.symm)
              refine failedPass_spec hs2 (fun more => ?_) hh2 hk hc hr ha
              simp [passTrace, hn, EngState.req, hwr, hver, h3, hbv', hc]
          · rename_i c hb
            have h3 : turn2.err = some c := by
              cases hx : turn2.err <;> simp_all [readAnswerOf]
            refine failedPass_spec hs2 (fun more => ?_) hh2 hk hc hr ha
            simp [passTrace, hn, EngState.req, hwr, hver, h3]
      · rename_i hver
        rw [hw] at hver
        rw [hv]
        exact succeed_spec (used := [turn]) hs (fun more => by
            simp [passTrace, hn, EngState.req, hwr, hver]) hh hk hc hr ha

/-- A call that took the turns `used` and did `q`. -/
structure CallDone (n : Nat) (s t : State) (used : List Turn) (q : CallResult) : Prop where
  serves : Serves s.env used t.env
  trace : ∀ more, callTrace s.cfg s.eng.req n (used ++ more) = some { q with rest := more }
  history : t.history = s.history ++ q.events
  kinds : t.delayKinds = s.delayKinds ++ q.delays
  phase : t.eng.phase = .done
  rsp : t.eng.rsp = some q.rsp
  shape : (∃ b, q.rsp = .ok b) ∨ ∃ c, q.rsp = .err s.eng.reg c ∧ t.eng.attempt = 10#4

/-- A call that waits for an answer, having taken the turns `used`. -/
structure CallHung (n : Nat) (s t : State) (used : List Turn) : Prop where
  serves : Serves s.env used (.told [])
  env : t.env = .told []
  trace : callTrace s.cfg s.eng.req n used = none
  phase : t.eng.phase = .primary ∨ t.eng.phase = .readback

/-- Everything the loop of R141 can do with `n` passes left. -/
theorem transactFrom_spec (n : Nat) : ∀ s : State, n ≤ 9 → s.eng.attempt = BitVec.ofNat 4 (10 - n) →
    s.eng.phase = .primary →
    (∃ used q, CallDone (n + 1) s (transactFrom (n + 1) s) used q) ∨
      ∃ used, CallHung (n + 1) s (transactFrom (n + 1) s) used := by
  induction n with
  | zero =>
    intro s _ ha hp
    have h := iteration_spec s
    unfold transactFrom
    split
    · rename_i t e
      rw [e] at h
      obtain ⟨used, h1, h2, h3, h4, -⟩ := h
      refine .inr ⟨used, h1, h2, ?_, ?_⟩
      · rw [ha] at h3; rw [callTrace, h3]
      · obtain rfl | h4 := h4
        · exact .inl hp
        · exact .inr h4
    · rename_i t e
      rw [e] at h
      obtain ⟨used, p, hd, hph, hv⟩ := h
      have htr := hd.trace
      rw [ha] at htr
      obtain ⟨b, hb, hr⟩ | ⟨c, hb, hr, -⟩ := hv
      · exact .inl ⟨used, ⟨.ok b, p.events, [.settle], []⟩, hd.serves, fun more => by rw [callTrace, htr]; simp [hb],
          hd.history, hd.kinds, hph, hr, .inl ⟨b, rfl⟩⟩
      · exact .inl ⟨used, ⟨.err s.eng.reg c, p.events, [.settle], []⟩, hd.serves,
          fun more => by rw [callTrace, htr]; simp [hb, EngState.req],
          hd.history, hd.kinds, hph, hr, .inr ⟨c, rfl, by rw [hd.attempt, ha]⟩⟩
    · rename_i t e
      rw [e] at h
      obtain ⟨used, p, c, -, -, -, h4⟩ := h
      simp [ha] at h4
  | succ n ih =>
    intro s hn ha hp
    have h := iteration_spec s
    unfold transactFrom
    split
    · rename_i t e
      rw [e] at h
      obtain ⟨used, h1, h2, h3, h4, -⟩ := h
      refine .inr ⟨used, h1, h2, ?_, ?_⟩
      · rw [ha] at h3; rw [callTrace, h3]
      · obtain rfl | h4 := h4
        · exact .inl hp
        · exact .inr h4
    · rename_i t e
      rw [e] at h
      obtain ⟨used, p, hd, hph, hv⟩ := h
      have htr := hd.trace
      rw [ha] at htr
      obtain ⟨b, hb, hr⟩ | ⟨c, hb, hr, h10⟩ := hv
      · exact .inl ⟨used, ⟨.ok b, p.events, [.settle], []⟩, hd.serves,
          fun more => by rw [callTrace, htr]; simp [hb],
          hd.history, hd.kinds, hph, hr, .inl ⟨b, rfl⟩⟩
      · exfalso; rw [ha] at h10; simp only [BitVec.toNat_ofNat] at h10; omega
    · rename_i t e
      rw [e] at h
      obtain ⟨used, p, c, hd, hph, hv, h10⟩ := h
      have htr := hd.trace
      rw [ha] at htr
      have ha' : (nextAttempt t).eng.attempt = BitVec.ofNat 4 (10 - n) := by
        rw [nextAttempt_eng]
        show t.eng.attempt + 1#4 = _
        rw [hd.attempt, ha]
        apply BitVec.eq_of_toNat_eq
        simp only [BitVec.toNat_add, BitVec.toNat_ofNat]
        omega
      have hreq : (nextAttempt t).eng.req = s.eng.req := hd.req
      have hreg : (nextAttempt t).eng.reg = s.eng.reg := congrArg XReq.reg hreq
      have hcfg : (nextAttempt t).cfg = s.cfg := hd.cfg
      have hk : (nextAttempt t).delayKinds = s.delayKinds ++ [.settle, .backoff] := by
        have := hd.kinds
        simp only [State.delayKinds] at this
        simp [State.delayKinds, this]
      obtain ⟨u2, q, hq⟩ | ⟨u2, hq⟩ := ih (nextAttempt t) (by omega) ha' rfl
      · have hqt := hq.trace
        rw [hreq, hcfg] at hqt
        refine .inl ⟨used ++ u2, ⟨q.rsp, p.events ++ q.events, .settle :: .backoff :: q.delays, []⟩,
          hd.serves.append hq.serves, fun more => ?_, ?_, ?_, hq.phase, hq.rsp, ?_⟩
        · rw [callTrace, List.append_assoc, htr]; simp [hv, hqt]
        · rw [hq.history, nextAttempt_history, hd.history, List.append_assoc]
        · rw [hq.kinds, hk]; simp
        · rw [← hreg]; exact hq.shape
      · have hqt := hq.trace
        rw [hreq, hcfg] at hqt
        refine .inr ⟨used ++ u2, hd.serves.append hq.serves, hq.env, ?_, hq.phase⟩
        rw [callTrace, htr]; simp [hv, hqt]

/-- Everything an engine call can do, in terms of the turns the environment gave (R141). -/
theorem transact_spec (r : XReq) (s : State) :
    (∃ used q, CallDone 10 (engLatch r s) (transact r s) used q) ∨
      ∃ used, CallHung 10 (engLatch r s) (transact r s) used :=
  transactFrom_spec 9 (engLatch r s) (by omega) rfl rfl

/-- One pass makes at most one write and one read. -/
theorem passTrace_counts {c : Config} {r : XReq} {k : BitVec 4} {ts : List Turn} {p : Pass}
    (h : passTrace c r k ts = some p) : (writesOf p.events).length ≤ 1 ∧ (readsOf p.events).length ≤ 1 ∧
      logsOf p.events = 1 := by
  unfold passTrace at h
  split at h
  · cases h
  split at h
  · cases h; simp only [primaryEvent]; split <;> simp [writesOf, readsOf, logsOf, failureLog]
  split at h
  · cases h; simp only [primaryEvent]; split <;> simp [writesOf, readsOf, logsOf]
  split at h
  · cases h; simp only [primaryEvent]; split <;> simp [writesOf, readsOf, logsOf]
  rename_i hw _
  split at h
  · cases h
  have hw : r.isWrite = true := by simpa using hw
  simp only [primaryEvent, hw, if_true] at h
  split at h
  · cases h; simp [writesOf, readsOf, logsOf, failureLog]
  split at h
  · cases h; simp [writesOf, readsOf, logsOf]
  · cases h; simp [writesOf, readsOf, logsOf, failureLog]

/-- A call with `n` passes left makes at most `n` writes and `n` reads, ended or not (R147). -/
theorem transactFrom_counts (n : Nat) : ∀ s : State, ∃ new, (transactFrom n s).history = s.history ++ new ∧
    (writesOf new).length ≤ n ∧ (readsOf new).length ≤ n := by
  induction n with
  | zero => intro s; exact ⟨[], by simp [transactFrom], by simp [writesOf], by simp [readsOf]⟩
  | succ n ih =>
    intro s
    have h := iteration_spec s
    unfold transactFrom
    split
    · rename_i t e
      rw [e] at h
      obtain ⟨_, _, _, _, _, ev, hh, hl⟩ := h
      have : (writesOf ev).length ≤ 1 ∧ (readsOf ev).length ≤ 1 := by
        match ev, hl with
        | [], _ => simp [writesOf, readsOf]
        | [x], _ => cases x <;> simp [writesOf, readsOf]
      exact ⟨ev, hh, by omega, by omega⟩
    · rename_i t e
      rw [e] at h
      obtain ⟨used, p, hd, -⟩ := h
      have := passTrace_counts (hd.trace [])
      simp only at this
      exact ⟨p.events, hd.history, by omega, by omega⟩
    · rename_i t e
      rw [e] at h
      obtain ⟨used, p, c, hd, -⟩ := h
      have := passTrace_counts (hd.trace [])
      simp only at this
      obtain ⟨new, h1, h2, h3⟩ := ih (nextAttempt t)
      refine ⟨p.events ++ new, by rw [h1, nextAttempt_history, hd.history, List.append_assoc], ?_, ?_⟩
      · rw [writesOf_append, List.length_append]; omega
      · rw [readsOf_append, List.length_append]; omega

/-- In an environment that answers, a call ends. -/
theorem transact_ends (r : XReq) (s : State) (h : s.env.answersAlways = true) :
    ∃ used q, CallDone 10 (engLatch r s) (transact r s) used q := by
  obtain h1 | ⟨used, h2⟩ := transact_spec r s
  · exact h1
  · have := h2.serves.always h
    simp [Env.answersAlways] at this

/-- A request of an idle block is served. -/
theorem exec_req (r : XReq) (s : State) (h : s.idle = true) : exec (reqInstr r) s = Host.Outcome.next (engineCall r s) := by
  obtain ⟨g, v, w, y⟩ := r
  cases w <;> cases y <;> simp [reqInstr, exec, execXread, execXwrite, execXwritev, h]

theorem engineCall_done {r : XReq} {s : State} {u q} (h : CallDone 10 (engLatch r s) (transact r s) u q) :
    engineCall r s = engRelease (transact r s) := by
  simp only [engineCall, h.phase]

theorem engineCall_hung {r : XReq} {s : State} {u} (h : CallHung 10 (engLatch r s) (transact r s) u) :
    engineCall r s = transact r s := by
  simp only [engineCall]
  obtain h | h := h.phase <;> rw [h]


theorem idle_parts {s : State} (h : s.idle = true) : s.seq.busy = false ∧ s.eng.phase = .idle := by
  simpa [State.idle] using h

theorem done_idle {r : XReq} {s : State} (h : s.idle = true) : (engRelease (transact r s)).idle = true := by
  have := (transact_moves r s).frame
  simp only [State.idle, engRelease_seq, engRelease_eng, this.2.1]
  simp [(idle_parts h).1]

end Sys2Proof.Machine
end

