-- ==== Sys2Proof/Laws/Devices.lean ====
section
/-! SUPPORT. The calls on an environment that behaves as the verbatim device does (R80), and on one that fails (R81). -/

namespace Sys2Proof.Machine

/-- The environment `e` answers the device's next primitive as E1 does, promising retention as E1 does, and is then
`e'`. -/
def Env.Passes (e e' : Env) : Prop :=
  e.retains = true ∧ ∀ s : State, s.env = e → ∀ p, envAnswer s s.cfg.devAddr p = some (verbatimTurn s.dev p, e')

/-- The environment `e` fails the device's next primitive with `c`, and is then `e'`. -/
def Env.Fails (e : Env) (c : Code) (e' : Env) : Prop :=
  ∀ s : State, s.env = e → ∀ p, envAnswer s s.cfg.devAddr p = some (failTurn c, e')

theorem passes_e1 : Env.e1.Passes .e1 := ⟨rfl, fun s h p => by simp [envAnswer, h]⟩
theorem passes_e2 (fates : List Fate) : (Env.e2 (.pass :: fates)).Passes (.e2 fates) :=
  ⟨rfl, fun s h p => by simp [envAnswer, h]⟩
theorem passes_e2_nil : (Env.e2 []).Passes (.e2 []) :=
  ⟨rfl, fun s h p => by simp [envAnswer, h]⟩
theorem fails_e2 (c : Code) (fates : List Fate) : (Env.e2 (.fail c :: fates)).Fails c (.e2 fates) :=
  fun s h p => by simp [envAnswer, h]

theorem iteration_written {s u w : State} {q : ReadAnswer} (h : primary s = some (.ok, u))
    (hv : u.eng.verify = true)
    (hr : busRead u.cfg.devAddr u.eng.reg (enterReadback (delay .settle u)) = some (q, w)) :
    iteration s = judgeReadback q w := by
  simp [iteration, h, hv, hr]

theorem iteration_unverified {s u : State} (h : primary s = some (.ok, u)) (hv : u.eng.verify = false) :
    iteration s = .ended (succeed u.eng.val (delay .settle u)) := by
  simp [iteration, h, hv]

theorem iteration_read {s u : State} {b : Byte} (h : primary s = some (.okByte b, u)) :
    iteration s = .ended (succeed b (delay .settle u)) := by
  simp [iteration, h]

theorem iteration_err {s u : State} {c : Code} (h : primary s = some (.err c, u)) :
    iteration s = failedPass c (delay .settle u) := by
  simp [iteration, h]

theorem transact_ended {r : XReq} {s t : State} (h : iteration (engLatch r s) = .ended t) : transact r s = t := by
  rw [transact, nAttempts, transactFrom, h]

/-- What a call that passes at the first attempt leaves. -/
structure CallOk (r : XReq) (b : Byte) (es : List Event) (s t : State) : Prop where
  phase : t.eng.phase = .done
  rsp : t.eng.rsp = some (.ok b)
  attempt : t.eng.attempt = 1#4
  history : t.history = s.history ++ es ++ [.log 1#4 r.reg (some b)]
  held : ∀ a : Byte, t.dev.held a = if a = r.reg ∧ r.isWrite = true then b else s.dev.held a
  outputs : r.isWrite = true → ∃ n, t.dev.hold = (s.dev.store s.cfg n r.reg b).hold ∧
    t.dev.outCh1 = (s.dev.store s.cfg n r.reg b).outCh1 ∧ t.dev.outCh2 = (s.dev.store s.cfg n r.reg b).outCh2

theorem primary_write_of_turn {s : State} (hw : s.eng.isWrite = true) {turn : Turn} {e : Env}
    (h : envAnswer s s.cfg.devAddr (.write s.eng.reg s.eng.val) = some (turn, e)) :
    ∃ p u, primary s = some (p, u) ∧ u.env = e ∧ u.cfg = s.cfg ∧ u.eng = { s.eng with prim := p, phase := .settle } ∧
      u.history = s.history ++ [.busWrite s.cfg.devAddr s.eng.reg s.eng.val (writeAnswerOf turn)] ∧
      u.dev = deviceAfterWrite s s.cfg.devAddr s.eng.reg s.eng.val turn ∧
      p = match turn.err with
        | some c => .err c
        | none => .ok := by
  have hb := busWrite_of_turn h
  cases ht : turn.err <;> simp [primary, hw, hb, writeAnswerOf, ht]

theorem primary_read_of_turn {s : State} (hw : s.eng.isWrite = false) {turn : Turn} {e : Env}
    (h : envAnswer s s.cfg.devAddr (.read s.eng.reg) = some (turn, e)) :
    ∃ p u, primary s = some (p, u) ∧ u.env = e ∧ u.cfg = s.cfg ∧ u.eng = { s.eng with prim := p, phase := .settle } ∧
      u.history = s.history ++ [.busRead s.cfg.devAddr s.eng.reg (readAnswerOf turn)] ∧
      u.dev = { s.dev with settling := true } ∧
      p = match turn.err with
        | some c => .err c
        | none => .okByte turn.byte := by
  have hb := busRead_of_turn h
  cases ht : turn.err <;> simp [primary, hw, hb, readAnswerOf, ht]

/-- The read-back, from the turn it is given. -/
theorem readback_of_turn {s : State} {turn : Turn} {e : Env} {g : Byte}
    (h : envAnswer s s.cfg.devAddr (.read g) = some (turn, e)) :
    ∃ w, busRead s.cfg.devAddr g s = some (readAnswerOf turn, w) ∧ w.env = e ∧ w.cfg = s.cfg ∧ w.eng = s.eng ∧
      w.history = s.history ++ [.busRead s.cfg.devAddr g (readAnswerOf turn)] ∧
      w.dev = { s.dev with settling := true } :=
  ⟨_, busRead_of_turn h, rfl, rfl, rfl, rfl, if_pos rfl⟩

theorem transact_verified {s : State} {e e' : Env} (g v : Byte) (h1 : s.env.Passes e) (h2 : e.Passes e') :
    CallOk (writeReq g v) v [.busWrite s.cfg.devAddr g v .ok, .busRead s.cfg.devAddr g (.ok v)] s
      (transact (writeReq g v) s) ∧ (transact (writeReq g v) s).env = e' := by
  obtain ⟨p, u, hp, hue, huc, heng, hh, hd, rfl⟩ :=
    primary_write_of_turn (s := engLatch (writeReq g v) s) rfl (h1.2 (engLatch (writeReq g v) s) rfl (.write g v))
  have hreg : u.eng.reg = g := by rw [heng]; rfl
  have hval : u.eng.val = v := by rw [heng]; rfl
  have hb : u.dev.held g = v := by
    rw [hd]; exact held_afterWrite_same _ _ _ _
  obtain ⟨w, hr, hwe, hwc, hweng, hwh, hwd⟩ := readback_of_turn (h2.2 (enterReadback (delay .settle u)) hue (.read g))
  rw [show (verbatimTurn (enterReadback (delay .settle u)).dev (.read g)) = ⟨none, v, false⟩ from by
    rw [← hb]; rfl] at hr hwh
  have hi := iteration_written hp (by rw [heng]; rfl) (by rw [hreg]; exact hr)
  have hi : iteration (engLatch (writeReq g v) s) = .ended (succeed v w) := by
    rw [hi]
    simp [judgeReadback, readAnswerOf, hweng, hval]
  rw [transact_ended hi]
  refine ⟨⟨rfl, rfl, ?_, ?_, ?_, fun _ => ⟨s.draws, ?_⟩⟩, hwe⟩
  · rw [succeed_eng]; simp [hweng, heng]
  · simp [hwh, hh, hweng, heng, huc, writeReq, readAnswerOf, writeAnswerOf, verbatimTurn]
  · intro a
    have : (succeed v w).dev.held a = u.dev.held a := by rw [succeed_dev, hwd]; rfl
    rw [this, hd]
    refine (held_afterWrite _ _ _ _ _ (by exact .inl h1.1)).trans ?_
    simp [writeReq, storedBy, verbatimTurn]; rfl
  · simp [hwd, hd, deviceAfterWrite, storedBy, writeReq, verbatimTurn, deviceTakes, losesRegisters, h1.1]

/-- A read that passes at the first attempt. -/
theorem transact_read {s : State} {e : Env} (g x : Byte) (y : Bool) (h1 : s.env.Passes e) :
    CallOk ⟨g, x, false, y⟩ (s.dev.held g) [.busRead s.cfg.devAddr g (.ok (s.dev.held g))] s
      (transact ⟨g, x, false, y⟩ s) ∧ (transact ⟨g, x, false, y⟩ s).env = e := by
  obtain ⟨p, u, hp, hue, huc, heng, hh, hd, rfl⟩ :=
    primary_read_of_turn (s := engLatch ⟨g, x, false, y⟩ s) rfl (h1.2 (engLatch ⟨g, x, false, y⟩ s) rfl (.read g))
  rw [transact_ended (iteration_read hp)]
  refine ⟨⟨rfl, rfl, ?_, ?_, ?_, fun h => by cases h⟩, hue⟩
  · rw [succeed_eng]; simp [heng]
  · simp [hh, heng, readAnswerOf, verbatimTurn]
  · intro a; rw [if_neg (by simp), succeed_dev, delay_dev, hd]; rfl

/-- An unverified write that passes at the first attempt. -/
theorem transact_unverified {s : State} {e : Env} (g v : Byte) (h1 : s.env.Passes e) :
    CallOk ⟨g, v, true, false⟩ v [.busWrite s.cfg.devAddr g v .ok] s
      (transact ⟨g, v, true, false⟩ s) ∧ (transact ⟨g, v, true, false⟩ s).env = e := by
  obtain ⟨p, u, hp, hue, huc, heng, hh, hd, rfl⟩ :=
    primary_write_of_turn (s := engLatch ⟨g, v, true, false⟩ s) rfl
      (h1.2 (engLatch ⟨g, v, true, false⟩ s) rfl (.write g v))
  rw [transact_ended (iteration_unverified hp (by rw [heng]; rfl))]
  have hval : u.eng.val = v := by rw [heng]; rfl
  rw [hval]
  refine ⟨⟨rfl, rfl, ?_, ?_, ?_, fun _ => ⟨s.draws, ?_⟩⟩, hue⟩
  · rw [succeed_eng]; simp [heng]
  · simp [hh, heng, writeAnswerOf, verbatimTurn]
  · intro a
    have : (succeed v (delay .settle u)).dev.held a = u.dev.held a := rfl
    rw [this, hd]
    refine (held_afterWrite _ _ _ _ _ (by exact .inl h1.1)).trans ?_
    simp [storedBy, verbatimTurn]; rfl
  · simp [hd, deviceAfterWrite, storedBy, verbatimTurn, deviceTakes, losesRegisters, h1.1]

/-- What a write call whose every primary operation is answered `c` leaves. -/
theorem transactFrom_fails {c : Code} (n : Nat) : ∀ s : State, n ≤ 9 → s.eng.attempt = BitVec.ofNat 4 (10 - n) →
    s.eng.isWrite = true → s.env = .e2 (List.replicate (n + 1) (.fail c)) →
    ∃ new, (transactFrom (n + 1) s).history = s.history ++ new ∧
      writesOf new = List.replicate (n + 1) (s.cfg.devAddr, s.eng.reg, s.eng.val) ∧
      (transactFrom (n + 1) s).eng.phase = .done ∧ (transactFrom (n + 1) s).eng.rsp = some (.err s.eng.reg c) ∧
      (transactFrom (n + 1) s).env = .e2 [] ∧ (∀ a : Byte, (transactFrom (n + 1) s).dev.held a = s.dev.held a) ∧
      (transactFrom (n + 1) s).dev.hold = s.dev.hold ∧ (transactFrom (n + 1) s).dev.outCh1 = s.dev.outCh1 ∧
      (transactFrom (n + 1) s).dev.outCh2 = s.dev.outCh2 := by
  induction n with
  | zero =>
    intro s _ ha hw he
    obtain ⟨p, u, hp, hue, huc, heng, hh, hd, rfl⟩ :=
      primary_write_of_turn (s := s) hw (fails_e2 c [] s he (.write s.eng.reg s.eng.val))
    have hi := iteration_err hp
    have hf : attemptsLeft (delay .settle u) = false := by simp [attemptsLeft, nAttempts, heng, ha]
    rw [failedPass, hf, if_neg (by simp)] at hi
    rw [transactFrom, hi]
    have heo := failIteration_eng_ended c _ hf
    have hhist : (failIteration c (delay .settle u)).history = s.history ++
        [.busWrite s.cfg.devAddr s.eng.reg s.eng.val (.err c), .log s.eng.attempt s.eng.reg (some s.eng.val)] := by
      simp [hh, heng, hw, writeAnswerOf, failTurn]
    simp only
    refine ⟨_, hhist, by simp [writesOf], by rw [heo], by rw [heo]; simp [heng], by simp [hue], ?_, ?_⟩
    · intro a; simp only [failIteration_dev, delay_dev, hd]; exact held_afterWrite_failed _ _ _ _ _ rfl
    · simp [hd, deviceAfterWrite, storedBy, failTurn]
  | succ n ih =>
    intro s hn ha hw he
    obtain ⟨p, u, hp, hue, huc, heng, hh, hd, rfl⟩ :=
      primary_write_of_turn (s := s) hw (fails_e2 c _ s (by rw [he, List.replicate_succ]) (.write s.eng.reg s.eng.val))
    have hi := iteration_err hp
    have hf : attemptsLeft (delay .settle u) = true := by
      simp only [attemptsLeft, nAttempts, delay_eng, heng, ha, BitVec.toNat_ofNat, decide_eq_true_eq]; omega
    rw [failedPass, hf, if_pos rfl] at hi
    rw [transactFrom, hi]
    simp only
    have hea := failIteration_eng_again c _ hf
    have hhist : (failIteration c (delay .settle u)).history = s.history ++
        [.busWrite s.cfg.devAddr s.eng.reg s.eng.val (.err c), .log s.eng.attempt s.eng.reg (some s.eng.val)] := by
      simp [hh, heng, hw, writeAnswerOf, failTurn]
    generalize ht : nextAttempt (failIteration c (delay .settle u)) = t
    have ht' : t.history = (failIteration c (delay .settle u)).history := by rw [← ht]; rfl
    rw [hhist] at ht'
    have e1 : t.eng.reg = s.eng.reg := by rw [← ht]; simp [hea, heng]
    have e2 : t.eng.val = s.eng.val := by rw [← ht]; simp [hea, heng]
    have e3 : t.cfg = s.cfg := by rw [← ht]; simp [huc]
    have e4 : t.eng.attempt = BitVec.ofNat 4 (10 - n) := by
      rw [← ht]
      apply BitVec.eq_of_toNat_eq
      simp only [nextAttempt_eng, hea, delay_eng, heng, ha, BitVec.toNat_add, BitVec.toNat_ofNat]
      omega
    have e5 : t.eng.isWrite = true := by rw [← ht]; simp [hea, heng, hw]
    have e6 : t.env = .e2 (List.replicate (n + 1) (.fail c)) := by rw [← ht]; simp [hue]
    have e7 : ∀ a : Byte, t.dev.held a = s.dev.held a := by
      intro a; rw [← ht]; simp only [nextAttempt_dev, failIteration_dev, delay_dev, hd]; exact held_afterWrite_failed _ _ _ _ _ rfl
    have e8 : t.dev.hold = s.dev.hold ∧ t.dev.outCh1 = s.dev.outCh1 ∧ t.dev.outCh2 = s.dev.outCh2 := by
      rw [← ht]; simp [hd, deviceAfterWrite, storedBy, failTurn]
    obtain ⟨new, h1, h2, h3, h4, h5, h6, h7, h8, h9⟩ := ih t (by omega) e4 e5 e6
    refine ⟨[.busWrite s.cfg.devAddr s.eng.reg s.eng.val (.err c), .log s.eng.attempt s.eng.reg (some s.eng.val)] ++ new, by rw [h1, ht', List.append_assoc], ?_, h3, by rw [h4, e1], h5, fun a => by rw [h6, e7], h7.trans e8.1, h8.trans e8.2.1, h9.trans e8.2.2⟩
    · rw [writesOf_append, h2, e1, e2, e3, List.replicate_succ (n := n + 1)]; rfl

/-- One pass of a verified write that the masking device does not hold (R82, R146): its read-back differs. -/
theorem iteration_masked {s : State} {m k : Byte} (he : s.env = .e3 m k) (hr : s.eng.reg = m)
    (hw : s.eng.isWrite = true) (hv : s.eng.verify = true) (hne : s.eng.val &&& k ≠ s.eng.val) :
    ∃ w, iteration s = failedPass s.cfg.codeGenericIo w ∧ w.env = .e3 m k ∧ w.cfg = s.cfg ∧
      w.eng = { s.eng with prim := .ok, phase := .readback } ∧ w.dev.held m = s.eng.val &&& k ∧
      w.history = s.history ++ [.busWrite s.cfg.devAddr m s.eng.val .ok,
        .busRead s.cfg.devAddr m (.ok (s.eng.val &&& k))] := by
  have ha : envAnswer s s.cfg.devAddr (.write s.eng.reg s.eng.val) =
      some (⟨none, s.eng.val &&& k, true⟩, .e3 m k) := by simp [envAnswer, he, maskingTurn, hr]
  obtain ⟨p, u, hp, hue, huc, heng, hh, hd, rfl⟩ := primary_write_of_turn hw ha
  have hreg : u.eng.reg = m := by rw [heng]; exact hr
  have hb : u.dev.held m = s.eng.val &&& k := by
    rw [hd]; rw [← hr]; exact held_afterWrite_same _ _ _ _
  have hb2 : envAnswer (enterReadback (delay .settle u)) (enterReadback (delay .settle u)).cfg.devAddr (.read m) =
      some (⟨none, s.eng.val &&& k, false⟩, .e3 m k) := by
    simp only [envAnswer, enterReadback_env, delay_env, hue, maskingTurn]
    rw [← hb]; rfl
  obtain ⟨w, hrd, hwe, hwc, hweng, hwh, hwd⟩ := readback_of_turn hb2
  have hi := iteration_written hp (by rw [heng]; exact hv) (by rw [hreg]; exact hrd)
  refine ⟨w, ?_, hwe, ?_, ?_, ?_, ?_⟩
  · rw [hi]
    have hval : w.eng.val = s.eng.val := by rw [hweng]; simp [heng]
    simp [judgeReadback, readAnswerOf, hval, hne, hwc, huc]
  · rw [hwc]; exact huc
  · rw [hweng]; simp [heng]
  · rw [hwd, ← hb]; rfl
  · rw [hwh]; simp [hh, huc, hr, readAnswerOf, writeAnswerOf]

/-- The last `n + 1` passes of such a call. -/
theorem transactFrom_masked {m k : Byte} (n : Nat) : ∀ s : State, n ≤ 9 → s.eng.attempt = BitVec.ofNat 4 (10 - n) →
    s.env = .e3 m k → s.eng.reg = m → s.eng.isWrite = true → s.eng.verify = true → s.eng.val &&& k ≠ s.eng.val →
    ∃ new, (transactFrom (n + 1) s).history = s.history ++ new ∧
      writesOf new = List.replicate (n + 1) (s.cfg.devAddr, m, s.eng.val) ∧
      readsOf new = List.replicate (n + 1) (s.cfg.devAddr, m) ∧
      (transactFrom (n + 1) s).eng.phase = .done ∧
      (transactFrom (n + 1) s).eng.rsp = some (.err m s.cfg.codeGenericIo) ∧
      (transactFrom (n + 1) s).dev.held m = s.eng.val &&& k := by
  induction n with
  | zero =>
    intro s _ ha he hr hw hv hne
    obtain ⟨w, hi, hwe, hwc, hweng, hb, hh⟩ := iteration_masked he hr hw hv hne
    have hf : attemptsLeft w = false := by simp [attemptsLeft, nAttempts, hweng, ha]
    rw [failedPass, hf, if_neg (by simp)] at hi
    rw [transactFrom, hi]
    have heo := failIteration_eng_ended s.cfg.codeGenericIo _ hf
    simp only
    have hhist := failIteration_history s.cfg.codeGenericIo w
    rw [hh, List.append_assoc] at hhist
    exact ⟨_, hhist, by simp [writesOf], by simp [readsOf], by rw [heo], by rw [heo]; simp [hweng, hr],
      by rw [failIteration_dev]; exact hb⟩
  | succ n ih =>
    intro s hn ha he hr hw hv hne
    obtain ⟨w, hi, hwe, hwc, hweng, hb, hh⟩ := iteration_masked he hr hw hv hne
    have hf : attemptsLeft w = true := by
      simp only [attemptsLeft, nAttempts, hweng, ha, BitVec.toNat_ofNat, decide_eq_true_eq]; omega
    rw [failedPass, hf, if_pos rfl] at hi
    rw [transactFrom, hi]
    simp only
    have hea := failIteration_eng_again s.cfg.codeGenericIo _ hf
    have hhist := failIteration_history s.cfg.codeGenericIo w
    rw [hh, List.append_assoc] at hhist
    generalize ht : nextAttempt (failIteration s.cfg.codeGenericIo w) = t
    have ht' : t.history = (failIteration s.cfg.codeGenericIo w).history := by rw [← ht]; rfl
    rw [hhist] at ht'
    have e1 : t.eng.reg = m := by rw [← ht]; simp [hea, hweng, hr]
    have e2 : t.eng.val = s.eng.val := by rw [← ht]; simp [hea, hweng]
    have e3 : t.cfg = s.cfg := by rw [← ht]; simp [hwc]
    have e4 : t.eng.attempt = BitVec.ofNat 4 (10 - n) := by
      rw [← ht]
      apply BitVec.eq_of_toNat_eq
      simp only [nextAttempt_eng, hea, hweng, ha, BitVec.toNat_add, BitVec.toNat_ofNat]
      omega
    have e5 : t.eng.isWrite = true := by rw [← ht]; simp [hea, hweng, hw]
    have e6 : t.env = .e3 m k := by rw [← ht]; simp [hwe]
    have e7 : t.eng.verify = true := by rw [← ht]; simp [hea, hweng, hv]
    obtain ⟨new, h1, h2, h3, h4, h5, h6⟩ := ih t (by omega) e4 e6 e1 e5 e7 (by rw [e2]; exact hne)
    refine ⟨_ ++ new, (h1.trans (by rw [ht'])).trans (List.append_assoc _ _ _), ?_, ?_, h4, by rw [h5, e3], by rw [h6, e2]⟩
    · rw [writesOf_append, h2, e2, e3, List.replicate_succ (n := n + 1)]; rfl
    · rw [readsOf_append, h3, e3, List.replicate_succ (n := n + 1)]; rfl

end Sys2Proof.Machine
end

