-- ==== Sys2Proof/Laws/Commands.lean ====
section
/-! SUPPORT. What a command does, step by step: how the loop of R173 goes on, aborts and completes. -/

namespace Sys2Proof.Machine

/-- A command of an idle block runs. -/
theorem exec_cmd (op : Op) (arg : Byte) (s : State) (h : s.idle = true) :
    exec (op.instr arg) s = Host.Outcome.next (runCommand op arg s) := by
  cases op <;> simp [Op.instr, exec, execSetVolume, execGetVolume, execSetFilter, execGetFilter, execEnable,
    execDisable, command, h]

/-- The sequencer after the response of a step that is not the last. -/
def nextStep (s : State) : State := { engRelease s with seq := { s.seq with step := s.seq.step + 1#3 } }

/-- A step that succeeds and is not the last. -/
theorem runSteps_on {n : Nat} {s : State} {req : XReq} {b : Byte} (hm : micro s.cfg s.seq.op s.seq.arg s.seq.step = some req)
    (hb : s.seq.busy = true) (hp : (transact req s).eng.phase = .done) (hr : (transact req s).eng.rsp = some (.ok b))
    (hl : s.seq.step.toNat ≠ microLen s.seq.op) : runSteps (n + 1) s = runSteps n (nextStep (transact req s)) := by
  have hf := (transact_moves req s).frame.2.1
  have hf : (transact req s).seq = s.seq := hf
  have ht : takeResponse (.ok b) (transact req s) = nextStep (transact req s) := by
    simp [takeResponse, nextStep, hf, hl]
  have hb' : (nextStep (transact req s)).seq.busy = true := by simp [nextStep, hf, hb]
  rw [runSteps]
  simp only [hm, hp, hr, ht, hb', if_true]

/-- The last step succeeds. -/
theorem runSteps_last {n : Nat} {s : State} {req : XReq} {b : Byte} (hm : micro s.cfg s.seq.op s.seq.arg s.seq.step = some req)
    (hp : (transact req s).eng.phase = .done) (hr : (transact req s).eng.rsp = some (.ok b))
    (hl : s.seq.step.toNat = microLen s.seq.op) :
    runSteps (n + 1) s = completeOk b (engRelease (transact req s)) := by
  have hf : (transact req s).seq = s.seq := (transact_moves req s).frame.2.1
  have ht : takeResponse (.ok b) (transact req s) = completeOk b (engRelease (transact req s)) := by
    simp [takeResponse, hf, hl]
  rw [runSteps]
  simp only [hm, hp, hr, ht, completeOk_seq, Bool.false_eq_true, if_false]

/-- A step fails: the command aborts. -/
theorem runSteps_abort {n : Nat} {s : State} {req : XReq} {g : Byte} {c : Code}
    (hm : micro s.cfg s.seq.op s.seq.arg s.seq.step = some req)
    (hp : (transact req s).eng.phase = .done) (hr : (transact req s).eng.rsp = some (.err g c)) :
    runSteps (n + 1) s = errorEntry g c (engRelease (transact req s)) := by
  have ht : takeResponse (.err g c) (transact req s) = errorEntry g c (engRelease (transact req s)) := rfl
  rw [runSteps]
  simp only [hm, hp, hr, ht, errorEntry_seq, Bool.false_eq_true, if_false]

/-- A step waits for an answer: the command stays in progress. -/
theorem runSteps_hung {n : Nat} {s : State} {req : XReq} (hm : micro s.cfg s.seq.op s.seq.arg s.seq.step = some req)
    (hp : (transact req s).eng.phase = .primary ∨ (transact req s).eng.phase = .readback) :
    runSteps (n + 1) s = transact req s := by
  rw [runSteps]
  obtain hp | hp := hp <;> simp only [hm, hp]

/-- A relation that is reflexive, transitive and kept by a step's call and by the taking of its response holds between
the two ends of a command. -/
theorem runSteps_lift {R : State → State → Prop} (hrefl : ∀ s, R s s) (htrans : ∀ s t u, R s t → R t u → R s u)
    (hcall : ∀ req s, micro s.cfg s.seq.op s.seq.arg s.seq.step = some req → R s (transact req s))
    (htake : ∀ r s, R s (takeResponse r s)) (n : Nat) : ∀ s, R s (runSteps n s) := by
  induction n with
  | zero => exact hrefl
  | succ n ih =>
    intro s
    rw [runSteps]
    split
    · exact hrefl s
    · rename_i req hm
      have h1 := hcall req s hm
      simp only
      split
      · rename_i r _ _
        have h2 := htrans _ _ _ h1 (htake r (transact req s))
        split
        · exact htrans _ _ _ h2 (ih _)
        · exact h2
      · exact h1

/-- Taking a response touches neither the device, the parameters, the environment nor the words presented; it keeps the
command, and adds at most its completion to the history. -/
theorem takeResponse_frame (r : XRsp) (s : State) : (takeResponse r s).cfg = s.cfg ∧ (takeResponse r s).dev = s.dev ∧
    (takeResponse r s).env = s.env ∧ (takeResponse r s).inbox = s.inbox ∧ (takeResponse r s).delays = s.delays ∧
    (takeResponse r s).seq.op = s.seq.op ∧ (takeResponse r s).seq.arg = s.seq.arg ∧
    ((takeResponse r s).history = s.history ∨ ∃ b, (takeResponse r s).history = s.history ++ [.completed s.seq.op b]) := by
  unfold takeResponse
  cases r with
  | err g c => exact ⟨rfl, rfl, rfl, rfl, rfl, rfl, rfl, .inr ⟨true, rfl⟩⟩
  | ok b =>
    simp only
    split
    · exact ⟨rfl, rfl, rfl, rfl, rfl, rfl, rfl, .inr ⟨false, rfl⟩⟩
    · exact ⟨rfl, rfl, rfl, rfl, rfl, rfl, rfl, .inl rfl⟩

/-! What a request's call leaves of the sequencer and the rest of the block. -/

@[simp] theorem transact_cfg (r : XReq) (s : State) : (transact r s).cfg = s.cfg := (transact_moves r s).frame.1
@[simp] theorem transact_seq (r : XReq) (s : State) : (transact r s).seq = s.seq := (transact_moves r s).frame.2.1
@[simp] theorem transact_res (r : XReq) (s : State) : (transact r s).res = s.res := (transact_moves r s).frame.2.2.1
@[simp] theorem transact_inbox (r : XReq) (s : State) : (transact r s).inbox = s.inbox :=
  (transact_moves r s).frame.2.2.2.1
@[simp] theorem transact_busPort (r : XReq) (s : State) : (transact r s).busPort = s.busPort :=
  (transact_moves r s).frame.2.2.2.2.1

/-- The disequalities the six commands need. -/
theorem distinct_facts {c : Config} (h : c.Distinct) : c.aMode ≠ c.aSoftRamp ∧ c.aMode ≠ c.aVolCh1 ∧ c.aMode ≠ c.aVolCh2 ∧
   c.aMode ≠ c.aVolHold ∧ c.aMode ≠ c.aFilter ∧ c.aMode ≠ c.aAutomute ∧ c.aSoftRamp ≠ c.aAutomute ∧ c.aVolCh1 ≠ c.aVolCh2 ∧ c.aVolCh1 ≠ c.aVolHold ∧ c.aVolCh2 ≠ c.aVolHold := by
  simp only [Config.Distinct, Config.addresses, List.nodup_cons, List.mem_cons, List.not_mem_nil] at h
  tauto

/-- What a step that writes `v` to `g` leaves when it passes at the first attempt. -/
structure Stepped (g v : Byte) (s t : State) : Prop where
  cfg : t.cfg = s.cfg
  history : t.history = s.history ++ [.busWrite s.cfg.devAddr g v .ok, .busRead s.cfg.devAddr g (.ok v), .log 1#4 g (some v)]
  held : ∀ a : Byte, t.dev.held a = if a = g then v else s.dev.held a
  outputs : ∃ n, t.dev.hold = (s.dev.store s.cfg n g v).hold ∧
    t.dev.outCh1 = (s.dev.store s.cfg n g v).outCh1 ∧ t.dev.outCh2 = (s.dev.store s.cfg n g v).outCh2

/-- A write step that passes and is not the last. -/
theorem step_on {n : Nat} {s : State} {g v : Byte} {e e' : Env} (h1 : s.env.Passes e) (h2 : e.Passes e')
    (hm : micro s.cfg s.seq.op s.seq.arg s.seq.step = some (writeReq g v)) (hb : s.seq.busy = true)
    (hl : s.seq.step.toNat ≠ microLen s.seq.op) :
    ∃ t, runSteps (n + 1) s = runSteps n t ∧ t.env = e' ∧ t.seq = { s.seq with step := s.seq.step + 1#3 } ∧ t.eng.phase = .idle ∧ Stepped g v s t := by
  obtain ⟨h, he⟩ := transact_verified (s := s) g v h1 h2
  refine ⟨_, runSteps_on hm hb h.phase h.rsp hl, he, by simp [nextStep], rfl, by simp [nextStep], ?_, ?_, ?_⟩
  · exact h.history.trans (by simp [writeReq])
  · intro a; simp only [nextStep, engRelease_dev]; rw [h.held]; simp [writeReq]
  · simpa [nextStep, writeReq] using h.outputs

/-- The last step is a write that passes. -/
theorem step_last {n : Nat} {s : State} {g v : Byte} {e e' : Env} (h1 : s.env.Passes e) (h2 : e.Passes e')
    (hm : micro s.cfg s.seq.op s.seq.arg s.seq.step = some (writeReq g v))
    (hl : s.seq.step.toNat = microLen s.seq.op) :
    ∃ t, runSteps (n + 1) s = completeOk v t ∧ t.env = e' ∧ t.seq = s.seq ∧ t.eng.phase = .idle ∧ Stepped g v s t := by
  obtain ⟨h, he⟩ := transact_verified (s := s) g v h1 h2
  refine ⟨_, runSteps_last hm h.phase h.rsp hl, he, by simp, rfl, by simp, ?_, ?_, ?_⟩
  · exact h.history.trans (by simp [writeReq])
  · intro a; simp only [engRelease_dev]; rw [h.held]; simp [writeReq]
  · simpa [writeReq] using h.outputs

/-- The steps are counted from 1. -/
theorem micro_eq (c : Config) (op : Op) (arg : Byte) (n : Nat) (hn : n < 7) : micro c op arg (BitVec.ofNat 3 (n+1)) = (microSteps c op arg)[n]? := by
  have : (BitVec.ofNat 3 (n+1)).toNat = n + 1 := by simp; omega
  simp only [micro, this]

@[simp] theorem takeResponse_busPort (r : XRsp) (s : State) : (takeResponse r s).busPort = s.busPort := by
  unfold takeResponse
  cases r with
  | err g c => rfl
  | ok b => simp only; split <;> rfl

/-- The fields no command touches, the command it is, and the environment's promise. -/
theorem runSteps_frame (n : Nat) (s : State) : (runSteps n s).cfg = s.cfg ∧ (runSteps n s).inbox = s.inbox ∧
    (runSteps n s).busPort = s.busPort ∧ s.history <+: (runSteps n s).history ∧
    (runSteps n s).seq.op = s.seq.op ∧ (runSteps n s).seq.arg = s.seq.arg ∧
    (runSteps n s).env.retains = s.env.retains := by
  refine runSteps_lift (R := fun s t => t.cfg = s.cfg ∧ t.inbox = s.inbox ∧ t.busPort = s.busPort ∧
    s.history <+: t.history ∧ t.seq.op = s.seq.op ∧ t.seq.arg = s.seq.arg ∧ t.env.retains = s.env.retains)
    (fun s => ⟨rfl, rfl, rfl, List.prefix_rfl, rfl, rfl, rfl⟩) ?_ ?_ ?_ n s
  · rintro s t u ⟨h1, h2, h3, h4, h5, h6, h7⟩ ⟨g1, g2, g3, g4, g5, g6, g7⟩
    exact ⟨g1.trans h1, g2.trans h2, g3.trans h3, h4.trans g4, g5.trans h5, g6.trans h6, g7.trans h7⟩
  · intro req s _
    have h := (transact_moves req s)
    exact ⟨by simp, by simp, h.frame.2.2.2.2.1, h.history, by simp, by simp, h.frame.2.2.2.2.2⟩
  · intro r s
    obtain ⟨h1, -, h2, h3, -, h4, h5, h6⟩ := takeResponse_frame r s
    refine ⟨h1, h3, by simp, ?_, h4, h5, by rw [h2]⟩
    obtain h | ⟨b, h⟩ := h6 <;> rw [h]
    · exact List.prefix_append _ _

/-- The registers a step can write are those of R48. -/
theorem micro_written {c : Config} {op : Op} {arg : Byte} {k : BitVec 3} {req : XReq} (h : micro c op arg k = some req)
    (hw : req.isWrite = true) : req.reg ∈ opWritten c op := by
  have hall : ∀ q ∈ microSteps c op arg, q.isWrite = true → q.reg ∈ opWritten c op := by
    cases op <;> simp [microSteps, microSetVolume, microGetVolume, microSetFilter, microGetFilter, microEnable,
      microDisable, writeReq, readReq, opWritten]
  unfold micro at h
  split at h
  · cases h
  · exact hall _ (List.mem_of_getElem? h) hw

/-- The registers a step names are among the seven. -/
theorem micro_addresses {c : Config} {op : Op} {arg : Byte} {k : BitVec 3} {req : XReq}
    (h : micro c op arg k = some req) : req.reg ∈ c.addresses := by
  have hall : ∀ q ∈ microSteps c op arg, q.reg ∈ c.addresses := by
    cases op <;> simp [microSteps, microSetVolume, microGetVolume, microSetFilter, microGetFilter, microEnable,
      microDisable, writeReq, readReq, Config.addresses]
  unfold micro at h
  split at h
  · cases h
  · exact hall _ (List.mem_of_getElem? h)

end Sys2Proof.Machine
end

