-- ==== Sys2Proof/Laws/PerInstr.lean ====
section
/-! SUPPORT. The statements made for every instruction: the encoder's word carries the fixed bits of the
instruction's row of `spec/opcode_table.json`. -/

namespace Sys2Proof.Laws.FixedBits

/-- The fixed bits of a row: a word of its format agrees with the row's match under the row's mask. -/
def Statement (i : Instr) : Prop :=
  match i, encode i with
  | .busWrite _ _ _, .busp w => w &&& 0x800000#24 = 0x000000#24
  | .busRead _ _ _, .busp w => w &&& 0x800000#24 = 0x800000#24
  | .xread _ _ _, .xreq w => w &&& 0x20000#18 = 0x00000#18
  | .xwrite _ _, .xreq w => w &&& 0x30000#18 = 0x20000#18
  | .xwritev _ _, .xreq w => w &&& 0x30000#18 = 0x30000#18
  | .setVolume _, .cmd w => w &&& 0x700#11 = 0x000#11
  | .getVolume _, .cmd w => w &&& 0x700#11 = 0x100#11
  | .setFilter _, .cmd w => w &&& 0x700#11 = 0x200#11
  | .getFilter _, .cmd w => w &&& 0x700#11 = 0x300#11
  | .enable _, .cmd w => w &&& 0x700#11 = 0x400#11
  | .disable _, .cmd w => w &&& 0x700#11 = 0x500#11
  | _, _ => False

/-- The bits of a command word above its operand. -/
theorem cmd_fixed (c : BitVec 3) (x : Byte) : ((c ++ x : BitVec 11) &&& 0x700#11) = (c ++ 0#8 : BitVec 11) := by
  have h : (0x700#11 : BitVec 11) = (0b111#3 ++ 0#8 : BitVec 11) := by decide
  rw [h, BitVec.and_append]
  have hc : c &&& 0b111#3 = c := by revert c; decide
  simp [hc]

/-- The top two bits of an engine request word. -/
theorem xreq_fixed (a b : BitVec 1) (g v : Byte) (m : BitVec 2) :
    ((((a ++ b : BitVec 2) ++ g : BitVec 10) ++ v : BitVec 18) &&& ((m ++ 0#8 : BitVec 10) ++ 0#8 : BitVec 18)) =
      ((((a ++ b : BitVec 2) &&& m) ++ 0#8 : BitVec 10) ++ 0#8 : BitVec 18) := by
  rw [BitVec.and_append, BitVec.and_append]
  simp

/-- The top bit of a bus primitive word. -/
theorem busp_fixed (a : BitVec 1) (d : Addr7) (g v : Byte) :
    ((((a ++ d : BitVec 8) ++ g : BitVec 16) ++ v : BitVec 24) &&& 0x800000#24) =
      (((a ++ 0#7 : BitVec 8) ++ 0#8 : BitVec 16) ++ 0#8 : BitVec 24) := by
  have h : (0x800000#24 : BitVec 24) = (((1#1 ++ 0#7 : BitVec 8) ++ 0#8 : BitVec 16) ++ 0#8 : BitVec 24) := by decide
  rw [h, BitVec.and_append, BitVec.and_append, BitVec.and_append]
  have ha : a &&& 1#1 = a := by revert a; decide
  simp [ha]

theorem busWrite (addr : Addr7) (reg val : Byte) : Statement (.busWrite addr reg val) :=
  busp_fixed (BitVec.ofBool false) addr reg val

theorem busRead (addr : Addr7) (reg spare : Byte) : Statement (.busRead addr reg spare) :=
  busp_fixed (BitVec.ofBool true) addr reg spare

theorem xread (verify : Bool) (reg spare : Byte) : Statement (.xread verify reg spare) := by
  have h := xreq_fixed (BitVec.ofBool false) (BitVec.ofBool verify) reg spare 0b10#2
  cases verify <;> exact h

theorem xwrite (reg val : Byte) : Statement (.xwrite reg val) :=
  xreq_fixed (BitVec.ofBool true) (BitVec.ofBool false) reg val 0b11#2

theorem xwritev (reg val : Byte) : Statement (.xwritev reg val) :=
  xreq_fixed (BitVec.ofBool true) (BitVec.ofBool true) reg val 0b11#2

theorem setVolume (v : Byte) : Statement (.setVolume v) := cmd_fixed 0b000#3 v
theorem getVolume (spare : Byte) : Statement (.getVolume spare) := cmd_fixed 0b001#3 spare
theorem setFilter (shape : Byte) : Statement (.setFilter shape) := cmd_fixed 0b010#3 shape
theorem getFilter (spare : Byte) : Statement (.getFilter spare) := cmd_fixed 0b011#3 spare
theorem enable (spare : Byte) : Statement (.enable spare) := cmd_fixed 0b100#3 spare
theorem disable (spare : Byte) : Statement (.disable spare) := cmd_fixed 0b101#3 spare

end Sys2Proof.Laws.FixedBits
end

