-- ==== Sys2Proof/Laws/Words.lean ====
section
/-! SUPPORT. Fields of concatenated words, in the widths of the three formats: what the encoder puts in, the decoder
takes out. -/

namespace Sys2Proof

/-- The low part of a concatenation. -/
theorem append_low {n m : Nat} (a : BitVec n) (b : BitVec m) : (a ++ b).extractLsb' 0 m = b := by
  apply BitVec.eq_of_getLsbD_eq; intro i hi
  simp [BitVec.getLsbD_append, hi]

/-- The high part of a concatenation. -/
theorem append_high {n m : Nat} (a : BitVec n) (b : BitVec m) : (a ++ b).extractLsb' m n = a := by
  apply BitVec.eq_of_getLsbD_eq; intro i hi
  simp [BitVec.getLsbD_append, hi]

/-- The middle part of a concatenation of three. -/
theorem append_middle {n m k : Nat} (a : BitVec n) (b : BitVec m) (c : BitVec k) :
    ((a ++ b) ++ c).extractLsb' k m = b := by
  apply BitVec.eq_of_getLsbD_eq; intro i hi
  simp [BitVec.getLsbD_append, hi]

/-- A bit of the high part of a concatenation. -/
theorem append_high_bit {n m : Nat} (a : BitVec n) (b : BitVec m) {i : Nat} (h : m ≤ i) :
    (a ++ b).getLsbD i = a.getLsbD (i - m) := by
  simp [BitVec.getLsbD_append, Nat.not_lt.mpr h]

/-- A word is the concatenation of its two parts. -/
theorem append_parts {n m : Nat} (w : BitVec (n + m)) :
    (w.extractLsb' m n ++ w.extractLsb' 0 m : BitVec (n + m)) = w := by
  apply BitVec.eq_of_getLsbD_eq; intro i hi
  simp only [BitVec.getLsbD_append, BitVec.getLsbD_extractLsb']
  by_cases h : i < m
  · simp [h]
  · have h1 : i - m < n := by omega
    have h2 : m + (i - m) = i := by omega
    simp [h, h1, h2]

end Sys2Proof
end

