-- ==== Sys2Proof/Tests/Slice0.lean ====
section
/-! SUPPORT. The model's own tests: written-out words, ill-formed terms, the vectors of `spec/95_test_vectors.md` on
its illustrative configuration, and a witness for the hypotheses of every statement that has some. -/

namespace Sys2Proof.Tests

open Sys2Proof.Machine

/-! ### The test configuration `TC` of `95_test_vectors.md` section 0 -/

/-- `TC`, with the code `G` the first one; a test that needs the codes `CA` to `CC` takes any codes. -/
def tc : Config := ⟨0x55#7, 0xA0#8, 0xA1#8, 0xA2#8, 0xA3#8, 0xA4#8, 0xA5#8, 0xA6#8, 0, 0, false, .zeroIsLoudest⟩

/-- The device with every used register at 0xEE ("poison"). -/
def poison : Device :=
  ⟨0, [(0xA0, 0xEE#8), (0xA1, 0xEE#8), (0xA2, 0xEE#8), (0xA3, 0xEE#8), (0xA4, 0xEE#8), (0xA5, 0xEE#8),
    (0xA6, 0xEE#8)], false, 0xEE#8, 0xEE#8, false, false⟩

/-- An idle block right after reset, on `TC`, with a given device and environment. -/
def start (d : Device) (e : Env) : State := { State.reset with cfg := tc, dev := d, env := e }

/-- `poison` with one register set. -/
def poisonWith (a : Nat) (b : Byte) : Device := { poison with mem := poison.mem.write a b }

/-- `n` failures with a code, in E2. -/
def fails (n : Nat) (c : Code) : List Fate := List.replicate n (.fail c)

/-- `n` passes, in E2. -/
def passes (n : Nat) : List Fate := List.replicate n .pass

/-- A told answer `ok` whose byte is `b`. -/
def okTurn (b : Byte) : Turn := ⟨none, b, true⟩

/-- A told answer `err(c)` that leaves the register alone. -/
def errTurn (c : Code) : Turn := ⟨some c, 0#8, false⟩

/-- What a test looks at after one instruction; none if it did not answer a next state. -/
def after {α : Type} (o : Host.Outcome State Fault Refusal) (f : State → α) : Option α :=
  match o with
  | .next t => some (f t)
  | .fault _ => none
  | .refused _ => none

/-- How many primitives an instruction made from an empty history. -/
def primitives (s : State) : Nat := (placesOf s.history).length

/-! ### Ill-formed and non-canonical terms, one per check -/

theorem test_wellFormed_busWrite_other_address : (Instr.busWrite 0x54#7 0xA4#8 0#8).WellFormed tc = false := by decide
theorem test_wellFormed_busRead_other_address : (Instr.busRead 0x54#7 0xA4#8 0#8).WellFormed tc = false := by decide
theorem test_wellFormed_busWrite : (Instr.busWrite 0x55#7 0xA4#8 0#8).WellFormed tc = true := by decide
theorem test_canonical_busRead_spare : (Instr.busRead 0x55#7 0xA4#8 1#8).Canonical = false := by decide
theorem test_canonical_xread_verify : (Instr.xread true 0xA2#8 0#8).Canonical = false := by decide
theorem test_canonical_xread_spare : (Instr.xread false 0xA2#8 0xFF#8).Canonical = false := by decide
theorem test_canonical_getVolume : (Instr.getVolume 0x5A#8).Canonical = false := by decide
theorem test_canonical_getFilter : (Instr.getFilter 1#8).Canonical = false := by decide
theorem test_canonical_enable : (Instr.enable 1#8).Canonical = false := by decide
theorem test_canonical_disable : (Instr.disable 1#8).Canonical = false := by decide

/-! ### Words written out from the encodings: 95 section 2.1 and the examples of R131, R132, R144 to R146, R175 to R180 -/

theorem test_decode_busWrite : decode (.busp 0b010101011010010000010100#24) = .ok (.busWrite 0x55#7 0xA4#8 0x14#8) := by
  decide
theorem test_decode_busRead : decode (.busp 0b110101011010001000000000#24) = .ok (.busRead 0x55#7 0xA2#8 0#8) := by
  decide
theorem test_decode_xread : decode (.xreq 0b001010001000000000#18) = .ok (.xread false 0xA2#8 0#8) := by decide
theorem test_decode_xread_verify : decode (.xreq 0x1A2FF#18) = .ok (.xread true 0xA2#8 0xFF#8) := by decide
theorem test_decode_xwrite : decode (.xreq 0b101010010101100011#18) = .ok (.xwrite 0xA5#8 0x63#8) := by decide
theorem test_decode_xwritev : decode (.xreq 0b111010010000010100#18) = .ok (.xwritev 0xA4#8 0x14#8) := by decide
theorem test_decode_setVolume : decode (.cmd 0b00011001000#11) = .ok (.setVolume 200#8) := by decide
theorem test_decode_getVolume : decode (.cmd 0x15A#11) = .ok (.getVolume 0x5A#8) := by decide
theorem test_decode_setFilter : decode (.cmd 0b01000000101#11) = .ok (.setFilter 5#8) := by decide
theorem test_decode_getFilter : decode (.cmd 0x300#11) = .ok (.getFilter 0#8) := by decide
theorem test_decode_enable : decode (.cmd 0x400#11) = .ok (.enable 0#8) := by decide
theorem test_decode_disable : decode (.cmd 0x500#11) = .ok (.disable 0#8) := by decide
theorem test_decode_reserved_6 : decode (.cmd 0x600#11) = .error (.reservedOpcode 6#3) := by decide
theorem test_decode_reserved_7 : decode (.cmd 0x7FF#11) = .error (.reservedOpcode 7#3) := by decide
theorem test_encode_xwritev : encode (.xwritev 0xA3#8 0x37#8) = .xreq 0x3A337#18 := by decide
theorem test_encode_busRead : encode (.busRead 0x55#7 0xA4#8 0#8) = .busp 0xD5A400#24 := by decide
theorem test_decodeBytes_short : decodeBytes .cmd [0xC8#8] = .error .tooShort := by decide
theorem test_decodeBytes_reserved : decodeBytes .cmd [0x00#8, 0x06#8] = .error (.word (.reservedOpcode 6#3)) := by decide
theorem test_decodeBytes_padding : decodeBytes .cmd [0xC8#8, 0x08#8] = .error .paddingSet := by decide
theorem test_decodeBytes_rest : decodeBytes .cmd [0x05#8, 0x02#8, 0x77#8] = .ok (.setFilter 5#8, [0x77#8]) := by decide
theorem test_table_setFilter : decodeTableWord 16 0x205 = some (.setFilter 5#8) := by decide
theorem test_table_reserved : decodeTableWord 16 0x600 = none := by decide
theorem test_table_busRead : decodeTableWord 24 0xD5A400 = some (.busRead 0x55#7 0xA4#8 0#8) := by decide
theorem test_table_xwritev : decodeTableWord 24 0x3A414 = some (.xwritev 0xA4#8 0x14#8) := by decide
theorem test_table_xread : decodeTableWord 24 0x0A4FF = some (.xread false 0xA4#8 0xFF#8) := by decide

/-- A pseudo-instruction and its word (R119, R118). -/
theorem test_bind_word : encode Pseudo.bind.expand = .cmd 0x400#11 := by decide

/-! ### One instruction at a time: 95 sections 2.3 to 2.5 -/

/-- B5. -/
theorem test_busWrite_masking :
    after (exec (.busWrite 0x55#7 0xA5#8 0x6B#8) (start poison (.e3 0xA5#8 0x67#8))) (fun t => t.dev.held 0xA5#8) =
      some 0x63#8 := by decide
/-- B3. -/
theorem test_busWrite_failed (c : Code) :
    after (exec (.busWrite 0x55#7 0xA4#8 0x14#8) (start poison (.e2 (fails 1 c)))) (fun t => (t.dev.held 0xA4#8, t.history)) =
      some (0xEE#8, [.busWrite 0x55#7 0xA4#8 0x14#8 (.err c)]) := by rfl
/-- B2. -/
theorem test_busRead_verbatim :
    after (exec (.busRead 0x55#7 0xA2#8 0#8) (start (poisonWith 0xA2 0x37#8) .e1)) State.history =
      some [.busRead 0x55#7 0xA2#8 (.ok 0x37#8)] := by decide
/-- B4. -/
theorem test_busRead_failed (c : Code) :
    after (exec (.busRead 0x55#7 0xA2#8 0#8) (start poison (.e2 (fails 1 c)))) State.history =
      some [.busRead 0x55#7 0xA2#8 (.err c)] := by rfl
/-- X3: nine failures, then a success. -/
theorem test_xread_tenth_succeeds :
    after (exec (.xread false 0xA2#8 0#8) (start (poisonWith 0xA2 0x37#8) (.e2 (fails 9 1))))
      (fun t => (t.eng.rsp, primitives t, delaysOf .settle t.delays, delaysOf .backoff t.delays)) =
      some (some (.ok 0x37#8), 10, 10, 9) := by decide
/-- X4: ten failures end in the error. -/
theorem test_xread_ten_failures :
    after (exec (.xread false 0xA2#8 0#8) (start poison (.e2 (fails 10 0))))
      (fun t => (t.eng.lastCode.isSome, t.eng.attempt, primitives t, delaysOf .settle t.delays, delaysOf .backoff t.delays)) =
      some (true, 10#4, 10, 10, 9) := by decide
/-- X4: the tenth failure's code is reported, not an earlier one. -/
theorem test_last_code (ca cb : Code) :
    after (step { start poison .e1 with
      eng := ⟨0xA2#8, 0#8, false, false, 10#4, .settle, .err cb, some ca, none⟩ }) (fun t => t.eng.rsp) =
      some (some (.err 0xA2#8 cb)) := by rfl
/-- X5. -/
theorem test_xwrite_verbatim :
    after (exec (.xwrite 0xA5#8 0x63#8) (start poison .e1)) (fun t => (t.eng.rsp, t.dev.held 0xA5#8, t.history)) =
      some (some (.ok 0x63#8), 0x63#8, [.busWrite 0x55#7 0xA5#8 0x63#8 .ok, .log 1#4 0xA5#8 (some 0x63#8)]) := by decide
/-- X6. -/
theorem test_xwrite_retried :
    after (exec (.xwrite 0xA5#8 0x63#8) (start poison (.e2 (fails 1 1)))) (fun t => (t.eng.rsp, primitives t, logsOf t.history)) =
      some (some (.ok 0x63#8), 2, 2) := by decide
/-- X11: a mismatch causes a full re-write. -/
theorem test_xwritev_rewrites :
    after (exec (.xwritev 0xA4#8 0x14#8)
      (start poison (.told [okTurn 0#8, okTurn 0#8, okTurn 0x14#8, okTurn 0x14#8])))
      (fun t => (t.eng.rsp, (writesOf t.history).length, (readsOf t.history).length)) =
      some (some (.ok 0x14#8), 2, 2) := by decide
/-- X12: nine mismatches, then a transport error on the tenth write. -/
theorem test_xwritev_ten_failures :
    after (exec (.xwritev 0xA4#8 0x14#8)
      (start poison (.told ((List.replicate 18 (okTurn 0#8)) ++ [errTurn 0]))))
      (fun t => (t.eng.lastCode.isSome, t.eng.attempt, primitives t)) = some (true, 10#4, 19) := by decide
/-- X12: that error decides, whatever the mismatches before it recorded. -/
theorem test_xwritev_last_failure_decides (c : Code) :
    after (step { start poison .e1 with
      eng := ⟨0xA4#8, 0x14#8, true, true, 10#4, .settle, .err c, some tc.codeGenericIo, none⟩ }) (fun t => t.eng.rsp) =
      some (some (.err 0xA4#8 c)) := by rfl
/-- Q1. -/
theorem test_setVolume_verbatim :
    after (exec (.setVolume 200#8) (start poison .e1)) (fun t => (writesOf t.history, t.dev.mem)) =
      some ([(0x55#7, 0xA4#8, 0x14#8), (0x55#7, 0xA2#8, 0x37#8), (0x55#7, 0xA3#8, 0x37#8), (0x55#7, 0xA4#8, 0x04#8)],
        [(0xA0, 0xEE#8), (0xA1, 0xEE#8), (0xA2, 0x37#8), (0xA3, 0x37#8), (0xA4, 0x04#8), (0xA5, 0xEE#8),
          (0xA6, 0xEE#8)]) := by decide
/-- Q13. -/
theorem test_setVolume_aborts_at_3 :
    after (exec (.setVolume 200#8) (start poison (.e2 (passes 4 ++ fails 10 0))))
      (fun t => (t.res.errReg, t.res.errStep, t.dev.held 0xA4#8, t.dev.held 0xA2#8, t.dev.held 0xA3#8, t.dev.hold)) =
      some (some 0xA3#8, some 3#3, 0x14#8, 0x37#8, 0xEE#8, true) := by decide
/-- Q4, the poison entry. -/
theorem test_getVolume_poison :
    after (exec (.getVolume 0#8) (start poison .e1)) (fun t => (t.res.value, writesOf t.history)) =
      some (some 17#8, []) := by decide
/-- Q16. -/
theorem test_getVolume_fails :
    after (exec (.getVolume 0#8) (start poison (.e2 (fails 10 0))))
      (fun t => (t.res.status, t.res.errReg, t.res.errOp, t.res.errStep)) =
      some (true, some 0xA2#8, some .getVolume, some 1#3) := by decide
/-- Q6: bit 3 of the operand reaches the register. -/
theorem test_setFilter_out_of_range :
    after (exec (.setFilter 8#8) (start poison .e1)) (fun t => (t.res.status, t.dev.held 0xA5#8)) =
      some (false, 0x68#8) := by decide
/-- Q7. -/
theorem test_setFilter_masked :
    after (exec (.setFilter 11#8) (start poison (.e3 0xA5#8 0x67#8))) (fun t => (t.res.status, t.res.errReg, t.dev.held 0xA5#8)) =
      some (true, some 0xA5#8, 0x63#8) := by decide
/-- Q8, the entries 0x05 and poison. -/
theorem test_getFilter_low_bits :
    after (exec (.getFilter 0#8) (start (poisonWith 0xA5 0x05#8) .e1)) (fun t => t.res.value) = some (some 5#8) := by
  decide
theorem test_getFilter_poison :
    after (exec (.getFilter 0#8) (start poison .e1)) (fun t => t.res.value) = some (some 6#8) := by decide
/-- Q9. -/
theorem test_enable_verbatim :
    after (exec (.enable 0#8) (start poison .e1)) (fun t => (writesOf t.history, primitives t, t.view)) =
      some ([(0x55#7, 0xA1#8, 0x09#8), (0x55#7, 0xA6#8, 0x00#8), (0x55#7, 0xA0#8, 0x02#8)], 6, .enabled) := by decide
/-- Q15. -/
theorem test_enable_aborts_at_2 :
    after (exec (.enable 0#8) (start poison (.e2 (passes 2 ++ fails 10 0)))) (fun t => (t.res.errReg, t.res.errStep, t.dev.held 0xA0#8)) =
      some (some 0xA6#8, some 2#3, 0xEE#8) := by decide
/-- Q10, from the enabled device. -/
theorem test_disable_verbatim :
    after (exec (.disable 0#8) (start (poisonWith 0xA0 0x02#8) .e1))
      (fun t => (writesOf t.history, t.dev.held 0xA0#8, t.view)) =
      some ([(0x55#7, 0xA0#8, 0x00#8)], 0x00#8, .disabled) := by decide

/-- N23: a device in an environment without a promise is disabled, and what it held elsewhere is a draw. -/
theorem test_disable_promises_nothing :
    after (exec (.busWrite 0x55#7 0xA0#8 0x00#8) (start poison (.told [okTurn 0#8])))
      (fun t => (t.dev.held 0xA0#8, t.dev.held 0xA2#8)) = some (0x00#8, Config.devReset 1 0xA2#8) := by rfl
/-- N8: a byte of no stated meaning in the hold register leaves the outputs to a draw. -/
theorem test_hold_other_byte :
    after (exec (.busWrite 0x55#7 0xA4#8 0x55#8) (start poison .e1)) (fun t => (t.dev.outCh1, t.dev.outCh2)) =
      some (Config.outCh1After 0, Config.outCh2After 0) := by rfl

/-! ### The machine around the instructions -/

/-- Z1. -/
theorem test_reset_issues_nothing : after (step State.reset) State.history = some [] := by decide
/-- Q18. -/
theorem test_step_reserved :
    (match step { start poison .e1 with inbox := [.cmd 0x600#11] } with
      | .refused r => some r
      | _ => none) = some (.reservedOpcode 6#3) := by decide
/-- The word of a row is the next thing the machine runs after reset, whatever the parameters and draws are. -/
theorem test_withFetchWord_runs : after (step (State.reset.withFetchWord 16 0x0C8)) (fun _ => ()) = some () := by decide
/-- A command on a transport that has not answered waits in its first step. -/
theorem test_command_waits :
    after (exec (.enable 0#8) (start poison (.told []))) (fun t => (t.seq.busy, t.eng.phase, t.eng.attempt)) =
      some (true, .primary, 1#4) := by decide
/-- R100: `valid`, `status`, `err_op` 2, `err_step` 1, `err_reg` 0xA5, a value byte of 0x3C, at their places. -/
theorem test_resWord :
    (resWord { start poison .e1 with res := ⟨true, true, some 0x3C#8, some 0xA5#8, some 0, some .setFilter, some 1#3⟩ }).1 =
      0xD1A53C#24 := by decide

/-! ### Witnesses: for each statement with hypotheses, a state and operands that meet all of them -/

/-- A block whose engine is in a given phase. -/
def inPhase (p : Phase) (prim : Answer) (attempt : BitVec 4) : State :=
  { start poison .e1 with eng := { EngState.reset with phase := p, prim := prim, attempt := attempt, isWrite := true } }

theorem witness_EncodeOfDecode :
    (∃ i, decode (.cmd 0x15A#11) = .ok i) ∧ (∃ i, decode (.xreq 0x1A2FF#18) = .ok i) ∧
    ∃ i, decode (.busp 0xD5A400#24) = .ok i := ⟨⟨_, rfl⟩, ⟨_, rfl⟩, ⟨_, rfl⟩⟩

theorem witness_ReservedOpcodesRefused :
    6 ≤ ((0x600#11).extractLsb' 8 3).toNat ∧ 6 ≤ ((0x7FF#11).extractLsb' 8 3).toNat ∧
    (∃ s : State, s.idle = true ∧ s.busPort = none ∧ s.inbox = [.cmd 0x600#11]) :=
  ⟨by decide, by decide, { start poison .e1 with inbox := [.cmd 0x600#11] }, by decide, by decide, by decide⟩

/-- The last operand below 8 and the first above it. -/
theorem witness_FilterOperands : (7#8).toNat < 8 ∧ ¬ (8#8).toNat < 8 := by decide

theorem witness_idle_e1_distinct :
    (start poison .e1).idle = true ∧ (start poison .e1).env = .e1 ∧ (start poison .e1).cfg.Distinct := by decide

theorem witness_VerbatimDevice : (start poison .e1).idle = true ∧ (start poison .e1).env = .e1 := by decide

/-- A schedule that fails next, one that passes next, and the empty one. -/
theorem witness_FaultSchedule :
    (start poison (.e2 [.fail 1])).idle = true ∧ (start poison (.e2 [.fail 1])).env = .e2 [.fail 1] ∧
    (start poison (.e2 [.pass])).env = .e2 [.pass] ∧ (start poison (.e2 [])).env = .e2 [] :=
  ⟨rfl, rfl, rfl, rfl⟩

theorem witness_MaskingDevice :
    (start poison (.e3 0xA5#8 0x67#8)).idle = true ∧ (start poison (.e3 0xA5#8 0x67#8)).env = .e3 0xA5#8 0x67#8 := by
  decide

theorem witness_FailedAccess :
    (start poison (.told [⟨some 1, 0#8, true⟩])).idle = true ∧
    (start poison (.told [⟨some 1, 0#8, true⟩])).env = .told [⟨some 1, 0#8, true⟩] ∧ 0xA4#8 ≠ tc.aMode ∧
    0xA5#8 ≠ 0xA4#8 := ⟨rfl, rfl, by decide, by decide⟩

/-- The unconstrained environment, at the device's address and at another one. -/
theorem witness_BusPrimitivesCompleteAndFrame :
    (start poison .e0).idle = true ∧ (start poison .e0).env ≠ .told [] ∧ 0x54#7 ≠ (start poison .e0).cfg.devAddr ∧
    0xA4#8 ≠ (start poison .e0).cfg.aMode ∧ (start poison .e1).env.retains = true ∧ (start poison .e1).env ≠ .told [] := by
  decide

theorem witness_SilentTransportStops :
    (start poison (.told [])).idle = true ∧ (start poison (.told [])).env = .told [] := by decide

theorem witness_HoldDefersAndReleaseCommits :
    (start { poison with hold := true } .e1).idle = true ∧ (start { poison with hold := true } .e1).env = .e1 ∧
    (start { poison with hold := true } .e1).cfg.Distinct := by decide

/-- Answers that end a call at once, and answers that end it in the error. -/
theorem witness_EngineRunsTransact :
    (start poison (.told [okTurn 0x37#8])).idle = true ∧
    (callTrace tc ⟨0xA2#8, 0#8, false, false⟩ 10 [okTurn 0x37#8]).isSome = true ∧
    (callTrace tc ⟨0xA2#8, 0#8, true, true⟩ 10 (List.replicate 10 (errTurn 1))).isSome = true := by decide

/-- Nine answers where ten are needed; and a verified write whose read-back is not answered. -/
theorem witness_EngineHangsWithoutAnswers :
    (start poison (.told (List.replicate 9 (errTurn 1)))).idle = true ∧
    callTrace tc ⟨0xA2#8, 0#8, false, false⟩ 10 (List.replicate 9 (errTurn 1)) = none ∧
    callTrace tc ⟨0xA2#8, 0#8, true, true⟩ 10 [okTurn 0#8] = none := by decide

/-- Each row's phase; the failure rows at the ninth and at the tenth attempt. -/
theorem witness_EngineRows :
    (inPhase .settle (.err 1) 9#4).eng.phase = .settle ∧ (inPhase .settle (.err 1) 9#4).eng.attempt.toNat ≤ 9 ∧
    9 < (inPhase .settle (.err 1) 10#4).eng.attempt.toNat ∧ (inPhase .backoff .ok 9#4).eng.phase = .backoff ∧
    ({ (inPhase .done .ok 1#4).eng with rsp := some (.ok 0#8) } : EngState).rsp.isSome = true ∧
    (inPhase .done .ok 1#4).seq.busy = false ∧ (inPhase .done .ok 1#4).eng.phase = .done := by decide

theorem witness_BoundedRetry :
    (start poison (.told (List.replicate 9 (errTurn 1) ++ okTurn 0x14#8 :: okTurn 0x14#8 :: []))).idle = true ∧
    (List.replicate 9 (errTurn 1)).length = 9 ∧ (∀ f ∈ List.replicate 9 (errTurn 1), f.err.isSome = true) ∧
    (okTurn 0x14#8).err = none ∧ (okTurn 0x14#8).byte = (⟨0xA4#8, 0x14#8, true, true⟩ : XReq).val ∧
    (errTurn 2).err = some 2 ∧ (⟨0xA4#8, 0#8, false, false⟩ : XReq).isWrite = false ∧
    (⟨0xA4#8, 0#8, true, false⟩ : XReq).verify = false :=
  ⟨rfl, rfl, by decide, rfl, rfl, rfl, rfl, rfl⟩

theorem witness_idle_answering :
    (start poison .e0).idle = true ∧ (start poison .e0).env.answersAlways = true ∧
    (start poison (.e2 [.fail 1])).env.answersAlways = true := by decide

theorem witness_DelayCounts : (start poison .e0).idle = true ∧ (start poison .e0).env.answersAlways = true := by decide

theorem witness_VerifyIgnoredOnReads : (start poison .e0).idle = true := by decide

/-- A verified write that ends `Ok`, and a read that does. -/
theorem witness_SuccessGuarantee :
    (start poison .e1).idle = true ∧ (start poison .e1).env.answersAlways = true ∧
    after (exec (.xwritev 0xA4#8 0x14#8) (start poison .e1)) (fun t => t.eng.rsp) = some (some (.ok 0x14#8)) ∧
    after (exec (.xread false 0xA4#8 0#8) (start poison .e1)) (fun t => t.eng.rsp) = some (some (.ok 0xEE#8)) := by decide

theorem witness_EngineCallsEnd :
    (start poison (.e2 [.fail 1])).idle = true ∧ (start poison (.e2 [.fail 1])).env.answersAlways = true := by decide

/-- A register the request does not write, with either ground for keeping it, and a request that writes none. -/
theorem witness_EngineFrame :
    (start poison .e0).idle = true ∧ 0xA5#8 ≠ (⟨0xA4#8, 0x14#8, true, true⟩ : XReq).reg ∧
    (⟨0xA4#8, 0x14#8, true, true⟩ : XReq).reg ≠ (start poison .e0).cfg.aMode ∧ (start poison .e1).env.retains = true ∧
    (⟨0xA4#8, 0#8, false, false⟩ : XReq).isWrite = false := by decide

theorem witness_RequestsOnVerbatimDevice : (start poison .e1).idle = true ∧ (start poison .e1).env = .e1 := by decide

theorem witness_CommandIsItsSteps : (start poison .e0).idle = true := by decide

/-- A command that ends `Ok` and one that ends `Err`. -/
theorem witness_CommandsComplete :
    (start poison .e1).idle = true ∧ (start poison .e1).env.answersAlways = true ∧
    after (exec (.setVolume 1#8) (start poison .e1)) (fun t => t.res.status) = some false ∧
    after (exec (.setVolume 1#8) (start poison (.e2 (fails 10 1)))) (fun t => t.res.status) = some true := by decide

theorem witness_WritesFollowTheTable :
    (start poison .e0).idle = true ∧ (start poison .e0).env.answersAlways = true := by decide

theorem witness_PrimitivesStayOnTheDevice : (start poison .e0).idle = true := by decide

/-- A register no command writes, and the registers the get commands leave. -/
theorem witness_CommandFrame :
    (start poison .e0).idle = true ∧ 0xA7#8 ∉ opWritten tc .setVolume ∧ 0xA2#8 ∉ opWritten tc .getVolume ∧
    tc.aMode ∉ opWritten tc .setFilter ∧ (start poison .e1).env.retains = true ∧ 0xA2#8 ∉ opWritten tc .disable := by decide

theorem witness_OperandIgnored :
    (start poison .e0).idle = true ∧ Op.getVolume ≠ .setVolume ∧ Op.getVolume ≠ .setFilter ∧
    Op.disable ≠ .setVolume ∧ Op.disable ≠ .setFilter := by decide

theorem witness_DeadFieldsDoNotMatter :
    (start poison .e1).idle = true ∧ (⟨false, .disable, 0xFF#8, 4#3⟩ : SeqState).busy = false ∧
    (⟨1#8, 2#8, true, true, 10#4, .idle, .err 3, some 3, none⟩ : EngState).phase = .idle ∧
    (start poison .e1).env.answersAlways = true := by decide

theorem witness_CommandWaitsForTheTransport :
    (start poison (.told [])).idle = true ∧ (start poison (.told [])).env = .told [] := by decide

theorem witness_SetVolumeOnVerbatimDevice :
    (start poison .e1).idle = true ∧ (start poison .e1).env = .e1 ∧ (start poison .e1).cfg.Distinct := by decide

theorem witness_GetVolumeOnVerbatimDevice : (start poison .e1).idle = true ∧ (start poison .e1).env = .e1 := by decide
theorem witness_SetFilterOnVerbatimDevice : (start poison .e1).idle = true ∧ (start poison .e1).env = .e1 := by decide
theorem witness_GetFilterOnVerbatimDevice : (start poison .e1).idle = true ∧ (start poison .e1).env = .e1 := by decide

theorem witness_EnableOnVerbatimDevice :
    (start poison .e1).idle = true ∧ (start poison .e1).env = .e1 ∧ (start poison .e1).cfg.Distinct := by decide

theorem witness_DisableOnVerbatimDevice : (start poison .e1).idle = true ∧ (start poison .e1).env = .e1 := by decide

/-- Each clause: channel 1 holding 0x37 for the volume 200, the filter register holding 0x67 for the shape 7. -/
theorem witness_RoundTrips :
    (start poison .e1).idle = true ∧ (start poison .e1).env = .e1 ∧ (start poison .e1).cfg.Distinct ∧
    (start (poisonWith 0xA2 0x37#8) .e1).dev.held 0xA2#8 = 255#8 - 200#8 ∧
    (start (poisonWith 0xA5 0x67#8) .e1).dev.held 0xA5#8 = 7#8 ||| 0x60#8 ∧ (7#8).toNat < 8 := by decide

theorem witness_ViewTransitions :
    (start poison .e1).idle = true ∧ (start poison .e1).env = .e1 ∧ (start poison .e1).cfg.Distinct := by decide

/-- The first and the last step that can fail. -/
theorem witness_SetVolumeAborts :
    (start poison (.e2 (List.replicate (2 * 3) .pass ++ List.replicate 10 (.fail 1)))).idle = true ∧
    tc.Distinct ∧ (microSteps tc .setVolume 200#8)[3]? = some ⟨0xA4#8, 0x04#8, true, true⟩ ∧
    (microSteps tc .setVolume 200#8)[0]? = some ⟨0xA4#8, 0x14#8, true, true⟩ ∧
    (start poison (.e2 (List.replicate (2 * 0) .pass ++ List.replicate 10 (.fail 1)))).idle = true := by decide

theorem witness_EnableAborts :
    (start poison (.e2 (List.replicate (2 * 2) .pass ++ List.replicate 10 (.fail 1)))).idle = true ∧
    tc.Distinct ∧ (microSteps tc .enable 0#8)[2]? = some ⟨0xA0#8, 0x02#8, true, true⟩ ∧
    (microSteps tc .enable 0#8)[0]? = some ⟨0xA1#8, 0x09#8, true, true⟩ := by decide

theorem witness_MaskedFilterFails :
    (start poison (.e3 tc.aFilter 0x67#8)).idle = true ∧
    (start poison (.e3 tc.aFilter 0x67#8)).env = .e3 (start poison (.e3 tc.aFilter 0x67#8)).cfg.aFilter 0x67#8 ∧
    (11#8 ||| 0x60#8) &&& 0x67#8 ≠ 11#8 ||| 0x60#8 := by decide

theorem witness_StepRunsTheDecodedInstruction :
    (∃ s : State, s.idle = true ∧ s.busPort = some 0xD5A400#24 ∧
      decode (.busp 0xD5A400#24) = .ok (.busRead 0x55#7 0xA4#8 0#8)) ∧
    ∃ s : State, s.idle = true ∧ s.busPort = none ∧ s.inbox = [.cmd 0x400#11] ∧ portOpen s.cfg (.cmd 0x400#11) = true ∧
      (HostMove.cmd 0x400#11).word = some (.cmd 0x400#11) ∧ decode (.cmd 0x400#11) = .ok (.enable 0#8) :=
  ⟨⟨{ start poison .e1 with busPort := some 0xD5A400#24 }, by decide, by decide, by decide⟩,
    { start poison .e1 with inbox := [.cmd 0x400#11] }, by decide, by decide, by decide, by decide, by decide, by decide⟩

theorem witness_IdleBlockWaits : State.reset.idle = true ∧ State.reset.busPort = none ∧ State.reset.inbox = [] :=
  ⟨rfl, rfl, rfl⟩

/-- An idle block to which the host presents a command. -/
theorem witness_HostReachesTheBusOnlyThroughTheBlock :
    ∃ s t : State, s.busPort = none ∧ step s = .next t ∧ s.idle = true ∧ s.cfg.exposeEngine = false :=
  ⟨{ start poison .e1 with inbox := [.cmd 0x400#11] }, _, rfl, rfl, rfl, rfl⟩

/-- The first step of two, and the last one. -/
theorem witness_SequencerTakesOk :
    ∃ s u : State, (s.seq.busy = true ∧ s.eng.phase = .done ∧ s.eng.rsp = some (.ok 0x37#8) ∧
      s.seq.step.toNat ≠ microLen s.seq.op) ∧
      u.seq.busy = true ∧ u.eng.phase = .done ∧ u.eng.rsp = some (.ok 0x37#8) ∧ u.seq.step.toNat = microLen u.seq.op :=
  ⟨{ start poison .e1 with
      seq := ⟨true, .setVolume, 0#8, 2#3⟩
      eng := { EngState.reset with phase := .done, rsp := some (.ok 0x37#8) } },
    { start poison .e1 with
      seq := ⟨true, .getVolume, 0#8, 1#3⟩
      eng := { EngState.reset with phase := .done, rsp := some (.ok 0x37#8) } },
    by decide, by decide⟩

/-- An idle block for the primitives and for the soft ramp, and the two phases with a delay. -/
theorem witness_SettlingAndSoftRamp :
    (start poison .e1).idle = true ∧ (start poison .e1).env = .e1 ∧ (start poison .e1).env ≠ .told [] ∧
    (start poison .e1).dev.held (start poison .e1).cfg.aMode ≠ 0x02#8 ∧ (start poison .e1).dev.ramp = false ∧
    (inPhase .settle .ok 1#4).eng.phase = .settle ∧ (inPhase .backoff .ok 1#4).eng.phase = .backoff := by decide

/-- A block in back-off with a word presented, and one that completes its command in this step. -/
theorem witness_BusyBlockAcceptsNothing :
    ∃ s t : State, s.idle = false ∧ s.inbox = [.cmd 0x400#11] ∧ step s = .next t :=
  ⟨{ inPhase .backoff .ok 1#4 with inbox := [.cmd 0x400#11] }, _, by decide, by decide, rfl⟩

theorem witness_ErrorEntry :
    ∃ s : State, s.seq.busy = true ∧ s.eng.phase = .done ∧ s.eng.rsp = some (.err 0xA2#8 1) :=
  ⟨{ start poison .e1 with
      seq := ⟨true, .setVolume, 0#8, 2#3⟩
      eng := { EngState.reset with phase := .done, rsp := some (.err 0xA2#8 1) } }, rfl, rfl, rfl⟩

theorem witness_NothingRunsUnlessIdle : (inPhase .backoff .ok 1#4).idle = false := by decide

theorem witness_EngineHiddenUnlessExposed :
    ∃ s : State, s.idle = true ∧ s.busPort = none ∧ s.inbox = [.xreq 0x0A200#18] ∧ s.cfg.exposeEngine = false :=
  ⟨{ start poison .e1 with inbox := [.xreq 0x0A200#18] }, by decide, by decide, by decide, by decide⟩

theorem witness_RebindResetsTheBlock : ∃ s : State, s.idle = true ∧ s.busPort = none ∧ s.inbox = [.rebind] :=
  ⟨{ start poison .e1 with inbox := [.rebind] }, by decide, by decide, by decide⟩

/-- A result with every error field, and one with a byte. -/
theorem witness_ResultWordLayout :
    ∃ s u : State, s.res.errOp = some .setFilter ∧ s.res.errStep = some 1#3 ∧ s.res.errReg = some 0xA5#8 ∧
      s.res.errCode = some 7 ∧ u.res.value = some 0x3C#8 :=
  ⟨{ start poison .e1 with res := ⟨true, true, none, some 0xA5#8, some 7, some .setFilter, some 1#3⟩ },
    { start poison .e1 with res := ⟨true, false, some 0x3C#8, none, none, none, none⟩ },
    rfl, rfl, rfl, rfl, rfl⟩

theorem witness_ParametersAreConstant : ∃ t, step (start poison .e1) = .next t := ⟨_, rfl⟩

/-- A state with the invariant: idle on `TC`, with a command presented. -/
def ready (e : Env) : State := { start poison e with inbox := [.cmd 0x400#11] }

theorem ready_inv (e : Env) : BlockInv (ready e) where
  memWf := by rfl
  distinct := by show tc.Distinct; decide
  stepRange := by show 1 ≤ (1#3).toNat ∧ (1#3).toNat ≤ 4; decide
  stepOfOp := by intro h; cases h
  attemptRange := by show 1 ≤ (1#4).toNat ∧ (1#4).toNat ≤ 10; decide
  backoffLeft := by intro h; cases h
  backoffCode := by intro h; cases h
  doneRsp := by intro h; cases h
  primKind := by intro h; cases h
  readbackKind := by intro h; cases h
  validIdle := by intro h; cases h
  resShaped := by intro h; cases h
  delayBounds := by intro d h; cases h

theorem witness_StepKeepsInvariant : ∃ s t : State, BlockInv s ∧ step s = .next t := ⟨ready .e1, _, ready_inv .e1, rfl⟩

/-- A bus primitive placed before a transport that does not answer. -/
theorem witness_OnlySilenceFaults : ∃ s : State, BlockInv s ∧ step s = .fault .envSilent :=
  ⟨{ ready (.told []) with busPort := some 0xD5A400#24 },
    { ready_inv (.told []) with }, by rfl⟩

end Sys2Proof.Tests
end

section
/-! What one step can do, said once: the kinds of instruction, the word an idle block takes (R90, R95, R98), the move of
a block in progress (R142, R173), and the fields no step touches. -/

namespace Sys2Proof.Machine

/-- Every instruction is a bus primitive, an engine request or a command. -/
theorem instr_kinds (i : Instr) : (∃ addr reg val, i = .busWrite addr reg val) ∨
    (∃ addr reg spare, i = .busRead addr reg spare) ∨ (∃ r, i = reqInstr r) ∨ ∃ op arg, i = Op.instr op arg := by
  cases i with
  | busWrite addr reg val => exact .inl ⟨addr, reg, val, rfl⟩
  | busRead addr reg spare => exact .inr (.inl ⟨addr, reg, spare, rfl⟩)
  | xread verify reg spare => exact .inr (.inr (.inl ⟨⟨reg, spare, false, verify⟩, rfl⟩))
  | xwrite reg val => exact .inr (.inr (.inl ⟨⟨reg, val, true, false⟩, rfl⟩))
  | xwritev reg val => exact .inr (.inr (.inl ⟨⟨reg, val, true, true⟩, rfl⟩))
  | setVolume v => exact .inr (.inr (.inr ⟨.setVolume, v, rfl⟩))
  | getVolume spare => exact .inr (.inr (.inr ⟨.getVolume, spare, rfl⟩))
  | setFilter shape => exact .inr (.inr (.inr ⟨.setFilter, shape, rfl⟩))
  | getFilter spare => exact .inr (.inr (.inr ⟨.getFilter, spare, rfl⟩))
  | enable spare => exact .inr (.inr (.inr ⟨.enable, spare, rfl⟩))
  | disable spare => exact .inr (.inr (.inr ⟨.disable, spare, rfl⟩))

/-- A command word that decodes is a command with the word's low byte as its operand (R91). -/
theorem decodeCmd_ok {w : BitVec 11} {i : Instr} (h : decodeCmd w = .ok i) :
    ∃ op : Op, i = op.instr (w.extractLsb' 0 8) := by
  unfold decodeCmd at h
  split at h
  · rename_i op _
    cases h
    exact ⟨op, rfl⟩
  · cases h

/-! What an idle block finds at its ports -/

theorem fetch_of_busPort {s : State} {w : BitVec 24} (h : s.busPort = some w) :
    fetch s = .instr (decodeBusp w) { s with busPort := none } := by
  simp only [fetch, h]

theorem fetch_of_no_busPort {s : State} (h : s.busPort = none) : fetch s = fetchHost s := by
  simp only [fetch, h]

theorem fetchHost_of_nil {s : State} (h : s.inbox = []) : fetchHost s = .nothing := by
  simp only [fetchHost, h]

theorem fetchHost_of_closed {s : State} {m : HostMove} {rest : List HostMove} (h : s.inbox = m :: rest)
    (hopen : portOpen s.cfg m = false) : fetchHost s = .refused .engineNotExposed := by
  simp [fetchHost, h, hopen]

theorem fetchHost_of_no_word {s : State} {m : HostMove} {rest : List HostMove} (h : s.inbox = m :: rest)
    (hopen : portOpen s.cfg m = true) (hword : m.word = none) : fetchHost s = .rebind { s with inbox := rest } := by
  simp [fetchHost, h, hopen, hword]

theorem fetchHost_of_decoded {s : State} {m : HostMove} {rest : List HostMove} {r : Request} {i : Instr}
    (h : s.inbox = m :: rest) (hopen : portOpen s.cfg m = true) (hword : m.word = some r) (hdec : decode r = .ok i) :
    fetchHost s = .instr i { s with inbox := rest } := by
  simp [fetchHost, h, hopen, hword, hdec]

theorem fetchHost_of_reserved {s : State} {m : HostMove} {rest : List HostMove} {r : Request} {op : BitVec 3}
    (h : s.inbox = m :: rest) (hopen : portOpen s.cfg m = true) (hword : m.word = some r)
    (hdec : decode r = .error (.reservedOpcode op)) : fetchHost s = .refused (.reservedOpcode op) := by
  simp [fetchHost, h, hopen, hword, hdec]

/-! The moves of a step -/

/-- Everything a step that answers a state can do: a block in progress goes one row further; an idle block waits, renews
the handle, or runs the word at the port to the environment or, with none there, the host's. -/
inductive StepMove (s : State) : State → Prop where
  | inProgress {t : State} (hi : s.idle = false) (h : tick s = .next t) : StepMove s t
  | wait (hport : s.busPort = none) : StepMove s s
  | renew (rest : List HostMove) (hport : s.busPort = none) : StepMove s (rebind { s with inbox := rest })
  | busWord {t : State} (w : BitVec 24) (hw : s.busPort = some w)
      (h : exec (decodeBusp w) { s with busPort := none } = .next t) : StepMove s t
  | hostWord {t : State} (m : HostMove) (rest : List HostMove) (r : Request) (i : Instr)
      (hport : s.busPort = none) (hopen : portOpen s.cfg m = true) (hword : m.word = some r) (hdec : decode r = .ok i)
      (h : exec i { s with inbox := rest } = .next t) : StepMove s t

theorem step_move {s t : State} (h : step s = .next t) : StepMove s t := by
  unfold step at h
  split at h
  case isFalse hi => exact .inProgress (by simpa using hi) h
  cases hport : s.busPort with
  | some w =>
    rw [fetch_of_busPort hport] at h
    exact .busWord w hport h
  | none =>
    rw [fetch_of_no_busPort hport] at h
    cases hin : s.inbox with
    | nil =>
      rw [fetchHost_of_nil hin] at h
      cases h
      exact .wait hport
    | cons m rest =>
      cases hopen : portOpen s.cfg m with
      | false =>
        rw [fetchHost_of_closed hin hopen] at h
        cases h
      | true =>
        cases hword : m.word with
        | none =>
          rw [fetchHost_of_no_word hin hopen hword] at h
          cases h
          exact .renew rest hport
        | some r =>
          cases hdec : decode r with
          | ok i =>
            rw [fetchHost_of_decoded hin hopen hword hdec] at h
            exact .hostWord m rest r i hport hopen hword hdec h
          | error e =>
            obtain ⟨op⟩ := e
            rw [fetchHost_of_reserved hin hopen hword hdec] at h
            cases h

theorem execBusWrite_next {addr : Addr7} {reg val : Byte} {s t : State} (h : execBusWrite addr reg val s = .next t) :
    ∃ a, busWrite addr reg val s = some (a, t) := by
  unfold execBusWrite at h
  split at h
  · split at h
    · rename_i a u hb
      cases h
      exact ⟨a, hb⟩
    · cases h
  · cases h

theorem execBusRead_next {addr : Addr7} {reg spare : Byte} {s t : State} (h : execBusRead addr reg spare s = .next t) :
    ∃ a, busRead addr reg s = some (a, t) := by
  unfold execBusRead at h
  split at h
  · split at h
    · rename_i a u hb
      cases h
      exact ⟨a, hb⟩
    · cases h
  · cases h

/-- What is handed to a block that is not idle is refused (R90, R240). -/
theorem exec_of_not_idle (i : Instr) {s : State} (hi : s.idle = false) : exec i s = .refused .notIdle := by
  cases i <;> simp [exec, execBusWrite, execBusRead, execXread, execXwrite, execXwritev, execSetVolume, execGetVolume,
    execSetFilter, execGetFilter, execEnable, execDisable, command, hi]

theorem exec_next_idle {i : Instr} {s t : State} (h : exec i s = .next t) : s.idle = true := by
  by_contra hi
  rw [exec_of_not_idle i (by simpa using hi)] at h
  cases h

/-- A row of R142 is a chain of the engine's moves. -/
theorem engTick_moves {s t : State} (h : engTick s = some t) : EngMoves s t := by
  unfold engTick at h
  split at h
  · cases h
  · unfold rowPrimary at h
    split at h
    · cases h
    · rename_i hp
      cases h
      exact primary_moves hp
  · cases h
    unfold rowSettle
    have hd : EngMoves s (delay .settle s) := .single (.delay _ _)
    simp only
    split
    · exact hd.trans (succeed_moves _ _)
    · split
      · exact hd.tail (.eng _ _ ⟨rfl, rfl, rfl, rfl⟩)
      · exact hd.trans (succeed_moves _ _)
    · exact hd.trans (failIteration_moves _ _)
  · unfold rowReadback at h
    split at h
    · cases h
    · rename_i hr
      cases h
      have hread := Relation.ReflTransGen.single (EngMove.read hr)
      split
      · exact hread.trans (succeed_moves _ _)
      · exact hread.trans (failIteration_moves _ _)
    · rename_i hr
      cases h
      exact (Relation.ReflTransGen.single (EngMove.read hr)).trans (failIteration_moves _ _)
  · cases h
    exact nextAttempt_moves s
  · cases h

/-- Everything a step of a block in progress can do: begin the step's call, take a response, or make a row's moves. -/
theorem tick_next {s t : State} (h : tick s = .next t) :
    (∃ req, micro s.cfg s.seq.op s.seq.arg s.seq.step = some req ∧ t = engLatch req s) ∨
    (∃ r, s.eng.rsp = some r ∧ t = if s.seq.busy then takeResponse r s else engRelease s) ∨ EngMoves s t := by
  unfold tick at h
  split at h
  · split at h
    · rename_i req hm
      cases h
      exact .inl ⟨req, hm, rfl⟩
    · cases h
  · split at h
    · rename_i r hr
      cases h
      exact .inr (.inl ⟨r, hr, rfl⟩)
    · cases h
  · split at h
    · rename_i ht
      cases h
      exact .inr (.inr (engTick_moves ht))
    · cases h

/-! The parameters and the ports, which no meaning writes (R6, R75) -/

/-- The parameters and what is presented at the ports stay. -/
structure KeepsPorts (s t : State) : Prop where
  cfg : t.cfg = s.cfg
  inbox : t.inbox = s.inbox
  busPort : t.busPort = s.busPort

theorem engineCall_keepsPorts (r : XReq) (s : State) : KeepsPorts s (engineCall r s) := by
  unfold engineCall
  simp only
  split
  · exact ⟨by simp, by simp, by simp⟩
  · exact ⟨by simp, by simp, by simp⟩

/-- No instruction writes a parameter or what is presented. -/
theorem exec_keepsPorts {i : Instr} {s t : State} (h : exec i s = .next t) : KeepsPorts s t := by
  have hi := exec_next_idle h
  obtain ⟨addr, reg, val, rfl⟩ | ⟨addr, reg, spare, rfl⟩ | ⟨r, rfl⟩ | ⟨op, arg, rfl⟩ := instr_kinds i
  · obtain ⟨a, hb⟩ := execBusWrite_next h
    obtain ⟨_, _, _, _, rfl⟩ := busWrite_spec hb
    exact ⟨rfl, rfl, rfl⟩
  · obtain ⟨a, hb⟩ := execBusRead_next (spare := spare) h
    obtain ⟨_, _, _, _, rfl⟩ := busRead_spec hb
    exact ⟨rfl, rfl, rfl⟩
  · rw [exec_req r s hi] at h
    cases h
    exact engineCall_keepsPorts r s
  · rw [exec_cmd op arg s hi] at h
    cases h
    obtain ⟨hcfg, hinbox, hport, -⟩ := runSteps_frame 4 (accept op arg s)
    exact ⟨hcfg, hinbox, hport⟩

/-- No step of a block in progress does either. -/
theorem tick_keepsPorts {s t : State} (h : tick s = .next t) : KeepsPorts s t := by
  obtain ⟨req, -, rfl⟩ | ⟨r, -, rfl⟩ | hm := tick_next h
  · exact ⟨rfl, rfl, rfl⟩
  · obtain ⟨hcfg, -, -, hinbox, -⟩ := takeResponse_frame r s
    split
    · exact ⟨hcfg, hinbox, takeResponse_busPort r s⟩
    · exact ⟨rfl, rfl, rfl⟩
  · obtain ⟨hcfg, -, -, hinbox, hport, -⟩ := hm.frame
    exact ⟨hcfg, hinbox, hport⟩

theorem step_cfg {s t : State} (h : step s = .next t) : t.cfg = s.cfg := by
  cases step_move h with
  | inProgress _ h => exact (tick_keepsPorts h).cfg
  | wait => rfl
  | renew => rfl
  | busWord _ _ h => exact (exec_keepsPorts h).cfg
  | hostWord _ _ _ _ _ _ _ _ h => exact (exec_keepsPorts h).cfg

/-- A step puts no word at the port to the environment. -/
theorem step_busPort_none {s t : State} (hport : s.busPort = none) (h : step s = .next t) : t.busPort = none := by
  cases step_move h with
  | inProgress _ h => exact (tick_keepsPorts h).busPort.trans hport
  | wait => exact hport
  | renew => exact hport
  | busWord _ _ h => exact (exec_keepsPorts h).busPort
  | hostWord _ _ _ _ _ _ _ _ h => exact (exec_keepsPorts h).busPort.trans hport

end Sys2Proof.Machine
end

section
/-! What a command's calls put on the bus (R49), and how a command ends (R173, R206). -/

namespace Sys2Proof.Machine

/-- A stretch of history is added whose primitives are at `DEV_ADDR` and at one of the seven registers (R49). -/
def AddsOwnPlaces (s t : State) : Prop :=
  ∃ new, t.history = s.history ++ new ∧ ∀ p ∈ placesOf new, p.1 = s.cfg.devAddr ∧ p.2 ∈ s.cfg.addresses

theorem AddsOwnPlaces.of_history_eq {s t : State} (h : t.history = s.history) : AddsOwnPlaces s t :=
  ⟨[], by simp [h], by simp [placesOf]⟩

theorem AddsOwnPlaces.trans {s t u : State} (h : AddsOwnPlaces s t) (hcfg : t.cfg = s.cfg) (g : AddsOwnPlaces t u) :
    AddsOwnPlaces s u := by
  obtain ⟨n1, h1, p1⟩ := h
  obtain ⟨n2, h2, p2⟩ := g
  rw [hcfg] at p2
  refine ⟨n1 ++ n2, by rw [h2, h1, List.append_assoc], fun p hp => ?_⟩
  rw [placesOf_append] at hp
  exact (List.mem_append.1 hp).elim (p1 p) (p2 p)

/-- The primitives among a call's events are at `DEV_ADDR` and at the request's register. -/
theorem places_of_callEvents {c : Config} {r : XReq} {new : List Event} (h : ∀ x ∈ new, CallEvent c r x)
    {p : Addr7 × Byte} (hp : p ∈ placesOf new) : p = (c.devAddr, r.reg) := by
  obtain ⟨v, a, hx⟩ | ⟨a, hx⟩ := mem_placesOf hp
  · obtain ⟨-, haddr, hreg, -⟩ := h _ hx
    exact Prod.ext haddr hreg
  · obtain ⟨haddr, hreg⟩ := h _ hx
    exact Prod.ext haddr hreg

/-- The call of a command's step stays on the seven registers. -/
theorem transact_addsOwnPlaces {req : XReq} (s : State) (h : req.reg ∈ s.cfg.addresses) :
    AddsOwnPlaces s (transact req s) := by
  obtain ⟨new, hh, hev⟩ := (transact_moves req s).events
  refine ⟨new, hh, fun p hp => ?_⟩
  rw [places_of_callEvents hev hp]
  exact ⟨rfl, h⟩

theorem takeResponse_addsOwnPlaces (r : XRsp) (s : State) : AddsOwnPlaces s (takeResponse r s) := by
  obtain ⟨-, -, -, -, -, -, -, hh | ⟨b, hh⟩⟩ := takeResponse_frame r s
  · exact .of_history_eq hh
  · exact ⟨_, hh, by simp [placesOf]⟩

/-- Whatever the environment does, a command stays on the seven registers (R49). -/
theorem runCommand_addsOwnPlaces (op : Op) (arg : Byte) (s : State) : AddsOwnPlaces s (runCommand op arg s) := by
  have hsteps : (runSteps 4 (accept op arg s)).cfg = (accept op arg s).cfg ∧
      AddsOwnPlaces (accept op arg s) (runSteps 4 (accept op arg s)) := by
    refine runSteps_lift (R := fun s t => t.cfg = s.cfg ∧ AddsOwnPlaces s t) (fun s => ⟨rfl, .of_history_eq rfl⟩)
      ?_ ?_ ?_ 4 _
    · rintro s t u ⟨hc, h⟩ ⟨gc, g⟩
      exact ⟨gc.trans hc, h.trans hc g⟩
    · intro req s hm
      exact ⟨transact_cfg req s, transact_addsOwnPlaces s (micro_addresses hm)⟩
    · intro r s
      exact ⟨(takeResponse_frame r s).1, takeResponse_addsOwnPlaces r s⟩
  have haccept : AddsOwnPlaces s (accept op arg s) := ⟨_, accept_history op arg s, by simp [placesOf]⟩
  exact haccept.trans rfl hsteps.2

/-- Where the engine is not exposed, the only instruction the host's word can be is a command. -/
theorem hostWord_hidden {c : Config} {m : HostMove} {r : Request} {i : Instr} (hx : c.exposeEngine = false)
    (hopen : portOpen c m = true) (hword : m.word = some r) (hdec : decode r = .ok i) :
    ∃ op arg, i = Op.instr op arg := by
  cases m with
  | cmd w =>
    cases hword
    obtain ⟨op, rfl⟩ := decodeCmd_ok hdec
    exact ⟨op, _, rfl⟩
  | xreq w => simp [portOpen, hx] at hopen
  | rebind => cases hword

/-- Where the engine is not exposed, a step of an idle block empties the history or adds primitives of the seven
registers only. -/
theorem step_addsOwnPlaces {s t : State} (hport : s.busPort = none) (hidle : s.idle = true)
    (hx : s.cfg.exposeEngine = false) (h : step s = .next t) : t.history = [] ∨ AddsOwnPlaces s t := by
  cases step_move h with
  | inProgress hi _ => simp [hidle] at hi
  | wait => exact .inr (.of_history_eq rfl)
  | renew => exact .inl rfl
  | busWord w hw => simp [hport] at hw
  | hostWord m rest r i _ hopen hword hdec h =>
    obtain ⟨op, arg, rfl⟩ := hostWord_hidden hx hopen hword hdec
    rw [exec_cmd op arg { s with inbox := rest } hidle] at h
    cases h
    exact .inr (runCommand_addsOwnPlaces op arg { s with inbox := rest })

/-- Every write of the table is verified (R171). -/
theorem micro_verified {c : Config} {op : Op} {arg : Byte} {k : BitVec 3} {req : XReq}
    (h : micro c op arg k = some req) (hw : req.isWrite = true) : req.verify = true := by
  have hall : ∀ q ∈ microSteps c op arg, q.isWrite = true → q.verify = true := by
    cases op <;> simp [microSteps, microSetVolume, microGetVolume, microSetFilter, microGetFilter, microEnable,
      microDisable, writeReq, readReq]
  unfold micro at h
  split at h
  · cases h
  · exact hall _ (List.mem_of_getElem? h) hw

theorem microSteps_length (c : Config) (op : Op) (arg : Byte) : (microSteps c op arg).length = microLen op := by
  cases op <;> rfl

theorem microLen_le (op : Op) : microLen op ≤ 4 := by
  cases op <;> decide

/-- Every step index from 1 to the command's length has its request. -/
theorem micro_isSome (c : Config) (op : Op) (arg : Byte) {k : BitVec 3} (h1 : 1 ≤ k.toNat)
    (h2 : k.toNat ≤ microLen op) : ∃ req, micro c op arg k = some req := by
  unfold micro
  split
  · omega
  · rename_i n hn
    have hlt : n < (microSteps c op arg).length := by rw [microSteps_length]; omega
    exact ⟨_, List.getElem?_eq_getElem hlt⟩

/-- A pass that succeeds with `b`, of a read or a verified write, ends with a read of its register that delivered `b`. -/
theorem passTrace_last_read {c : Config} {r : XReq} {k : BitVec 4} {ts : List Turn} {p : Pass} {b : Byte}
    (hv : r.isWrite = true → r.verify = true) (h : passTrace c r k ts = some p) (hb : p.verdict = .success b) :
    ∃ early, p.events = early ++ [.busRead c.devAddr r.reg (.ok b), .log k r.reg (some b)] := by
  unfold passTrace at h
  split at h
  · cases h
  rename_i turn rest
  split at h
  · cases h; cases hb
  rename_i hok
  split at h
  · rename_i hr
    cases h; cases hb
    exact ⟨[], by simp [primaryEvent, hr, readAnswerOf, hok]⟩
  rename_i hw
  split at h
  · rename_i hn
    rw [hv (by simpa using hw)] at hn
    cases hn
  split at h
  · cases h
  rename_i turn2 rest
  simp only at h
  split at h
  · cases h; cases hb
  rename_i hok2
  split at h
  · rename_i heq
    cases h; cases hb
    exact ⟨[primaryEvent c r turn], by simp [readAnswerOf, hok2, heq]⟩
  · cases h; cases hb

/-- So does a whole call that succeeds with `b`. -/
theorem callTrace_last_read {c : Config} {r : XReq} {b : Byte} (hv : r.isWrite = true → r.verify = true) (n : Nat) :
    ∀ {ts : List Turn} {q : CallResult}, callTrace c r n ts = some q → q.rsp = .ok b →
      ∃ k early, q.events = early ++ [.busRead c.devAddr r.reg (.ok b), .log k r.reg (some b)] := by
  induction n with
  | zero => intro ts q h; cases h
  | succ n ih =>
    intro ts q h hb
    unfold callTrace at h
    split at h
    · cases h
    rename_i p hp
    split at h
    · rename_i b' hs
      cases h; cases hb
      exact ⟨_, passTrace_last_read hv hp hs⟩
    split at h
    · cases h; cases hb
    split at h
    · cases h
    · rename_i q' hq
      cases h
      obtain ⟨k, early, he⟩ := ih hq hb
      exact ⟨k, p.events ++ early, by simp [he]⟩

/-- What a step's call leaves in an environment that answers: a response, either `Ok` after a read that delivered its
byte, or the error of the request's register. -/
structure StepAnswered (req : XReq) (s t : State) : Prop where
  phase : t.eng.phase = .done
  always : t.env.answersAlways = true
  answer : (∃ b k early, t.eng.rsp = some (.ok b) ∧
      t.history = s.history ++ early ++ [.busRead s.cfg.devAddr req.reg (.ok b), .log k req.reg (some b)]) ∨
    ∃ c, t.eng.rsp = some (.err req.reg c)

theorem transact_answered {req : XReq} {s : State} (hv : req.isWrite = true → req.verify = true)
    (ha : s.env.answersAlways = true) : StepAnswered req s (transact req s) := by
  obtain ⟨used, q, hd⟩ := transact_ends req s ha
  refine ⟨hd.phase, hd.serves.always ha, ?_⟩
  obtain ⟨b, hb⟩ | ⟨c, hc, -⟩ := hd.shape
  · obtain ⟨k, early, he⟩ := callTrace_last_read hv 10 (hd.trace []) hb
    refine .inl ⟨b, k, early, by rw [hd.rsp, hb], ?_⟩
    rw [hd.history, List.append_assoc]
    exact congrArg _ he
  · exact .inr ⟨c, by rw [hd.rsp, hc]; rfl⟩

/-- How a command in progress at `s` ends at `t`: idle, with a result of the shape R29 and R173 give it. -/
structure CommandEnds (s t : State) : Prop where
  idle : t.idle = true
  valid : t.res.valid = true
  ok : t.res.status = false → t.seq.step.toNat = microLen s.seq.op ∧
    t.res.errReg = none ∧ t.res.errCode = none ∧ t.res.errOp = none ∧ t.res.errStep = none ∧
    ∃ r b k early, micro s.cfg s.seq.op s.seq.arg t.seq.step = some r ∧ t.res.value = ret s.seq.op b ∧
      t.history = s.history ++ early ++
        [.busRead s.cfg.devAddr r.reg (.ok b), .log k r.reg (some b), .completed s.seq.op false]
  err : t.res.status = true → t.res.value = none ∧ t.res.errOp = some s.seq.op ∧ t.res.errStep = some t.seq.step ∧
    (∃ c, t.res.errCode = some c) ∧
    ∃ r, micro s.cfg s.seq.op s.seq.arg t.seq.step = some r ∧ t.res.errReg = some r.reg

/-- The end of a command is the same seen from an earlier state of it. -/
theorem CommandEnds.of_later {s s' t : State} (h : CommandEnds s' t) (hcfg : s'.cfg = s.cfg)
    (hop : s'.seq.op = s.seq.op) (harg : s'.seq.arg = s.seq.arg) (hhist : s.history <+: s'.history) :
    CommandEnds s t := by
  obtain ⟨idle, valid, ok, err⟩ := h
  rw [hcfg, hop, harg] at ok err
  refine ⟨idle, valid, fun hs => ?_, err⟩
  obtain ⟨before, hbefore⟩ := hhist
  obtain ⟨hstep, hreg, hcode, herrOp, herrStep, r, b, k, early, hm, hval, hh⟩ := ok hs
  exact ⟨hstep, hreg, hcode, herrOp, herrStep, r, b, k, before ++ early, hm, hval, by
    rw [hh, ← hbefore]; simp only [List.append_assoc]⟩

/-- The last step's `Ok` completes the command. -/
theorem completeOk_ends {s u : State} {req : XReq} {b : Byte} {k : BitVec 4} {early : List Event}
    (hm : micro s.cfg s.seq.op s.seq.arg s.seq.step = some req) (hl : s.seq.step.toNat = microLen s.seq.op)
    (hseq : u.seq = s.seq)
    (hh : u.history = s.history ++ early ++ [.busRead s.cfg.devAddr req.reg (.ok b), .log k req.reg (some b)]) :
    CommandEnds s (completeOk b (engRelease u)) where
  idle := by simp [State.idle]
  valid := by simp
  ok _ := by
    refine ⟨by simp [hseq, hl], by simp, by simp, by simp, by simp, req, b, k, early, ?_, ?_, ?_⟩
    · simp [hseq, hm]
    · simp [hseq]
    · simp [hseq, hh]
  err h := by simp at h

/-- The error of a step's register aborts the command. -/
theorem errorEntry_ends {s u : State} {req : XReq} {c : Code}
    (hm : micro s.cfg s.seq.op s.seq.arg s.seq.step = some req) (hseq : u.seq = s.seq) :
    CommandEnds s (errorEntry req.reg c (engRelease u)) where
  idle := by simp [State.idle]
  valid := by simp
  ok h := by simp at h
  err _ := ⟨by simp, by simp [hseq], by simp, ⟨c, by simp⟩, req, by simp [hseq, hm], by simp⟩

/-- In an environment that answers, the loop of R173 ends from any step of the command, given as many rounds as there are
steps left. -/
theorem runSteps_ends (n : Nat) : ∀ s : State, s.seq.busy = true → s.env.answersAlways = true →
    1 ≤ s.seq.step.toNat → s.seq.step.toNat ≤ microLen s.seq.op → microLen s.seq.op < s.seq.step.toNat + n →
    CommandEnds s (runSteps n s) := by
  induction n with
  | zero => intro s _ _ _ hle hn; omega
  | succ n ih =>
    intro s hb ha h1 hle hn
    obtain ⟨req, hm⟩ := micro_isSome s.cfg s.seq.op s.seq.arg h1 hle
    obtain ⟨hphase, halways, ⟨b, k, early, hr, hh⟩ | ⟨c, hr⟩⟩ := transact_answered (s := s) (micro_verified hm) ha
    · by_cases hl : s.seq.step.toNat = microLen s.seq.op
      · rw [runSteps_last hm hphase hr hl]
        exact completeOk_ends hm hl (transact_seq req s) hh
      · rw [runSteps_on hm hb hphase hr hl]
        have hstep : (s.seq.step + 1#3).toNat = s.seq.step.toNat + 1 := by
          have := microLen_le s.seq.op
          rw [BitVec.toNat_add, BitVec.toNat_ofNat]
          omega
        have hends : CommandEnds (nextStep (transact req s)) (runSteps n (nextStep (transact req s))) := by
          apply ih <;> simp only [nextStep, engRelease_env, transact_seq, hstep]
          · exact hb
          · exact halways
          all_goals omega
        exact hends.of_later (by simp [nextStep]) (by simp [nextStep]) (by simp [nextStep])
          (transact_moves req s).history
    · rw [runSteps_abort hm hphase hr]
      exact errorEntry_ends hm (transact_seq req s)

/-- In an environment that answers, every command ends from its acceptance. -/
theorem runCommand_ends (op : Op) (arg : Byte) {s : State} (ha : s.env.answersAlways = true) :
    CommandEnds (accept op arg s) (runCommand op arg s) :=
  runSteps_ends 4 (accept op arg s) rfl ha (by simp) (by cases op <;> simp [microLen]) (by
    have := microLen_le op
    simp; omega)

end Sys2Proof.Machine
end

section
/-! The statements of `spec/00_scope.md`. -/

namespace Sys2Proof.Machine

/-- Settles O28: every step's call is answered, so the loop of R173 ends within the command's length. -/
theorem commandsComplete : Obligations.CommandsComplete := by
  intro s op arg hi ha
  obtain ⟨-, -, -, -, hop, harg, -⟩ := runSteps_frame 4 (accept op arg s)
  obtain ⟨idle, valid, ok, err⟩ :=
    (runCommand_ends op arg ha).of_later (s := { s with seq := (accept op arg s).seq }) rfl rfl rfl ⟨_, rfl⟩
  exact ⟨runCommand op arg s, exec_cmd op arg s hi, idle, valid, hop, harg, ok, err⟩

/-- Settles O48: a step fills no port, and with the engine hidden the only instruction the host can bring about is a
command, whose requests are the table's. -/
theorem hostReachesTheBusOnlyThroughTheBlock : Obligations.HostReachesTheBusOnlyThroughTheBlock := by
  intro s t hport h
  exact ⟨step_busPort_none hport h, fun hi hx => step_addsOwnPlaces hport hi hx h⟩

/-- Settles O57: neither an instruction, nor a row of a block in progress, nor the renewal writes a parameter. -/
theorem parametersAreConstant : Obligations.ParametersAreConstant := fun _ _ => step_cfg

/-- Settles O53: the host's first move finds its port closed. -/
theorem engineHiddenUnlessExposed : Obligations.EngineHiddenUnlessExposed := by
  intro s w rest hi hport hinbox hx
  have hfetch : fetch s = .refused .engineNotExposed :=
    (fetch_of_no_busPort hport).trans (fetchHost_of_closed hinbox hx)
  simp [step, hi, hfetch]

end Sys2Proof.Machine
end

section
/-! The invariant in its three parts: what the block's surroundings, the sequencer with its result, and the engine each
keep. -/

namespace Sys2Proof.Machine

/-- The part of the invariant on the device, the parameters and the delays. -/
structure SharedInv (s : State) : Prop where
  memWf : s.dev.mem.wf = true
  distinct : s.cfg.Distinct
  delayBounds : ∀ d ∈ s.delays, 1000 ≤ d.micros ∧ d.micros ≤ 2000

/-- The part on the sequencer and its result register (R23, R29). -/
structure SeqInv (q : SeqState) (r : ResState) : Prop where
  stepRange : 1 ≤ q.step.toNat ∧ q.step.toNat ≤ 4
  stepOfOp : q.busy = true → q.step.toNat ≤ microLen q.op
  validIdle : r.valid = true → q.busy = false
  resShaped : r.shaped

/-- What the engine's phase asks of the fields it goes with (R25 to R28). -/
def EngState.PhaseOk (e : EngState) : Prop :=
  match e.phase with
  | .idle => True
  | .primary => True
  | .settle => (e.prim = .ok → e.isWrite = true) ∧ ∀ b, e.prim = .okByte b → e.isWrite = false
  | .readback => e.isWrite = true ∧ e.verify = true
  | .backoff => e.attempt.toNat ≤ 9 ∧ e.lastCode.isSome
  | .done => e.rsp.isSome

/-- The part on the engine. -/
structure EngInv (e : EngState) : Prop where
  attemptRange : 1 ≤ e.attempt.toNat ∧ e.attempt.toNat ≤ 10
  phaseOk : e.PhaseOk

theorem blockInv_iff (s : State) : BlockInv s ↔ SharedInv s ∧ SeqInv s.seq s.res ∧ EngInv s.eng := by
  constructor
  · intro h
    refine ⟨⟨h.memWf, h.distinct, h.delayBounds⟩, ⟨h.stepRange, h.stepOfOp, h.validIdle, h.resShaped⟩,
      ⟨h.attemptRange, ?_⟩⟩
    unfold EngState.PhaseOk
    split
    · trivial
    · trivial
    case h_3 hp => exact h.primKind hp
    case h_4 hp => exact h.readbackKind hp
    case h_5 hp => exact ⟨h.backoffLeft hp, h.backoffCode hp⟩
    case h_6 hp => exact h.doneRsp hp
  · rintro ⟨⟨hmem, hdist, hdelays⟩, ⟨hrange, hop, hvalid, hshape⟩, ⟨hatt, hphase⟩⟩
    unfold EngState.PhaseOk at hphase
    exact {
      memWf := hmem
      distinct := hdist
      stepRange := hrange
      stepOfOp := hop
      attemptRange := hatt
      backoffLeft := fun hp => by rw [hp] at hphase; exact hphase.1
      backoffCode := fun hp => by rw [hp] at hphase; exact hphase.2
      doneRsp := fun hp => by rw [hp] at hphase; exact hphase
      primKind := fun hp => by rw [hp] at hphase; exact hphase
      readbackKind := fun hp => by rw [hp] at hphase; exact hphase
      validIdle := hvalid
      resShaped := hshape
      delayBounds := hdelays }

/-! The reset values -/

theorem sharedInv_rebind {s : State} (h : SharedInv s) : SharedInv (rebind s) where
  memWf := memory_reset_wf _
  distinct := h.distinct
  delayBounds := by simp

theorem seqInv_reset : SeqInv .reset .reset where
  stepRange := by decide
  stepOfOp h := by cases h
  validIdle h := by cases h
  resShaped h := by cases h

theorem engInv_reset : EngInv .reset := ⟨by decide, trivial⟩

/-! The moves of the engine -/

/-- The engine's moves keep everything but the engine's own part. -/
theorem EngMoves.sharedInv {s t : State} (hm : EngMoves s t) (h : SharedInv s) : SharedInv t where
  memWf := hm.wf h.memWf
  distinct := by rw [hm.frame.1]; exact h.distinct
  delayBounds := by
    obtain ⟨ds, hds, hbounds⟩ := hm.delays
    rw [hds]
    exact fun d hd => (List.mem_append.1 hd).elim (h.delayBounds d) (hbounds d)

theorem EngMoves.blockInv {s t : State} (hm : EngMoves s t) (h : BlockInv s) (he : EngInv t.eng) : BlockInv t := by
  obtain ⟨hshared, hseq, -⟩ := (blockInv_iff s).1 h
  obtain ⟨-, hq, hr, -⟩ := hm.frame
  exact (blockInv_iff t).2 ⟨hm.sharedInv hshared, by rw [hq, hr]; exact hseq, he⟩

theorem engInv_engLatch (r : XReq) (s : State) : EngInv (engLatch r s).eng := ⟨by simp, trivial⟩

theorem engInv_engRelease {s : State} (h : EngInv s.eng) : EngInv (engRelease s).eng := ⟨h.attemptRange, trivial⟩

theorem engInv_succeed (b : Byte) {s : State} (h : EngInv s.eng) : EngInv (succeed b s).eng := ⟨h.attemptRange, rfl⟩

/-- A failed iteration backs off only with attempts left, and then keeps its code (R25, R28). -/
theorem engInv_failIteration (c : Code) {s : State} (h : EngInv s.eng) : EngInv (failIteration c s).eng := by
  cases hleft : attemptsLeft s with
  | true =>
    rw [failIteration_eng_again c s hleft]
    have hlt : s.eng.attempt.toNat < 10 := of_decide_eq_true hleft
    exact ⟨h.attemptRange, Nat.le_of_lt_succ hlt, rfl⟩
  | false =>
    rw [failIteration_eng_ended c s hleft]
    exact ⟨h.attemptRange, rfl⟩

theorem engInv_nextAttempt {s : State} (h : EngInv s.eng) (hp : s.eng.phase = .backoff) :
    EngInv (nextAttempt s).eng := by
  obtain ⟨hrange, hok⟩ := h
  rw [EngState.PhaseOk, hp] at hok
  have hle : s.eng.attempt.toNat ≤ 9 := hok.1
  refine ⟨?_, trivial⟩
  simp only [nextAttempt_eng, BitVec.toNat_add, BitVec.toNat_ofNat]
  omega

/-- The primary operation leaves an answer of its own kind (R27). -/
theorem engInv_primary {s u : State} {p : Answer} (h : EngInv s.eng) (hp : primary s = some (p, u)) :
    EngInv u.eng ∧ u.eng.prim = p ∧ u.eng.phase = .settle := by
  obtain ⟨t, rfl, heng, hkind⟩ := primary_spec hp
  refine ⟨⟨by rw [heng]; exact h.attemptRange, ?_⟩, rfl, rfl⟩
  obtain ⟨hw, rfl, -⟩ | ⟨-, c, rfl, -⟩ | ⟨hw, b, rfl, -⟩ | ⟨-, c, rfl, -⟩ := hkind
  · simp [EngState.PhaseOk, heng, hw]
  · simp [EngState.PhaseOk]
  · simp [EngState.PhaseOk, heng, hw]
  · simp [EngState.PhaseOk]

/-- A read-back follows a write only, so it belongs to a verified write (R26). -/
theorem engInv_enterReadback {s : State} (h : EngInv s.eng) (hp : s.eng.phase = .settle) (hok : s.eng.prim = .ok)
    (hv : s.eng.verify = true) : EngInv (enterReadback s).eng := by
  obtain ⟨hrange, hphase⟩ := h
  rw [EngState.PhaseOk, hp] at hphase
  exact ⟨hrange, hphase.1 hok, hv⟩

theorem busRead_eng {addr : Addr7} {reg : Byte} {s t : State} {a : ReadAnswer}
    (h : busRead addr reg s = some (a, t)) : t.eng = s.eng := by
  obtain ⟨_, _, _, _, rfl⟩ := busRead_spec h
  rfl

theorem engInv_failedPass (c : Code) {s : State} (h : EngInv s.eng) : EngInv (failedPass c s).state.eng := by
  unfold failedPass
  split <;> exact engInv_failIteration c h

theorem engInv_judgeReadback (q : ReadAnswer) {s : State} (h : EngInv s.eng) :
    EngInv (judgeReadback q s).state.eng := by
  unfold judgeReadback
  split
  · split
    · exact engInv_succeed _ h
    · exact engInv_failedPass _ h
  · exact engInv_failedPass _ h

/-- A pass of R141's loop keeps the engine's part, wherever it ends. -/
theorem engInv_iteration {s : State} (h : EngInv s.eng) : EngInv (iteration s).state.eng := by
  unfold iteration
  split
  · exact h
  · rename_i p u hp
    obtain ⟨hu, hprim, hphase⟩ := engInv_primary h hp
    simp only
    split
    · exact engInv_succeed _ hu
    · exact engInv_failedPass _ hu
    · split
      case isTrue hv =>
        have hback := engInv_enterReadback (s := delay .settle u) hu hphase hprim hv
        split
        · exact hback
        · rename_i hq
          exact engInv_judgeReadback _ (by rw [busRead_eng hq]; exact hback)
      · exact engInv_succeed _ hu

theorem engInv_transactFrom (n : Nat) : ∀ {s : State}, EngInv s.eng → EngInv (transactFrom n s).eng := by
  induction n with
  | zero => exact id
  | succ n ih =>
    intro s h
    have hend := engInv_iteration h
    have hspec := iteration_spec s
    unfold transactFrom
    split
    · rename_i t e; rw [e] at hend; exact hend
    · rename_i t e; rw [e] at hend; exact hend
    · rename_i t e
      rw [e] at hend hspec
      obtain ⟨_, _, _, -, hphase, -⟩ := hspec
      exact ih (engInv_nextAttempt hend hphase)

/-- A row of R142 keeps the engine's part. -/
theorem engInv_engTick {s t : State} (h : EngInv s.eng) (ht : engTick s = some t) : EngInv t.eng := by
  unfold engTick at ht
  split at ht
  · cases ht
  · unfold rowPrimary at ht
    split at ht
    · cases ht
    · rename_i hp
      cases ht
      exact (engInv_primary h hp).1
  case h_3 hphase =>
    cases ht
    unfold rowSettle
    simp only
    split
    · exact engInv_succeed _ h
    case h_2 hok =>
      split
      case isTrue hv => exact engInv_enterReadback (s := delay .settle s) h hphase hok hv
      · exact engInv_succeed _ h
    · exact engInv_failIteration _ h
  · unfold rowReadback at ht
    split at ht
    · cases ht
    · rename_i u hq
      have hread : EngInv u.eng := by rw [busRead_eng hq]; exact h
      cases ht
      split
      · exact engInv_succeed _ hread
      · exact engInv_failIteration _ hread
    · rename_i hq
      cases ht
      exact engInv_failIteration _ (by rw [busRead_eng hq]; exact h)
  case h_5 hphase =>
    cases ht
    exact engInv_nextAttempt h hphase
  · cases ht

theorem blockInv_engLatch (r : XReq) {s : State} (h : BlockInv s) : BlockInv (engLatch r s) := by
  obtain ⟨hshared, hseq, -⟩ := (blockInv_iff s).1 h
  exact (blockInv_iff _).2 ⟨{ hshared with }, hseq, engInv_engLatch r s⟩

theorem blockInv_engRelease {s : State} (h : BlockInv s) : BlockInv (engRelease s) := by
  obtain ⟨hshared, hseq, heng⟩ := (blockInv_iff s).1 h
  exact (blockInv_iff _).2 ⟨{ hshared with }, hseq, engInv_engRelease heng⟩

/-- An engine call keeps the invariant, whether it ends or waits for an answer. -/
theorem blockInv_transact (r : XReq) {s : State} (h : BlockInv s) : BlockInv (transact r s) :=
  (transact_moves r s).blockInv (blockInv_engLatch r h) (engInv_transactFrom _ (engInv_engLatch r s))

theorem blockInv_engineCall (r : XReq) {s : State} (h : BlockInv s) : BlockInv (engineCall r s) := by
  unfold engineCall
  simp only
  split
  · exact blockInv_engRelease (blockInv_transact r h)
  · exact blockInv_transact r h

/-! The sequencer -/

theorem one_le_microLen (op : Op) : 1 ≤ microLen op := by
  cases op <;> decide

/-- Within a command's steps the index does not overflow (R23). -/
theorem toNat_step_succ {op : Op} {k : BitVec 3} (h : k.toNat ≤ microLen op) : (k + 1#3).toNat = k.toNat + 1 := by
  have hlen := microLen_le op
  rw [BitVec.toNat_add, BitVec.toNat_ofNat]
  omega

/-- The invariant of a command's run, which keeps the step within the command's steps when it completes too. -/
structure CommandInv (s : State) : Prop where
  block : BlockInv s
  stepOfOp : s.seq.step.toNat ≤ microLen s.seq.op

theorem commandInv_accept (op : Op) (arg : Byte) {s : State} (h : BlockInv s) : CommandInv (accept op arg s) := by
  obtain ⟨hshared, -, heng⟩ := (blockInv_iff s).1 h
  have hlen := one_le_microLen op
  have hseq : SeqInv ⟨true, op, arg, 1#3⟩ { s.res with valid := false } := by
    refine ⟨by simp, fun _ => hlen, ?_, ?_⟩
    · intro hv; cases hv
    · intro hv; cases hv
  exact ⟨(blockInv_iff _).2 ⟨{ hshared with }, hseq, heng⟩, hlen⟩

theorem commandInv_transact (r : XReq) {s : State} (h : CommandInv s) : CommandInv (transact r s) :=
  ⟨blockInv_transact r h.block, by rw [transact_seq]; exact h.stepOfOp⟩

theorem seqInv_errorEntry {q : SeqState} {r : ResState} (h : SeqInv q r) (g : Byte) (c : Code) :
    SeqInv { q with busy := false } ⟨true, true, none, some g, some c, some q.op, some q.step⟩ where
  stepRange := h.stepRange
  stepOfOp hb := by cases hb
  validIdle _ := rfl
  resShaped := by simp [ResState.shaped]

theorem seqInv_completeOk {q : SeqState} {r : ResState} (h : SeqInv q r) (v : Option Byte) :
    SeqInv { q with busy := false } ⟨true, false, v, none, none, none, none⟩ where
  stepRange := h.stepRange
  stepOfOp hb := by cases hb
  validIdle _ := rfl
  resShaped := by simp [ResState.shaped]

/-- The sequencer goes on only while the command has a step left (R23). -/
theorem seqInv_next {q : SeqState} {r : ResState} (h : SeqInv q r) (hlt : q.step.toNat < microLen q.op) :
    SeqInv { q with step := q.step + 1#3 } r ∧ (q.step + 1#3).toNat ≤ microLen q.op := by
  have hlen := microLen_le q.op
  have hnext := toNat_step_succ hlt.le
  have hrange : 1 ≤ (q.step + 1#3).toNat ∧ (q.step + 1#3).toNat ≤ 4 := by omega
  have hle : (q.step + 1#3).toNat ≤ microLen q.op := by omega
  exact ⟨⟨hrange, fun _ => hle, h.validIdle, h.resShaped⟩, hle⟩

theorem commandInv_takeResponse (r : XRsp) {s : State} (h : CommandInv s) : CommandInv (takeResponse r s) := by
  obtain ⟨hblock, hstep⟩ := h
  obtain ⟨hshared, hseq, heng⟩ := (blockInv_iff s).1 hblock
  have heng' := engInv_engRelease heng
  unfold takeResponse
  cases r with
  | err g c => exact ⟨(blockInv_iff _).2 ⟨{ hshared with }, seqInv_errorEntry hseq g c, heng'⟩, hstep⟩
  | ok b =>
    simp only
    split
    · exact ⟨(blockInv_iff _).2 ⟨{ hshared with }, seqInv_completeOk hseq _, heng'⟩, hstep⟩
    · rename_i hl
      obtain ⟨hseq', hstep'⟩ := seqInv_next hseq (Nat.lt_of_le_of_ne hstep hl)
      exact ⟨(blockInv_iff _).2 ⟨{ hshared with }, hseq', heng'⟩, hstep'⟩

/-- A command keeps the invariant, whether it completes or waits for an answer. -/
theorem blockInv_runCommand (op : Op) (arg : Byte) {s : State} (h : BlockInv s) : BlockInv (runCommand op arg s) := by
  have hrun := runSteps_lift (R := fun s t => CommandInv s → CommandInv t) (fun _ => id) (fun _ _ _ f g => g ∘ f)
    (fun req _ _ => commandInv_transact req) (fun r _ => commandInv_takeResponse r) 4 (accept op arg s)
  exact (hrun (commandInv_accept op arg h)).block

/-! The step -/

theorem blockInv_busWrite {addr : Addr7} {reg val : Byte} {s t : State} {a : WriteAnswer} (h : BlockInv s)
    (hb : busWrite addr reg val s = some (a, t)) : BlockInv t := by
  obtain ⟨_, _, _, _, rfl⟩ := busWrite_spec hb
  exact { h with memWf := deviceAfterWrite_wf _ _ _ _ _ h.memWf }

theorem blockInv_busRead {addr : Addr7} {reg : Byte} {s t : State} {a : ReadAnswer} (h : BlockInv s)
    (hb : busRead addr reg s = some (a, t)) : BlockInv t := by
  obtain ⟨_, _, _, _, rfl⟩ := busRead_spec hb
  refine { h with memWf := ?_ }
  simp only
  split <;> exact h.memWf

theorem blockInv_exec {i : Instr} {s t : State} (h : BlockInv s) (he : exec i s = .next t) : BlockInv t := by
  have hi := exec_next_idle he
  obtain ⟨addr, reg, val, rfl⟩ | ⟨addr, reg, spare, rfl⟩ | ⟨r, rfl⟩ | ⟨op, arg, rfl⟩ := instr_kinds i
  · obtain ⟨a, hb⟩ := execBusWrite_next he
    exact blockInv_busWrite h hb
  · obtain ⟨a, hb⟩ := execBusRead_next (spare := spare) he
    exact blockInv_busRead h hb
  · rw [exec_req r s hi] at he
    cases he
    exact blockInv_engineCall r h
  · rw [exec_cmd op arg s hi] at he
    cases he
    exact blockInv_runCommand op arg h

/-- A step of a block in progress keeps the invariant; a response is taken for the sequencer only while it is busy, when
its step lies within the command's. -/
theorem blockInv_tick {s t : State} (h : BlockInv s) (ht : tick s = .next t) : BlockInv t := by
  unfold tick at ht
  split at ht
  · split at ht
    · cases ht
      exact blockInv_engLatch _ h
    · cases ht
  · split at ht
    · cases ht
      split
      case isTrue hb => exact (commandInv_takeResponse _ ⟨h, h.stepOfOp hb⟩).block
      · exact blockInv_engRelease h
    · cases ht
  · split at ht
    · rename_i hrow
      cases ht
      exact (engTick_moves hrow).blockInv h (engInv_engTick ((blockInv_iff s).1 h).2.2 hrow)
    · cases ht

end Sys2Proof.Machine
end

section
/-! What a step does to the device's own state: settling, ramp, hold and outputs (R45, R50, R73). -/

namespace Sys2Proof.Machine

/-- Only an exhausted list of told answers gives none. -/
theorem envAnswer_of_ne_told {s : State} (h : s.env ≠ .told []) (addr : Addr7) (p : Prim) :
    ∃ turn env, envAnswer s addr p = some (turn, env) := by
  cases ha : envAnswer s addr p with
  | none => exact absurd (envAnswer_none ha) h
  | some x => exact ⟨x.1, x.2, rfl⟩

theorem exec_busWrite_of_some {addr : Addr7} {reg val : Byte} {s t : State} {a : WriteAnswer} (hi : s.idle = true)
    (h : busWrite addr reg val s = some (a, t)) : exec (.busWrite addr reg val) s = .next t := by
  simp [exec, execBusWrite, hi, h]

theorem exec_busRead_of_some {addr : Addr7} {reg : Byte} {s t : State} {a : ReadAnswer} (spare : Byte)
    (hi : s.idle = true) (h : busRead addr reg s = some (a, t)) : exec (.busRead addr reg spare) s = .next t := by
  simp [exec, execBusRead, hi, h]

/-- A write addressed to the device starts its settling, whatever it stores (R50 (c)). -/
theorem deviceAfterWrite_settling (s : State) (reg val : Byte) (turn : Turn) :
    (deviceAfterWrite s s.cfg.devAddr reg val turn).settling = true := by
  unfold deviceAfterWrite
  rw [if_pos rfl]
  split <;> rfl

/-- Activating the DAC starts a soft ramp (R50 (b)). -/
theorem store_modeOn_ramp (d : Device) (c : Config) (n : Nat) (h : d.held c.aMode ≠ vModeOn) :
    (d.store c n c.aMode vModeOn).ramp = true := by
  simp [Device.store, rampAfterStore, h]

/-- A store to a register other than the hold register leaves the hold. -/
theorem store_hold_other (d : Device) (c : Config) (n : Nat) {g : Byte} (b : Byte) (hg : g ≠ c.aVolHold) :
    (d.store c n g b).hold = d.hold := by
  simp [holdAfterStore, hg]

/-- A store to a channel register reaches that channel's output only when no hold is engaged (R73). -/
theorem outAfterStore_same {c : Config} {chan : Byte} (b now before : Byte) (hold : Bool) (free : Byte)
    (h : chan ≠ c.aVolHold) :
    outAfterStore c chan b chan now before hold free = if hold then before else now := by
  simp [outAfterStore, h]

/-- A store to neither the hold register nor the channel's own leaves the output. -/
theorem outAfterStore_other {c : Config} {reg chan : Byte} (b now before : Byte) (hold : Bool) (free : Byte)
    (h : reg ≠ c.aVolHold) (hr : reg ≠ chan) : outAfterStore c reg b chan now before hold free = before := by
  simp [outAfterStore, h, hr]

theorem store_outCh1 (d : Device) (c : Config) (n : Nat) (reg b : Byte) : (d.store c n reg b).outCh1 =
    outAfterStore c reg b c.aVolCh1 ((d.store c n reg b).held c.aVolCh1) d.outCh1 (d.store c n reg b).hold
      (Config.outCh1After n) := rfl

theorem store_outCh2 (d : Device) (c : Config) (n : Nat) (reg b : Byte) : (d.store c n reg b).outCh2 =
    outAfterStore c reg b c.aVolCh2 ((d.store c n reg b).held c.aVolCh2) d.outCh2 (d.store c n reg b).hold
      (Config.outCh2After n) := rfl

/-- The store of the first channel (R73). -/
theorem store_ch1 (d : Device) {c : Config} (n : Nat) (v : Byte) (hc : c.Distinct) :
    (d.store c n c.aVolCh1 v).hold = d.hold ∧ (d.store c n c.aVolCh1 v).held c.aVolCh1 = v ∧
      (d.store c n c.aVolCh1 v).outCh1 = (if d.hold then d.outCh1 else v) ∧
      (d.store c n c.aVolCh1 v).outCh2 = d.outCh2 := by
  obtain ⟨-, -, -, -, -, -, -, h12, h1, -⟩ := distinct_facts hc
  have hhold := store_hold_other d c n v h1
  refine ⟨hhold, held_store_same _ _ _ _ _, ?_, ?_⟩
  · rw [store_outCh1, outAfterStore_same _ _ _ _ _ h1, hhold, held_store_same]
  · rw [store_outCh2, outAfterStore_other _ _ _ _ _ h1 h12]

/-- The store of the second channel (R73). -/
theorem store_ch2 (d : Device) {c : Config} (n : Nat) (v : Byte) (hc : c.Distinct) :
    (d.store c n c.aVolCh2 v).hold = d.hold ∧ (d.store c n c.aVolCh2 v).held c.aVolCh2 = v ∧
      (d.store c n c.aVolCh2 v).outCh2 = (if d.hold then d.outCh2 else v) ∧
      (d.store c n c.aVolCh2 v).outCh1 = d.outCh1 := by
  obtain ⟨-, -, -, -, -, -, -, h12, -, h2⟩ := distinct_facts hc
  have hhold := store_hold_other d c n v h2
  refine ⟨hhold, held_store_same _ _ _ _ _, ?_, ?_⟩
  · rw [store_outCh2, outAfterStore_same _ _ _ _ _ h2, hhold, held_store_same]
  · rw [store_outCh1, outAfterStore_other _ _ _ _ _ h2 h12.symm]

/-- A row of the settle phase ends the settling (R50 (c), R250). -/
theorem rowSettle_dev (s : State) : (rowSettle s).dev = (delay .settle s).dev := by
  unfold rowSettle
  simp only
  split
  · rfl
  · split <;> rfl
  · exact failIteration_dev _ _

theorem step_of_settle {s : State} (h : s.eng.phase = .settle) : step s = .next (rowSettle s) := by
  simp [step, State.idle, tick, engTick, h]

theorem step_of_backoff {s : State} (h : s.eng.phase = .backoff) : step s = .next (nextAttempt s) := by
  simp [step, State.idle, tick, engTick, h]

end Sys2Proof.Machine
end

section
/-! The frame of a request's call and of a command (R48, R49). -/

namespace Sys2Proof.Machine

theorem engineCall_history (r : XReq) (s : State) : (engineCall r s).history = (transact r s).history := by
  unfold engineCall
  simp only
  split <;> rfl

/-- A register a command keeps: one it does not write (R48), where what it writes cannot cost the device its registers. -/
def CommandKeeps (s : State) (a : Byte) : Prop :=
  a ∉ opWritten s.cfg s.seq.op ∧ (s.env.retains = true ∨ s.cfg.aMode ∉ opWritten s.cfg s.seq.op)

/-- The call of a command's step keeps it. -/
theorem transact_keeps {req : XReq} {s : State} {a : Byte}
    (hm : micro s.cfg s.seq.op s.seq.arg s.seq.step = some req) (hk : CommandKeeps s a) :
    (transact req s).dev.held a = s.dev.held a := by
  obtain ⟨ha, hmode⟩ := hk
  refine (transact_moves req s).memory a fun hw => ?_
  have hreg : req.reg ∈ opWritten s.cfg s.seq.op := micro_written hm hw
  exact ⟨fun e => ha (e ▸ hreg), hmode.imp id fun hmode e => hmode (e ▸ hreg)⟩

/-- So does the whole command. -/
theorem runSteps_keeps (n : Nat) {s : State} {a : Byte} (hk : CommandKeeps s a) :
    (runSteps n s).dev.held a = s.dev.held a := by
  have hsteps : (CommandKeeps s a → CommandKeeps (runSteps n s) a) ∧
      (CommandKeeps s a → (runSteps n s).dev.held a = s.dev.held a) := by
    refine runSteps_lift (R := fun s t => (CommandKeeps s a → CommandKeeps t a) ∧
      (CommandKeeps s a → t.dev.held a = s.dev.held a)) (fun s => ⟨id, fun _ => rfl⟩) ?_ ?_ ?_ n s
    · rintro s t u ⟨h1, h2⟩ ⟨g1, g2⟩
      exact ⟨fun k => g1 (h1 k), fun k => (g2 (h1 k)).trans (h2 k)⟩
    · intro req s hm
      obtain ⟨hcfg, hseq, -, -, -, henv⟩ := (transact_moves req s).frame
      exact ⟨fun k => by rw [CommandKeeps, hcfg, hseq, henv]; exact k, transact_keeps hm⟩
    · intro r s
      obtain ⟨hcfg, hdev, henv, -, -, hop, -⟩ := takeResponse_frame r s
      exact ⟨fun k => by rw [CommandKeeps, hcfg, henv, hop]; exact k, fun _ => by rw [hdev]⟩
  exact hsteps.2 hk

end Sys2Proof.Machine
end

section
/-! What a command does not read: the engine and the result register as it finds them (R20, R152). Every piece of a call
commutes with a disturbance of the result register, and the first primary operation overwrites the answer kept. -/

namespace Sys2Proof.Machine

/-- The same state with the engine changed by `f` and another result register. -/
def State.disturb (f : EngState → EngState) (r : ResState) (s : State) : State := { s with eng := f s.eng, res := r }

/-- The same state with another result register. -/
def State.withRes (r : ResState) (s : State) : State := s.disturb id r

/-- The same end of a pass with another result register. -/
def Iter.withRes (r : ResState) : Iter → Iter
  | .hung s => .hung (s.withRes r)
  | .ended s => .ended (s.withRes r)
  | .again s => .again (s.withRes r)

/-- The engine with another answer kept. -/
def EngState.withPrim (a : Answer) (e : EngState) : EngState := { e with prim := a }

/-! The bus reads neither -/

theorem busWrite_disturb (f : EngState → EngState) (r : ResState) (addr : Addr7) (reg val : Byte) (s : State) :
    busWrite addr reg val (s.disturb f r) = (busWrite addr reg val s).map (Prod.map id (State.disturb f r)) := by
  have henv : envAnswer (s.disturb f r) addr (.write reg val) = envAnswer s addr (.write reg val) := rfl
  cases ha : envAnswer s addr (.write reg val) with
  | none => simp [busWrite, henv, ha]
  | some x => rw [busWrite_of_turn ha, busWrite_of_turn (henv.trans ha)]; rfl

theorem busRead_disturb (f : EngState → EngState) (r : ResState) (addr : Addr7) (reg : Byte) (s : State) :
    busRead addr reg (s.disturb f r) = (busRead addr reg s).map (Prod.map id (State.disturb f r)) := by
  have henv : envAnswer (s.disturb f r) addr (.read reg) = envAnswer s addr (.read reg) := rfl
  cases ha : envAnswer s addr (.read reg) with
  | none => simp [busRead, henv, ha]
  | some x => rw [busRead_of_turn ha, busRead_of_turn (henv.trans ha)]; rfl

/-! How a pass ends that waits for an answer -/

theorem iteration_silent {s : State} (h : primary s = none) : iteration s = .hung s := by
  simp [iteration, h]

theorem iteration_unread {s u : State} (h : primary s = some (.ok, u)) (hv : u.eng.verify = true)
    (hr : busRead u.cfg.devAddr u.eng.reg (enterReadback (delay .settle u)) = none) :
    iteration s = .hung (enterReadback (delay .settle u)) := by
  simp [iteration, h, hv, hr]

/-! The primary operation as the bus primitive of the request, its answer kept -/

/-- What is kept of an answer to a write (R27). -/
def WriteAnswer.kept : WriteAnswer → Answer
  | .ok => .ok
  | .err c => .err c

/-- What is kept of an answer to a read (R27). -/
def ReadAnswer.kept : ReadAnswer → Answer
  | .ok b => .okByte b
  | .err c => .err c

/-- The answer kept, `E_SETTLE` next. -/
def enterSettle (p : Answer) (s : State) : State := { s with eng := { s.eng with prim := p, phase := .settle } }

theorem primary_of_write {s : State} (h : s.eng.isWrite = true) : primary s =
    (busWrite s.cfg.devAddr s.eng.reg s.eng.val s).map fun x => (x.1.kept, enterSettle x.1.kept x.2) := by
  rw [primary, if_pos h]
  obtain _ | ⟨_ | _, _⟩ := busWrite s.cfg.devAddr s.eng.reg s.eng.val s <;> rfl

theorem primary_of_read {s : State} (h : s.eng.isWrite = false) : primary s =
    (busRead s.cfg.devAddr s.eng.reg s).map fun x => (x.1.kept, enterSettle x.1.kept x.2) := by
  rw [primary, if_neg (by simp [h])]
  obtain _ | ⟨_ | _, _⟩ := busRead s.cfg.devAddr s.eng.reg s <;> rfl

section
variable (r : ResState)

/-- The primary operation overwrites the answer kept. -/
theorem primary_disturb (a : Answer) (s : State) :
    primary (s.disturb (EngState.withPrim a) r) = (primary s).map (Prod.map id (State.withRes r)) := by
  have hwrite := busWrite_disturb (EngState.withPrim a) r s.cfg.devAddr s.eng.reg s.eng.val s
  have hread := busRead_disturb (EngState.withPrim a) r s.cfg.devAddr s.eng.reg s
  cases hw : s.eng.isWrite with
  | true =>
    rw [primary_of_write hw, primary_of_write (s := s.disturb (EngState.withPrim a) r) hw, Option.map_map]
    exact (congrArg _ hwrite).trans (Option.map_map _ _ _)
  | false =>
    rw [primary_of_read hw, primary_of_read (s := s.disturb (EngState.withPrim a) r) hw, Option.map_map]
    exact (congrArg _ hread).trans (Option.map_map _ _ _)

theorem failIteration_withRes (c : Code) (s : State) :
    failIteration c (s.withRes r) = (failIteration c s).withRes r := by
  have hleft : attemptsLeft (s.withRes r) = attemptsLeft s := rfl
  unfold failIteration
  rw [hleft]
  split <;> rfl

theorem failedPass_withRes (c : Code) (s : State) : failedPass c (s.withRes r) = (failedPass c s).withRes r := by
  have hleft : attemptsLeft (s.withRes r) = attemptsLeft s := rfl
  unfold failedPass
  rw [hleft, failIteration_withRes]
  split <;> rfl

theorem judgeReadback_withRes (q : ReadAnswer) (s : State) :
    judgeReadback q (s.withRes r) = (judgeReadback q s).withRes r := by
  have hval : (s.withRes r).eng.val = s.eng.val := rfl
  unfold judgeReadback
  rw [hval]
  split
  · split
    · rfl
    · exact failedPass_withRes r s.cfg.codeGenericIo s
  · exact failedPass_withRes r _ s

/-- So a pass whose primary operation is answered reads neither the answer kept nor the result register. -/
theorem iteration_disturb (a : Answer) {s u : State} {p : Answer} (h : primary s = some (p, u)) :
    iteration (s.disturb (EngState.withPrim a) r) = (iteration s).withRes r := by
  have hp : primary (s.disturb (EngState.withPrim a) r) = some (p, u.withRes r) := by rw [primary_disturb, h]; rfl
  cases p with
  | okByte b =>
    rw [iteration_read h, iteration_read hp]
    rfl
  | err c =>
    rw [iteration_err h, iteration_err hp]
    exact failedPass_withRes r c (delay .settle u)
  | ok =>
    cases hv : u.eng.verify with
    | false =>
      rw [iteration_unverified h hv, iteration_unverified hp hv]
      rfl
    | true =>
      have hq := busRead_disturb id r u.cfg.devAddr u.eng.reg (enterReadback (delay .settle u))
      cases hb : busRead u.cfg.devAddr u.eng.reg (enterReadback (delay .settle u)) with
      | none =>
        rw [hb] at hq
        rw [iteration_unread h hv hb, iteration_unread hp hv hq]
        rfl
      | some y =>
        obtain ⟨q, w⟩ := y
        rw [hb] at hq
        rw [iteration_written h hv hb, iteration_written hp hv hq]
        exact judgeReadback_withRes r q w

theorem iteration_withRes (s : State) : iteration (s.withRes r) = (iteration s).withRes r := by
  cases h : primary s with
  | none =>
    have hp : primary (s.withRes r) = none := (primary_disturb r s.eng.prim s).trans (by rw [h]; rfl)
    rw [iteration_silent h, iteration_silent hp]
    rfl
  | some x => exact iteration_disturb r s.eng.prim h

theorem transactFrom_withRes (n : Nat) : ∀ s : State, transactFrom n (s.withRes r) = (transactFrom n s).withRes r := by
  induction n with
  | zero => intro s; rfl
  | succ n ih =>
    intro s
    unfold transactFrom
    rw [iteration_withRes]
    cases iteration s with
    | hung t => rfl
    | ended t => rfl
    | again t => exact ih (nextAttempt t)

/-- In an environment that answers, a call reads neither the engine nor the result register as it finds them, and it
leaves the result register (R20, R152). -/
theorem transact_disturb (f : EngState → EngState) (req : XReq) {s : State} (h : s.env.answersAlways = true) :
    transact req (s.disturb f r) = (transact req s).withRes r := by
  have hlatch : engLatch req (s.disturb f r) = (engLatch req s).disturb (EngState.withPrim (f s.eng).prim) r := rfl
  cases hp : primary (engLatch req s) with
  | none =>
    rw [← engLatch_env req s, primary_none hp] at h
    cases h
  | some x =>
    rw [transact, transact, hlatch, nAttempts, transactFrom, transactFrom, iteration_disturb r _ hp]
    cases iteration (engLatch req s) with
    | hung t => rfl
    | ended t => rfl
    | again t => exact transactFrom_withRes r 9 (nextAttempt t)

end

/-- In an environment that answers, neither does the rest of a command, which overwrites both before it ends. -/
theorem runSteps_disturb (n : Nat) : ∀ (f : EngState → EngState) (r : ResState) (s : State), s.seq.busy = true →
    s.env.answersAlways = true → 1 ≤ s.seq.step.toNat → s.seq.step.toNat ≤ microLen s.seq.op →
    microLen s.seq.op < s.seq.step.toNat + n → runSteps n (s.disturb f r) = runSteps n s := by
  induction n with
  | zero => intro f r s _ _ _ hle hn; omega
  | succ n ih =>
    intro f r s hb ha h1 hle hn
    obtain ⟨req, hm⟩ := micro_isSome s.cfg s.seq.op s.seq.arg h1 hle
    obtain ⟨hphase, halways, hanswer⟩ := transact_answered (s := s) (micro_verified hm) ha
    have hcall := transact_disturb r f req ha
    have hphase' : (transact req (s.disturb f r)).eng.phase = .done := by rw [hcall]; exact hphase
    have hrsp : (transact req (s.disturb f r)).eng.rsp = (transact req s).eng.rsp := by rw [hcall]; rfl
    obtain ⟨b, -, -, hr, -⟩ | ⟨c, hr⟩ := hanswer
    · by_cases hl : s.seq.step.toNat = microLen s.seq.op
      · rw [runSteps_last hm hphase hr hl, runSteps_last (s := s.disturb f r) hm hphase' (hrsp.trans hr) hl, hcall]
        rfl
      · rw [runSteps_on hm hb hphase hr hl, runSteps_on (s := s.disturb f r) hm hb hphase' (hrsp.trans hr) hl, hcall]
        have hstep := toNat_step_succ hle
        refine ih id r (nextStep (transact req s)) ?_ ?_ ?_ ?_ ?_ <;>
          simp only [nextStep, engRelease_env, transact_seq, hstep]
        · exact hb
        · exact halways
        all_goals omega
    · rw [runSteps_abort hm hphase hr, runSteps_abort (s := s.disturb f r) hm hphase' (hrsp.trans hr), hcall]
      rfl

/-- In an environment that answers, a command reads nothing of what `seq`, `eng` and `res` held before it (R20). -/
theorem runCommand_of_dead (op : Op) (arg : Byte) (q : SeqState) (e : EngState) (r : ResState) {s : State}
    (ha : s.env.answersAlways = true) :
    runCommand op arg { s with seq := q, eng := e, res := r } = runCommand op arg s := by
  have hlen := microLen_le op
  exact runSteps_disturb 4 (fun _ => e) { r with valid := false } (accept op arg s) rfl ha (by simp)
    (one_le_microLen op) (by simp; omega)

end Sys2Proof.Machine
end

section
/-! The statements of `spec/10_state.md`. -/

namespace Sys2Proof.Machine

/-- Settles O59: each move of a step keeps the invariant. -/
theorem stepKeepsInvariant : Obligations.StepKeepsInvariant := by
  intro s t h hstep
  cases step_move hstep with
  | inProgress _ ht => exact blockInv_tick h ht
  | wait => exact h
  | renew rest =>
    have hshared := ((blockInv_iff s).1 h).1
    exact (blockInv_iff _).2 ⟨{ sharedInv_rebind hshared with }, seqInv_reset, engInv_reset⟩
  | busWord _ _ he => exact blockInv_exec (s := { s with busPort := none }) { h with } he
  | hostWord _ rest _ _ _ _ _ _ he => exact blockInv_exec (s := { s with inbox := rest }) { h with } he

/-- Settles O13: the four clauses are the stores of the hold and channel registers on the verbatim device. -/
theorem holdDefersAndReleaseCommits : Obligations.HoldDefersAndReleaseCommits := by
  intro s v hi he hc
  obtain ⟨-, -, -, -, -, -, -, -, h1, h2⟩ := distinct_facts hc
  obtain ⟨hhold, hch1, hch2⟩ := store_release s.dev s.cfg s.draws
  rw [held_store_other _ _ _ _ h1] at hch1
  rw [held_store_other _ _ _ _ h2] at hch2
  exact ⟨⟨_, exec_busWrite_of_some hi (busWrite_e1 he s.cfg.aVolHold vHold), store_engage _ _ _⟩,
    ⟨_, exec_busWrite_of_some hi (busWrite_e1 he s.cfg.aVolCh1 v), store_ch1 _ _ _ hc⟩,
    ⟨_, exec_busWrite_of_some hi (busWrite_e1 he s.cfg.aVolCh2 v), store_ch2 _ _ _ hc⟩,
    ⟨_, exec_busWrite_of_some hi (busWrite_e1 he s.cfg.aVolHold vRelease), hhold, hch1, hch2⟩⟩

/-- Settles O30: the steps of a command name registers of the seven, and the primitives of a call are its request's. -/
theorem primitivesStayOnTheDevice : Obligations.PrimitivesStayOnTheDevice := by
  constructor
  · intro s op arg hi
    obtain ⟨new, hh, hplaces⟩ := runCommand_addsOwnPlaces op arg s
    exact ⟨_, new, exec_cmd op arg s hi, hh, hplaces⟩
  · intro s r hi
    obtain ⟨new, hh, hev⟩ := (transact_moves r s).events
    exact ⟨_, new, exec_req r s hi, (engineCall_history r s).trans hh, fun p => places_of_callEvents hev⟩

/-- Settles O31: every step's call keeps the registers the command does not write. -/
theorem commandFrame : Obligations.CommandFrame := by
  intro s op arg hi
  obtain ⟨hcfg, hinbox, hport, hhist, -⟩ := runSteps_frame 4 (accept op arg s)
  exact ⟨runCommand op arg s, exec_cmd op arg s hi, hcfg, hinbox, hport, .trans ⟨_, rfl⟩ hhist,
    fun hk a ha => runSteps_keeps 4 (s := accept op arg s) ⟨ha, hk⟩⟩

/-- Settles O33: two runs of a command that differ in these fields meet at the first primary operation, but for the
result register, which the completion overwrites. -/
theorem deadFieldsDoNotMatter : Obligations.DeadFieldsDoNotMatter := by
  intro s q e r op arg hi hq he ha
  have hidle : ({ s with seq := q, eng := e, res := r } : State).idle = true := by simp [State.idle, hq, he]
  exact ⟨runCommand op arg s, exec_cmd op arg s hi,
    (exec_cmd op arg _ hidle).trans (congrArg _ (runCommand_of_dead op arg q e r ha))⟩

/-- Settles O14: the device's state after a primitive, after a delay and after the store that activates the DAC. -/
theorem settlingAndSoftRamp : Obligations.SettlingAndSoftRamp := by
  intro s
  refine ⟨fun reg val spare hi he => ⟨?_, ?_⟩, ?_, fun hi he hmode => ?_⟩
  · obtain ⟨turn, env, ha⟩ := envAnswer_of_ne_told he s.cfg.devAddr (.write reg val)
    exact ⟨_, exec_busWrite_of_some hi (busWrite_of_turn ha), deviceAfterWrite_settling s reg val turn⟩
  · obtain ⟨turn, env, ha⟩ := envAnswer_of_ne_told he s.cfg.devAddr (.read reg)
    exact ⟨_, exec_busRead_of_some spare hi (busRead_of_turn ha), by simp⟩
  · rintro (hp | hp)
    · exact ⟨_, step_of_settle hp, by simp [rowSettle_dev], fun h => by simp [rowSettle_dev, h]⟩
    · exact ⟨_, step_of_backoff hp, rfl, fun h => by simp [h]⟩
  · exact ⟨_, exec_busWrite_of_some hi (busWrite_e1 he s.cfg.aMode vModeOn), store_modeOn_ramp _ _ _ hmode⟩

/-- Settles O54: the parameters of an instantiation are distinct, and the block at reset is idle with nothing presented. -/
theorem resetState : Obligations.ResetState :=
  ⟨rfl, rfl, rfl, rfl, rfl, Config.chosen.distinct, rfl⟩

/-- Settles O58: the reset values meet each part of the invariant. -/
theorem invariantAtReset : Obligations.InvariantAtReset :=
  (blockInv_iff _).2 ⟨⟨memory_reset_wf 0, Config.chosen.distinct, fun _ hd => by cases hd⟩, seqInv_reset, engInv_reset⟩

end Sys2Proof.Machine
end

section
/-! A primitive of its own at the device, in terms of the turn that answers it (R69, R80 to R82). -/

namespace Sys2Proof.Machine

theorem exec_busWrite_of_turn {s : State} {reg val : Byte} {turn : Turn} {e : Env} (hi : s.idle = true)
    (h : envAnswer s s.cfg.devAddr (.write reg val) = some (turn, e)) :
    ∃ t, exec (.busWrite s.cfg.devAddr reg val) s = .next t ∧ t.env = e ∧
      t.history = s.history ++ [.busWrite s.cfg.devAddr reg val (writeAnswerOf turn)] ∧
      t.dev = deviceAfterWrite s s.cfg.devAddr reg val turn :=
  ⟨_, exec_busWrite_of_some hi (busWrite_of_turn h), rfl, rfl, rfl⟩

/-- Whatever the answer to a read is, the registers stay. -/
theorem exec_busRead_of_turn {s : State} {reg : Byte} {turn : Turn} {e : Env} (spare : Byte) (hi : s.idle = true)
    (h : envAnswer s s.cfg.devAddr (.read reg) = some (turn, e)) :
    ∃ t, exec (.busRead s.cfg.devAddr reg spare) s = .next t ∧ t.env = e ∧
      (∀ r : Byte, t.dev.held r = s.dev.held r) ∧
      t.history = s.history ++ [.busRead s.cfg.devAddr reg (readAnswerOf turn)] :=
  ⟨_, exec_busRead_of_some spare hi (busRead_of_turn h), rfl, held_afterRead s s.cfg.devAddr, rfl⟩

/-- An `ok` write in an environment that promises retention stores the byte of the turn (R131). -/
theorem exec_busWrite_ok {s : State} {reg val b : Byte} {lands : Bool} {e : Env} (hi : s.idle = true)
    (hk : s.env.retains = true) (h : envAnswer s s.cfg.devAddr (.write reg val) = some (⟨none, b, lands⟩, e)) :
    ∃ t, exec (.busWrite s.cfg.devAddr reg val) s = .next t ∧ t.env = e ∧
      t.history = s.history ++ [.busWrite s.cfg.devAddr reg val .ok] ∧
      ∀ r : Byte, t.dev.held r = if r = reg then b else s.dev.held r := by
  obtain ⟨t, ht, henv, hhist, hdev⟩ := exec_busWrite_of_turn hi h
  refine ⟨t, ht, henv, hhist, fun r => ?_⟩
  rw [hdev]
  exact held_afterWrite s reg val ⟨none, b, lands⟩ r (.inl hk)

/-- A write that passes, as in E1 (R80). -/
theorem exec_busWrite_passes {s : State} {e e' : Env} (reg val : Byte) (hi : s.idle = true) (he : s.env = e)
    (hp : e.Passes e') :
    ∃ t, exec (.busWrite s.cfg.devAddr reg val) s = .next t ∧ t.env = e' ∧
      t.history = s.history ++ [.busWrite s.cfg.devAddr reg val .ok] ∧
      ∀ r : Byte, t.dev.held r = if r = reg then val else s.dev.held r :=
  exec_busWrite_ok hi (he ▸ hp.1) (hp.2 s he (.write reg val))

/-- A read that passes, as in E1 (R80). -/
theorem exec_busRead_passes {s : State} {e e' : Env} (reg spare : Byte) (hi : s.idle = true) (he : s.env = e)
    (hp : e.Passes e') :
    ∃ t, exec (.busRead s.cfg.devAddr reg spare) s = .next t ∧ t.env = e' ∧
      (∀ r : Byte, t.dev.held r = s.dev.held r) ∧
      t.history = s.history ++ [.busRead s.cfg.devAddr reg (.ok (s.dev.held reg))] :=
  exec_busRead_of_turn spare hi (hp.2 s he (.read reg))

/-- A write that fails, as E2 has it, stores nothing (R81). -/
theorem exec_busWrite_fails {s : State} {e e' : Env} {c : Code} (reg val : Byte) (hi : s.idle = true) (he : s.env = e)
    (hf : e.Fails c e') :
    ∃ t, exec (.busWrite s.cfg.devAddr reg val) s = .next t ∧ t.env = e' ∧
      t.history = s.history ++ [.busWrite s.cfg.devAddr reg val (.err c)] ∧
      ∀ r : Byte, t.dev.held r = s.dev.held r := by
  obtain ⟨t, ht, henv, hhist, hdev⟩ := exec_busWrite_of_turn hi (hf s he (.write reg val))
  refine ⟨t, ht, henv, hhist, fun r => ?_⟩
  rw [hdev]
  exact held_afterWrite_failed s s.cfg.devAddr reg val r rfl

/-- A read that fails delivers no byte (R69, R81). -/
theorem exec_busRead_fails {s : State} {e e' : Env} {c : Code} (reg spare : Byte) (hi : s.idle = true) (he : s.env = e)
    (hf : e.Fails c e') :
    ∃ t, exec (.busRead s.cfg.devAddr reg spare) s = .next t ∧ t.env = e' ∧
      (∀ r : Byte, t.dev.held r = s.dev.held r) ∧
      t.history = s.history ++ [.busRead s.cfg.devAddr reg (.err c)] :=
  exec_busRead_of_turn spare hi (hf s he (.read reg))

/-- The store that enables the device costs no register in any environment (R216). -/
theorem deviceTakes_modeOn (s : State) (reg : Byte) :
    deviceTakes s reg vModeOn = s.dev.store s.cfg s.draws reg vModeOn := by
  simp [deviceTakes, losesRegisters]

/-- The other registers after a failed write: it stored nothing, or not to the mode register, or enabled the device. -/
theorem held_afterFailedWrite_other (s : State) {reg val : Byte} {c : Code} {b : Byte} {lands : Bool} {r : Byte}
    (hr : r ≠ reg) (h : lands = false ∨ reg ≠ s.cfg.aMode ∨ val = vModeOn) :
    (deviceAfterWrite s s.cfg.devAddr reg val ⟨some c, b, lands⟩).held r = s.dev.held r := by
  cases lands with
  | false => exact held_afterWrite_failed s s.cfg.devAddr reg val r rfl
  | true =>
    obtain h | hreg | rfl := h
    · cases h
    · exact held_afterWrite_other s s.cfg.devAddr val _ (.inr hreg) hr
    · have hdev : deviceAfterWrite s s.cfg.devAddr reg vModeOn ⟨some c, b, true⟩ =
          { deviceTakes s reg vModeOn with settling := true } := if_pos rfl
      rw [hdev, held_settling, deviceTakes_modeOn]
      exact held_store_other s.dev s.cfg s.draws vModeOn hr

end Sys2Proof.Machine
end

section
/-! A request's call as a chain of the engine's moves; the writes of a call and of a command: a step's write, once per
pass (R71, R147, R171). -/

namespace Sys2Proof.Machine

/-- A request's call, its response taken, is a chain of moves from its latch on. -/
theorem engineCall_moves (r : XReq) (s : State) : EngMoves (engLatch r s) (engineCall r s) := by
  have hcall := transact_moves r s
  unfold engineCall
  simp only
  split
  · exact hcall.tail (.eng _ _ ⟨rfl, rfl, rfl, rfl⟩)
  · exact hcall

/-- The write of request `r`, made `k` times; nothing for a read. -/
def XReq.writes (c : Config) (r : XReq) (k : Nat) : List (Addr7 × Byte × Byte) :=
  if r.isWrite then List.replicate k (c.devAddr, r.reg, r.val) else []

theorem XReq.writes_add (c : Config) (r : XReq) (j k : Nat) : r.writes c (j + k) = r.writes c j ++ r.writes c k := by
  unfold XReq.writes
  split
  · exact List.replicate_add _ _ _
  · rfl

/-- A read is no write. -/
theorem writesOf_primaryEvent (c : Config) (r : XReq) (p : Turn) : writesOf [primaryEvent c r p] = r.writes c 1 := by
  unfold primaryEvent XReq.writes
  split <;> rfl

/-- A pass makes its request's write once. -/
theorem passTrace_writes {c : Config} {r : XReq} {k : BitVec 4} {ts : List Turn} {p : Pass}
    (h : passTrace c r k ts = some p) : writesOf p.events = r.writes c 1 := by
  have hpass : ∃ turn late, p.events = [primaryEvent c r turn] ++ late ∧ writesOf late = [] := by
    unfold passTrace at h
    split at h
    · cases h
    rename_i turn rest
    refine ⟨turn, p.events.tail, ?_⟩
    split at h
    · cases h; exact ⟨rfl, rfl⟩
    split at h
    · cases h; exact ⟨rfl, rfl⟩
    split at h
    · cases h; exact ⟨rfl, rfl⟩
    split at h
    · cases h
    simp only at h
    split at h
    · cases h; exact ⟨rfl, rfl⟩
    split at h
    · cases h; exact ⟨rfl, rfl⟩
    · cases h; exact ⟨rfl, rfl⟩
  obtain ⟨turn, late, he, hlate⟩ := hpass
  rw [he, writesOf_append, hlate, List.append_nil, writesOf_primaryEvent]

/-- A call with `n` passes left makes its request's write between 1 and `n` times. -/
theorem callTrace_writes {c : Config} {r : XReq} (n : Nat) : ∀ {ts : List Turn} {q : CallResult},
    callTrace c r n ts = some q → ∃ k, 1 ≤ k ∧ k ≤ n ∧ writesOf q.events = r.writes c k := by
  induction n with
  | zero => intro ts q h; cases h
  | succ n ih =>
    intro ts q h
    unfold callTrace at h
    split at h
    · cases h
    rename_i p hp
    have hpass := passTrace_writes hp
    split at h
    · cases h; exact ⟨1, le_rfl, by omega, hpass⟩
    split at h
    · cases h; exact ⟨1, le_rfl, by omega, hpass⟩
    split at h
    · cases h
    · rename_i q' hq
      cases h
      obtain ⟨k, h1, hk, hw⟩ := ih hq
      exact ⟨1 + k, by omega, by omega, by rw [writesOf_append, hpass, hw, XReq.writes_add]⟩

/-- In an environment that answers, a step's call makes the step's write between 1 and 10 times. -/
theorem transact_writes (r : XReq) {s : State} (ha : s.env.answersAlways = true) :
    ∃ new k, (transact r s).history = s.history ++ new ∧ 1 ≤ k ∧ k ≤ 10 ∧ writesOf new = r.writes s.cfg k := by
  obtain ⟨used, q, hd⟩ := transact_ends r s ha
  obtain ⟨k, h1, hk, hw⟩ := callTrace_writes 10 (hd.trace [])
  exact ⟨q.events, k, hd.history, h1, hk, hw⟩

/-- The writes of a list of steps, each with the number of times it is made. -/
def stepWrites (c : Config) (steps : List (Nat × XReq)) : List (Addr7 × Byte × Byte) :=
  steps.flatMap fun p => p.2.writes c p.1

theorem stepWrites_cons (c : Config) (k : Nat) (r : XReq) (steps : List (Nat × XReq)) :
    stepWrites c ((k, r) :: steps) = r.writes c k ++ stepWrites c steps := List.flatMap_cons

/-- They are those of the write steps alone. -/
theorem stepWrites_eq_filter (c : Config) (steps : List (Nat × XReq)) : stepWrites c steps =
    (steps.filter fun p => p.2.isWrite).flatMap fun p => List.replicate p.1 (c.devAddr, p.2.reg, p.2.val) := by
  induction steps with
  | nil => rfl
  | cons p steps ih =>
    rw [stepWrites_cons, ih, List.filter_cons, XReq.writes]
    split
    · rw [List.flatMap_cons]
    · rfl

/-- The steps of the table from step index `k` on. -/
def stepsFrom (c : Config) (op : Op) (arg : Byte) (k : BitVec 3) : List XReq := (microSteps c op arg).drop (k.toNat - 1)

theorem stepsFrom_cons {c : Config} {op : Op} {arg : Byte} {k : BitVec 3} {req : XReq}
    (h : micro c op arg k = some req) : stepsFrom c op arg k = req :: (microSteps c op arg).drop k.toNat := by
  unfold micro at h
  split at h
  · cases h
  · rename_i n hn
    obtain ⟨hlt, rfl⟩ := List.getElem?_eq_some_iff.1 h
    rw [stepsFrom, hn]
    exact List.drop_eq_getElem_cons hlt

/-- From `s` to `t` a command makes the writes of the table's steps from `s`'s up to the one `t` has reached, each step
`counts` times. -/
structure WritesSteps (s t : State) (new : List Event) (counts : List Nat) : Prop where
  history : t.history = s.history ++ new
  reached : counts.length + s.seq.step.toNat = t.seq.step.toNat + 1
  times : ∀ n ∈ counts, 1 ≤ n ∧ n ≤ 10
  writes : writesOf new = stepWrites s.cfg (counts.zip (stepsFrom s.cfg s.seq.op s.seq.arg s.seq.step))

/-- The command ends with the step it is at, its completion recorded. -/
theorem WritesSteps.of_last {s t : State} {req : XReq} {new late : List Event} {k : Nat}
    (hm : micro s.cfg s.seq.op s.seq.arg s.seq.step = some req) (h1 : 1 ≤ k) (hk : k ≤ 10)
    (hw : writesOf new = req.writes s.cfg k) (hlate : writesOf late = []) (hh : t.history = s.history ++ new ++ late)
    (hstep : t.seq.step = s.seq.step) : WritesSteps s t (new ++ late) [k] where
  history := by rw [hh, List.append_assoc]
  reached := by rw [hstep]; exact Nat.add_comm _ _
  times n hn := by rw [List.mem_singleton.1 hn]; exact ⟨h1, hk⟩
  writes := by
    rw [stepsFrom_cons hm, writesOf_append, hw, hlate]
    rfl

/-- The command goes on to its next step, at `s'`. -/
theorem WritesSteps.cons {s s' t : State} {req : XReq} {new late : List Event} {k : Nat} {counts : List Nat}
    (hm : micro s.cfg s.seq.op s.seq.arg s.seq.step = some req) (h1 : 1 ≤ k) (hk : k ≤ 10)
    (hw : writesOf new = req.writes s.cfg k) (hh : s'.history = s.history ++ new) (hcfg : s'.cfg = s.cfg)
    (hseq : s'.seq = { s.seq with step := s.seq.step + 1#3 })
    (hstep : (s.seq.step + 1#3).toNat = s.seq.step.toNat + 1) (h : WritesSteps s' t late counts) :
    WritesSteps s t (new ++ late) (k :: counts) := by
  obtain ⟨history, reached, times, writes⟩ := h
  rw [hseq, hstep] at reached
  rw [hcfg, hseq, stepsFrom, hstep, Nat.add_sub_cancel] at writes
  refine ⟨by rw [history, hh, List.append_assoc], by rw [List.length_cons]; omega, ?_, ?_⟩
  · intro n hn
    obtain rfl | hn := List.mem_cons.1 hn
    · exact ⟨h1, hk⟩
    · exact times n hn
  · rw [stepsFrom_cons hm, List.zip_cons_cons, stepWrites_cons, writesOf_append, hw, writes]

/-- In an environment that answers, the loop of R173 makes the writes of the steps from the one it is at, given as many
rounds as there are steps left. -/
theorem runSteps_writes (n : Nat) : ∀ s : State, s.seq.busy = true → s.env.answersAlways = true →
    1 ≤ s.seq.step.toNat → s.seq.step.toNat ≤ microLen s.seq.op → microLen s.seq.op < s.seq.step.toNat + n →
    ∃ new counts, WritesSteps s (runSteps n s) new counts := by
  induction n with
  | zero => intro s _ _ _ hle hn; omega
  | succ n ih =>
    intro s hb ha h1 hle hn
    obtain ⟨req, hm⟩ := micro_isSome s.cfg s.seq.op s.seq.arg h1 hle
    obtain ⟨new, k, hh, hk1, hk, hw⟩ := transact_writes req ha
    obtain ⟨hphase, halways, ⟨b, -, -, hr, -⟩ | ⟨c, hr⟩⟩ := transact_answered (s := s) (micro_verified hm) ha
    · by_cases hl : s.seq.step.toNat = microLen s.seq.op
      · rw [runSteps_last hm hphase hr hl]
        exact ⟨_, _, .of_last (late := [.completed s.seq.op false]) hm hk1 hk hw rfl (by simp [hh]) (by simp)⟩
      · rw [runSteps_on hm hb hphase hr hl]
        have hstep := toNat_step_succ hle
        have hnext : (nextStep (transact req s)).seq = { s.seq with step := s.seq.step + 1#3 } := by simp [nextStep]
        have hlater : ∃ late counts,
            WritesSteps (nextStep (transact req s)) (runSteps n (nextStep (transact req s))) late counts := by
          apply ih <;> simp only [nextStep, engRelease_env, transact_seq, hstep]
          · exact hb
          · exact halways
          all_goals omega
        obtain ⟨late, counts, hlater⟩ := hlater
        exact ⟨_, _, .cons (s' := nextStep (transact req s)) hm hk1 hk hw hh (transact_cfg req s) hnext hstep hlater⟩
    · rw [runSteps_abort hm hphase hr]
      exact ⟨_, _, .of_last (late := [.completed s.seq.op true]) hm hk1 hk hw rfl (by simp [hh]) (by simp)⟩

/-- So does a whole command, from its first step. -/
theorem runCommand_writes (op : Op) (arg : Byte) {s : State} (ha : s.env.answersAlways = true) :
    ∃ new counts, WritesSteps (accept op arg s) (runCommand op arg s) new counts := by
  have hlen := microLen_le op
  exact runSteps_writes 4 (accept op arg s) rfl ha le_rfl (one_le_microLen op) (by simp; omega)

end Sys2Proof.Machine
end

section
/-! The statements of `spec/20_memory.md`. -/

namespace Sys2Proof.Machine

/-- Settles O7: E1 answers each primitive as the verbatim device does. -/
theorem verbatimDevice : Obligations.VerbatimDevice := by
  intro s reg val spare hi he
  obtain ⟨t, ht, henv, hhist, hheld⟩ := exec_busWrite_passes reg val hi he passes_e1
  obtain ⟨u, hu, huenv, huheld, huhist⟩ := exec_busRead_passes reg spare hi he passes_e1
  exact ⟨⟨t, ht, hhist, henv, hheld⟩, ⟨u, hu, huhist, huenv, huheld⟩⟩

/-- Settles O8: the head of the schedule decides whether a primitive passes or fails. -/
theorem faultSchedule : Obligations.FaultSchedule := by
  intro s reg val spare fates hi he
  match fates, he with
  | [], he =>
    exact ⟨exec_busWrite_passes reg val hi he passes_e2_nil, exec_busRead_passes reg spare hi he passes_e2_nil⟩
  | .pass :: fates, he =>
    exact ⟨exec_busWrite_passes reg val hi he (passes_e2 fates), exec_busRead_passes reg spare hi he (passes_e2 fates)⟩
  | .fail c :: fates, he =>
    exact ⟨exec_busWrite_fails reg val hi he (fails_e2 c fates), exec_busRead_fails reg spare hi he (fails_e2 c fates)⟩

/-- Settles O9: the masking turn carries the byte stored, and a read's is that of E1. -/
theorem maskingDevice : Obligations.MaskingDevice := by
  intro s reg val spare m k hi he
  have hanswer : ∀ p, envAnswer s s.cfg.devAddr p = some (maskingTurn m k s.dev p, .e3 m k) := by
    intro p
    simp [envAnswer, he]
  have hk : s.env.retains = true := by rw [he]; rfl
  obtain ⟨u, hu, huenv, huheld, huhist⟩ := exec_busRead_of_turn spare hi (hanswer (.read reg))
  exact ⟨exec_busWrite_ok hi hk (hanswer (.write reg val)), ⟨u, hu, huenv, huhist, huheld⟩⟩

/-- Settles O10: the turn says whether the failed write stored its value. -/
theorem failedAccess : Obligations.FailedAccess := by
  intro s reg val spare b c lands rest hi he
  have hanswer : ∀ p, envAnswer s s.cfg.devAddr p = some (⟨some c, b, lands⟩, .told rest) := by
    intro p
    simp [envAnswer, he]
  obtain ⟨t, ht, -, hhist, hdev⟩ := exec_busWrite_of_turn hi (hanswer (.write reg val))
  obtain ⟨u, hu, -, huheld, huhist⟩ := exec_busRead_of_turn spare hi (hanswer (.read reg))
  refine ⟨⟨t, ht, hhist, ?_, fun r hr hkeep => ?_⟩, ⟨u, hu, huhist, huheld⟩⟩
  · rw [hdev, held_afterWrite_same]
    cases lands <;> rfl
  · rw [hdev]
    exact held_afterFailedWrite_other s hr hkeep

/-- Settles O24: every move of the call keeps these fields, and of the registers all but the one a write names. -/
theorem engineFrame : Obligations.EngineFrame := by
  intro s r hi
  have hm := engineCall_moves r s
  obtain ⟨hcfg, hseq, hres, hinbox, hport, -⟩ := hm.frame
  exact ⟨engineCall r s, exec_req r s hi, hcfg, hseq, hres, hinbox, hport, hm.history, hm.memory, hm.outputs⟩

/-- Settles O29: each step's call makes the step's write once per pass, and the loop takes the steps in order. -/
theorem writesFollowTheTable : Obligations.WritesFollowTheTable := by
  intro s op arg hi ha
  obtain ⟨new, counts, history, reached, times, writes⟩ := runCommand_writes op arg ha
  refine ⟨runCommand op arg s, .accepted op arg :: new, counts, exec_cmd op arg s hi, ?_, ?_, times, ?_⟩
  · rw [history, accept_history, List.append_assoc]
    rfl
  · simpa using reached
  · exact writes.trans (stepWrites_eq_filter s.cfg _)

end Sys2Proof.Machine
end

section
/-! The three word formats, decoder against encoder (R91, R95, R98), and the fields of the packed result (R100). -/

namespace Sys2Proof

/-! Fields of words -/

/-- A field that lies in the high part of a concatenation. -/
theorem append_high_field {n m : Nat} (a : BitVec n) (b : BitVec m) {i : Nat} (k : Nat) (h : m ≤ i) :
    (a ++ b).extractLsb' i k = a.extractLsb' (i - m) k := by
  apply BitVec.eq_of_getLsbD_eq; intro j hj
  rw [BitVec.getLsbD_extractLsb', BitVec.getLsbD_extractLsb', append_high_bit a b (by omega), Nat.sub_add_comm h]

/-- A bit of the low part of a concatenation. -/
theorem append_low_bit {n m : Nat} (a : BitVec n) (b : BitVec m) {i : Nat} (h : i < m) :
    (a ++ b).getLsbD i = b.getLsbD i := by
  simp [BitVec.getLsbD_append, h]

/-- A bit is a field of its own. -/
theorem bit_field {w : Nat} (x : BitVec w) (i : Nat) : BitVec.ofBool (x.getLsbD i) = x.extractLsb' i 1 := by
  apply BitVec.eq_of_getLsbD_eq; intro j hj
  have hj0 : j = 0 := by omega
  simp [hj0]

/-! Commands -/

theorem ofCode_code (op : Op) : Op.ofCode op.code = some op := by
  cases op <;> rfl

theorem code_of_ofCode {c : BitVec 3} {op : Op} (h : Op.ofCode c = some op) : op.code = c := by
  revert c op; decide

theorem ofCode_reserved {c : BitVec 3} (h : 6 ≤ c.toNat) : Op.ofCode c = none := by
  revert c; decide

theorem encode_cmd (op : Op) (arg : Byte) : encode (op.instr arg) = encodeCmd op arg := by
  cases op <;> rfl

theorem decodeCmd_of_code {w : BitVec 11} {op : Op} (h : Op.ofCode (w.extractLsb' 8 3) = some op) :
    decodeCmd w = .ok (op.instr (w.extractLsb' 0 8)) := by
  simp only [decodeCmd, h]

theorem decodeCmd_reserved {w : BitVec 11} (h : 6 ≤ (w.extractLsb' 8 3).toNat) :
    decodeCmd w = .error (.reservedOpcode (w.extractLsb' 8 3)) := by
  simp only [decodeCmd, ofCode_reserved h]

theorem decode_encodeCmd (op : Op) (arg : Byte) : decode (encodeCmd op arg) = .ok (op.instr arg) := by
  have hcode : Op.ofCode ((op.code ++ arg : BitVec 11).extractLsb' 8 3) = some op := by
    rw [append_high, ofCode_code]
  exact (decodeCmd_of_code hcode).trans (by rw [append_low])

/-- A command word that decodes is the opcode and the operand of the instruction. -/
theorem encode_decodeCmd {w : BitVec 11} {i : Instr} (h : decodeCmd w = .ok i) : encode i = .cmd w := by
  cases hop : Op.ofCode (w.extractLsb' 8 3) with
  | none => simp [decodeCmd, hop] at h
  | some op =>
    rw [decodeCmd_of_code hop] at h
    cases h
    rw [encode_cmd, encodeCmd, code_of_ofCode hop]
    exact congrArg Request.cmd (append_parts (n := 3) (m := 8) w)

end Sys2Proof

namespace Sys2Proof.Machine

/-! Engine requests -/

theorem encode_reqInstr (r : XReq) : encode (reqInstr r) = encodeXreq r.isWrite r.verify r.reg r.val := by
  obtain ⟨reg, val, isWrite, verify⟩ := r
  cases isWrite <;> cases verify <;> rfl

theorem decodeXreq_eq (w : BitVec 18) :
    decodeXreq w = reqInstr ⟨w.extractLsb' 8 8, w.extractLsb' 0 8, w.getLsbD 17, w.getLsbD 16⟩ := rfl

theorem decode_encodeXreq (r : XReq) : decode (encodeXreq r.isWrite r.verify r.reg r.val) = .ok (reqInstr r) := by
  simp only [encodeXreq, decode, decodeXreq_eq, append_low, append_middle, append_high_bit, Nat.reduceLeDiff,
    Nat.reduceSub, append_low_bit, Nat.lt_one_iff, BitVec.getLsbD_ofBool]
  simp

theorem encode_decodeXreq (w : BitVec 18) : encode (decodeXreq w) = .xreq w := by
  rw [decodeXreq_eq, encode_reqInstr, encodeXreq, bit_field, bit_field,
    BitVec.extractLsb'_append_extractLsb'_eq_extractLsb' (by rfl),
    BitVec.extractLsb'_append_extractLsb'_eq_extractLsb' (by rfl),
    BitVec.extractLsb'_append_extractLsb'_eq_extractLsb' (by rfl)]
  exact congrArg Request.xreq BitVec.extractLsb'_eq_self

/-! Bus primitives -/

/-- The instruction of a primitive word's four fields (R98). -/
def busInstr (rw : Bool) (addr : Addr7) (reg val : Byte) : Instr :=
  if rw then .busRead addr reg val else .busWrite addr reg val

theorem decodeBusp_eq (w : BitVec 24) :
    decodeBusp w = busInstr (w.getLsbD 23) (w.extractLsb' 16 7) (w.extractLsb' 8 8) (w.extractLsb' 0 8) := rfl

theorem encode_busInstr (rw : Bool) (addr : Addr7) (reg val : Byte) :
    encode (busInstr rw addr reg val) = encodeBusp rw addr reg val := by
  cases rw <;> rfl

theorem decode_encodeBusp (rw : Bool) (addr : Addr7) (reg val : Byte) :
    decode (encodeBusp rw addr reg val) = .ok (busInstr rw addr reg val) := by
  simp only [encodeBusp, decode, decodeBusp_eq, append_low, append_high_bit, append_high_field,
    Nat.reduceLeDiff, Nat.reduceSub]
  simp

theorem encode_decodeBusp (w : BitVec 24) : encode (decodeBusp w) = .busp w := by
  rw [decodeBusp_eq, encode_busInstr, encodeBusp, bit_field,
    BitVec.extractLsb'_append_extractLsb'_eq_extractLsb' (by rfl),
    BitVec.extractLsb'_append_extractLsb'_eq_extractLsb' (by rfl),
    BitVec.extractLsb'_append_extractLsb'_eq_extractLsb' (by rfl)]
  exact congrArg Request.busp BitVec.extractLsb'_eq_self

/-! The operand maps (R103 to R107) -/

/-- Nothing is borrowed from the largest byte, all of whose bits are set (R104). -/
theorem volumeCode_eq_not (v : Byte) : volumeCode v = ~~~v := by
  apply BitVec.eq_of_toNat_eq
  simp only [volumeCode, volMax, BitVec.toNat_sub, BitVec.toNat_not, BitVec.toNat_ofNat]
  have := v.isLt
  omega

theorem volumeCode_volumeCode (v : Byte) : volumeCode (volumeCode v) = v := by
  rw [volumeCode_eq_not, volumeCode_eq_not, BitVec.not_not]

/-- The fixed bits lie outside the mask (R108). -/
theorem shapeOf_shapeCode (x : Byte) : shapeOf (shapeCode x) = x &&& 0x07#8 := by
  have hfixed : filterFixed &&& filterMask = 0#8 := rfl
  rw [shapeOf, shapeCode, BitVec.and_or_distrib_right, hfixed, BitVec.or_zero]
  rfl

/-- The fixed bits lie above an operand below 8, so they are added to it. -/
theorem shapeCode_toNat {x : Byte} (h : x.toNat < 8) : (shapeCode x).toNat = 0x60 + x.toNat := by
  rw [shapeCode, BitVec.toNat_or, Nat.or_comm]
  exact (Nat.two_pow_add_eq_or_of_lt (i := 3) h 12).symm

theorem mask_of_lt {x : Byte} (h : x.toNat < 8) : x &&& 0x07#8 = x := by
  apply BitVec.eq_of_toNat_eq
  rw [BitVec.toNat_and]
  exact Nat.and_two_pow_sub_one_of_lt_two_pow (n := 3) h

end Sys2Proof.Machine
end

section
/-! What a busy block does not do (R90), and the commands of `RoundTrips` and `MaskedFilterFails` on their devices. -/

namespace Sys2Proof.Machine

/-! No acceptance while a command or a call is in progress (R90, R172) -/

/-- The history grows by events none of which is an acceptance. -/
def AcceptsNothing (s t : State) : Prop :=
  ∃ new, t.history = s.history ++ new ∧ ∀ op arg, Event.accepted op arg ∉ new

theorem AcceptsNothing.of_history_eq {s t : State} (h : t.history = s.history) : AcceptsNothing s t :=
  ⟨[], by simp [h], by simp⟩

theorem EngMoves.acceptsNothing {s t : State} (h : EngMoves s t) : AcceptsNothing s t := by
  obtain ⟨new, hhist, hevents⟩ := h.events
  exact ⟨new, hhist, fun op arg hmem => hevents _ hmem⟩

theorem takeResponse_acceptsNothing (r : XRsp) (s : State) : AcceptsNothing s (takeResponse r s) := by
  obtain ⟨-, -, -, -, -, -, -, h | ⟨b, h⟩⟩ := takeResponse_frame r s
  · exact .of_history_eq h
  · exact ⟨_, h, by simp⟩

theorem tick_acceptsNothing {s t : State} (h : tick s = .next t) : AcceptsNothing s t := by
  obtain ⟨req, -, rfl⟩ | ⟨r, -, rfl⟩ | hm := tick_next h
  · exact .of_history_eq rfl
  · split
    · exact takeResponse_acceptsNothing r s
    · exact .of_history_eq rfl
  · exact hm.acceptsNothing

/-! Commands of one step (R176 to R178) -/

/-- A command of one step whose call succeeds completes with `Ret` of the call's byte. -/
theorem runCommand_single {op : Op} {arg b : Byte} {req : XReq} {es : List Event} {s : State}
    (hsteps : microSteps s.cfg op arg = [req])
    (h : CallOk req b es (accept op arg s) (transact req (accept op arg s))) :
    runCommand op arg s = completeOk b (engRelease (transact req (accept op arg s))) := by
  have hlen : microLen op = 1 := by rw [← microSteps_length s.cfg op arg, hsteps]; rfl
  have hmicro : micro s.cfg op arg 1#3 = some req := (micro_eq s.cfg op arg 0 (by omega)).trans (by rw [hsteps]; rfl)
  exact runSteps_last hmicro h.phase h.rsp hlen.symm

/-- A get command of one read, on a device that passes it, returns `Ret` of the byte held. -/
theorem exec_of_read {op : Op} {arg g : Byte} {s : State} {e : Env} (hi : s.idle = true) (he : s.env.Passes e)
    (hsteps : microSteps s.cfg op arg = [readReq g]) :
    ∃ t, exec (op.instr arg) s = .next t ∧ t.res = ⟨true, false, ret op (s.dev.held g), none, none, none, none⟩ := by
  obtain ⟨hcall, -⟩ := transact_read (s := accept op arg s) g 0#8 false he
  refine ⟨_, exec_cmd op arg s hi, ?_⟩
  rw [runCommand_single hsteps hcall]
  simp

/-- A command of one verified write, on a device that passes it, leaves the byte in the register. -/
theorem exec_of_write {op : Op} {arg g v : Byte} {s : State} {e e' : Env} (hi : s.idle = true) (he : s.env.Passes e)
    (he' : e.Passes e') (hsteps : microSteps s.cfg op arg = [writeReq g v]) :
    ∃ t, exec (op.instr arg) s = .next t ∧ t.idle = true ∧ t.cfg = s.cfg ∧ t.env = e' ∧ t.dev.held g = v := by
  obtain ⟨hcall, henv⟩ := transact_verified (s := accept op arg s) g v he he'
  refine ⟨_, exec_cmd op arg s hi, ?_⟩
  rw [runCommand_single hsteps hcall]
  refine ⟨rfl, by simp, henv, ?_⟩
  simpa [writeReq] using hcall.held g

/-- On the verbatim device a write step that is not the last passes at the first attempt and goes on to the next. -/
theorem step_on_e1 {n : Nat} {s : State} {c : Config} {op : Op} {arg g v : Byte} {k : BitVec 3} (he : s.env = .e1)
    (hcfg : s.cfg = c) (hseq : s.seq = ⟨true, op, arg, k⟩) (hm : micro c op arg k = some (writeReq g v))
    (hl : k.toNat ≠ microLen op) : ∃ t, runSteps (n + 1) s = runSteps n t ∧ t.env = .e1 ∧ t.cfg = c ∧
      t.seq = ⟨true, op, arg, k + 1#3⟩ ∧ Stepped g v s t := by
  subst hcfg
  obtain ⟨t, hrun, henv, hseq', -, hst⟩ := step_on (n := n) (s := s) (he ▸ passes_e1) passes_e1 (by rw [hseq]; exact hm)
    (by rw [hseq]) (by rw [hseq]; exact hl)
  exact ⟨t, hrun, henv, hst.cfg, by rw [hseq', hseq], hst⟩

/-- The four steps of `SET_VOLUME` on the verbatim device (R175). -/
theorem runCommand_setVolume_e1 {s : State} (v : Byte) (he : s.env = .e1) :
    ∃ s1 s2 s3 t, runCommand .setVolume v s = completeOk vRelease t ∧
      Stepped s.cfg.aVolHold vHold (accept .setVolume v s) s1 ∧ Stepped s.cfg.aVolCh1 (volumeCode v) s1 s2 ∧
      Stepped s.cfg.aVolCh2 (volumeCode v) s2 s3 ∧ Stepped s.cfg.aVolHold vRelease s3 t ∧
      t.env = .e1 ∧ t.cfg = s.cfg ∧ t.seq = ⟨true, .setVolume, v, 4#3⟩ ∧ t.eng.phase = .idle := by
  obtain ⟨s1, run1, env1, cfg1, seq1, st1⟩ :=
    step_on_e1 (n := 3) (s := accept .setVolume v s) (c := s.cfg) he rfl rfl rfl (by decide)
  obtain ⟨s2, run2, env2, cfg2, seq2, st2⟩ := step_on_e1 (n := 2) env1 cfg1 seq1 rfl (by decide)
  obtain ⟨s3, run3, env3, cfg3, seq3, st3⟩ := step_on_e1 (n := 1) env2 cfg2 seq2 rfl (by decide)
  obtain ⟨t, run4, env4, seq4, phase4, st4⟩ := step_last (n := 0) (s := s3) (g := s.cfg.aVolHold) (v := vRelease)
    (env3 ▸ passes_e1) passes_e1 (by rw [cfg3, seq3]; rfl) (by rw [seq3]; rfl)
  exact ⟨s1, s2, s3, t, run1.trans (run2.trans (run3.trans run4)), st1, st2, st3, st4, env4, st4.cfg.trans cfg3,
    seq4.trans seq3, phase4⟩

/-- So `SET_VOLUME` leaves its code in channel 1. -/
theorem exec_setVolume_e1 {s : State} (v : Byte) (hi : s.idle = true) (he : s.env = .e1) (hd : s.cfg.Distinct) :
    ∃ t, exec (.setVolume v) s = .next t ∧ t.idle = true ∧ t.cfg = s.cfg ∧ t.env = .e1 ∧
      t.dev.held s.cfg.aVolCh1 = volumeCode v := by
  obtain ⟨s1, s2, s3, t, hrun, st1, st2, st3, st4, henv, hcfg, -, hphase⟩ := runCommand_setVolume_e1 v he
  obtain ⟨-, -, -, -, -, -, -, hch2, hhold, -⟩ := distinct_facts hd
  refine ⟨completeOk vRelease t, (exec_cmd .setVolume v s hi).trans (by rw [hrun]), by simp [State.idle, hphase], hcfg,
    henv, ?_⟩
  rw [completeOk_dev, st4.held, if_neg hhold, st3.held, if_neg hch2, st2.held, if_pos rfl]

theorem exec_getVolume_e1 {s : State} {v : Byte} (x : Byte) (hi : s.idle = true) (he : s.env = .e1)
    (hheld : s.dev.held s.cfg.aVolCh1 = volumeCode v) :
    ∃ u, exec (.getVolume x) s = .next u ∧ u.res.status = false ∧ u.res.value = some v := by
  obtain ⟨u, hu, hres⟩ := exec_of_read (op := .getVolume) (arg := x) hi (he ▸ passes_e1) rfl
  refine ⟨u, hu, by rw [hres], ?_⟩
  rw [hres, hheld]
  exact congrArg some (volumeCode_volumeCode v)

theorem exec_getFilter_e1 {s : State} {x : Byte} (y : Byte) (hi : s.idle = true) (he : s.env = .e1)
    (hheld : s.dev.held s.cfg.aFilter = shapeCode x) :
    ∃ u, exec (.getFilter y) s = .next u ∧ u.res.status = false ∧ u.res.value = some (x &&& 0x07#8) ∧
      (x.toNat < 8 → u.res.value = some x) := by
  obtain ⟨u, hu, hres⟩ := exec_of_read (op := .getFilter) (arg := y) hi (he ▸ passes_e1) rfl
  have hvalue : u.res.value = some (x &&& 0x07#8) := by
    rw [hres, hheld]
    exact congrArg some (shapeOf_shapeCode x)
  exact ⟨u, hu, by rw [hres], hvalue, fun h => by rw [hvalue, mask_of_lt h]⟩

/-- A verified write the masking device does not hold: ten writes, ten read-backs, and the error (R146, R201). -/
theorem transact_masked {s : State} {m k v : Byte} (he : s.env = .e3 m k) (hne : v &&& k ≠ v) :
    ∃ new, (transact (writeReq m v) s).history = s.history ++ new ∧
      writesOf new = List.replicate 10 (s.cfg.devAddr, m, v) ∧ readsOf new = List.replicate 10 (s.cfg.devAddr, m) ∧
      (transact (writeReq m v) s).eng.phase = .done ∧
      (transact (writeReq m v) s).eng.rsp = some (.err m s.cfg.codeGenericIo) ∧
      (transact (writeReq m v) s).dev.held m = v &&& k :=
  transactFrom_masked 9 (engLatch (writeReq m v) s) (by omega) rfl he rfl rfl rfl hne

end Sys2Proof.Machine
end

section
/-! What a call does not see: a change of the state that every piece of a call commutes with is carried through the call
(R111, R112). -/

namespace Sys2Proof.Machine

/-- A change of the state that no piece of an engine call reads or overwrites. -/
structure Unseen (f : State → State) : Prop where
  cfg : ∀ s, (f s).cfg = s.cfg
  reg : ∀ s, (f s).eng.reg = s.eng.reg
  isWrite : ∀ s, (f s).eng.isWrite = s.eng.isWrite
  attempt : ∀ s, (f s).eng.attempt = s.eng.attempt
  /-- The value and the verify bit latched for a write are read. -/
  val : ∀ s, s.eng.isWrite = true → (f s).eng.val = s.eng.val
  verify : ∀ s, s.eng.isWrite = true → (f s).eng.verify = s.eng.verify
  dev : ∀ s, (f s).dev = s.dev
  draws : ∀ s, (f s).draws = s.draws
  answer : ∀ s addr p, envAnswer (f s) addr p = envAnswer s addr p
  written : ∀ s addr reg val t, deviceAfterWrite (f s) addr reg val t = deviceAfterWrite s addr reg val t
  bus : ∀ s env dev n es, { f s with env := env, dev := dev, draws := n, history := (f s).history ++ es } =
    f { s with env := env, dev := dev, draws := n, history := s.history ++ es }
  settle : ∀ p s, enterSettle p (f s) = f (enterSettle p s)
  readback : ∀ s, enterReadback (f s) = f (enterReadback s)
  backoff : ∀ s, enterBackoff (f s) = f (enterBackoff s)
  delay : ∀ k s, delay k (f s) = f (delay k s)
  next : ∀ s, nextAttempt (f s) = f (nextAttempt s)
  code : ∀ c s, { f s with eng := { (f s).eng with lastCode := some c } } =
    f { s with eng := { s.eng with lastCode := some c } }
  log : ∀ v s, logEvent v (f s) = f (logEvent v s)
  respond : ∀ r s, respond r (f s) = f (respond r s)

/-- The end of a pass with its state changed. -/
def Iter.map (f : State → State) : Iter → Iter
  | .hung s => .hung (f s)
  | .ended s => .ended (f s)
  | .again s => .again (f s)

theorem primary_ok_isWrite {s u : State} (h : primary s = some (.ok, u)) : u.eng.isWrite = true := by
  obtain ⟨t, rfl, heng, ⟨hw, -⟩ | ⟨-, _, hp, -⟩ | ⟨-, _, hp, -⟩ | ⟨-, _, hp, -⟩⟩ := primary_spec h
  · exact (congrArg EngState.isWrite heng).trans hw
  all_goals cases hp

namespace Unseen

variable {f : State → State} (hf : Unseen f)
include hf

theorem attemptsLeft (s : State) : attemptsLeft (f s) = attemptsLeft s := by
  rw [Machine.attemptsLeft, Machine.attemptsLeft, hf.attempt]

theorem succeed (b : Byte) (s : State) : succeed b (f s) = f (succeed b s) := by
  rw [Machine.succeed, hf.log, hf.respond, Machine.succeed]

/-- A failed write logs its value, a failed read none. -/
theorem noteFailure (c : Code) (s : State) : noteFailure c (f s) = f (noteFailure c s) := by
  have hlog : (if (f s).eng.isWrite then some (f s).eng.val else none) =
      if s.eng.isWrite then some s.eng.val else none := by
    rw [hf.isWrite]
    split
    · rename_i hw
      rw [hf.val s hw]
    · rfl
  rw [Machine.noteFailure, Machine.noteFailure, hlog, hf.code, hf.log]

theorem failIteration (c : Code) (s : State) : failIteration c (f s) = f (failIteration c s) := by
  have hreg : (f (Machine.noteFailure c s)).eng.reg = (Machine.noteFailure c s).eng.reg := hf.reg _
  rw [Machine.failIteration, Machine.failIteration, hf.attemptsLeft, hf.noteFailure]
  split
  · exact hf.backoff _
  · rw [raiseIoError, hreg, hf.respond, raiseIoError]

theorem failedPass (c : Code) (s : State) : failedPass c (f s) = (failedPass c s).map f := by
  rw [Machine.failedPass, Machine.failedPass, hf.attemptsLeft, hf.failIteration]
  split <;> rfl

theorem judgeReadback (q : ReadAnswer) {s : State} (hw : s.eng.isWrite = true) :
    judgeReadback q (f s) = (judgeReadback q s).map f := by
  cases q with
  | err c => exact hf.failedPass c s
  | ok b =>
    simp only [Machine.judgeReadback, hf.val s hw, hf.cfg]
    split
    · exact congrArg Iter.ended (hf.succeed _ s)
    · exact hf.failedPass _ s

theorem busWrite (addr : Addr7) (reg val : Byte) (s : State) :
    busWrite addr reg val (f s) = (busWrite addr reg val s).map (Prod.map id f) := by
  have hanswer := hf.answer s addr (.write reg val)
  cases ha : envAnswer s addr (.write reg val) with
  | none => simp [Machine.busWrite, hanswer, ha]
  | some y =>
    rw [busWrite_of_turn ha, busWrite_of_turn (hanswer.trans ha), hf.draws, hf.written, hf.bus]
    rfl

theorem busRead (addr : Addr7) (reg : Byte) (s : State) :
    busRead addr reg (f s) = (busRead addr reg s).map (Prod.map id f) := by
  have hanswer := hf.answer s addr (.read reg)
  cases ha : envAnswer s addr (.read reg) with
  | none => simp [Machine.busRead, hanswer, ha]
  | some y =>
    have hdev : (if addr = (f s).cfg.devAddr then { (f s).dev with settling := true } else (f s).dev : Device) =
        if addr = s.cfg.devAddr then { s.dev with settling := true } else s.dev := by rw [hf.cfg, hf.dev]
    rw [busRead_of_turn ha, busRead_of_turn (hanswer.trans ha), hf.draws, hdev, hf.bus]
    rfl

theorem primary (s : State) : primary (f s) = (primary s).map (Prod.map id f) := by
  cases hw : s.eng.isWrite with
  | true =>
    rw [primary_of_write hw, primary_of_write ((hf.isWrite s).trans hw), hf.cfg, hf.reg, hf.val s hw, hf.busWrite,
      Option.map_map, Option.map_map]
    exact congrArg (Option.map · _) (funext fun x => congrArg (Prod.mk _) (hf.settle _ x.2))
  | false =>
    rw [primary_of_read hw, primary_of_read ((hf.isWrite s).trans hw), hf.cfg, hf.reg, hf.busRead, Option.map_map,
      Option.map_map]
    exact congrArg (Option.map · _) (funext fun x => congrArg (Prod.mk _) (hf.settle _ x.2))

theorem iteration (s : State) : iteration (f s) = (iteration s).map f := by
  have hprimary := hf.primary s
  cases h : Machine.primary s with
  | none =>
    rw [h] at hprimary
    rw [iteration_silent h, iteration_silent hprimary]
    rfl
  | some x =>
    obtain ⟨p, u⟩ := x
    rw [h] at hprimary
    have hdelay := hf.delay .settle u
    cases p with
    | okByte b =>
      rw [iteration_read h, iteration_read hprimary]
      exact congrArg Iter.ended ((congrArg _ hdelay).trans (hf.succeed b _))
    | err c =>
      rw [iteration_err h, iteration_err hprimary]
      exact (congrArg _ hdelay).trans (hf.failedPass c _)
    | ok =>
      have hw := primary_ok_isWrite h
      cases hv : u.eng.verify with
      | false =>
        rw [iteration_unverified h hv, iteration_unverified hprimary ((hf.verify u hw).trans hv)]
        simp only [hf.val u hw, hdelay, hf.succeed]
        rfl
      | true =>
        have hv' := (hf.verify u hw).trans hv
        have hread : Machine.busRead (f u).cfg.devAddr (f u).eng.reg (enterReadback (Machine.delay .settle (f u))) =
            (Machine.busRead u.cfg.devAddr u.eng.reg (enterReadback (Machine.delay .settle u))).map
              (Prod.map id f) := by
          rw [hf.cfg, hf.reg, hdelay, hf.readback, hf.busRead]
        cases hb : Machine.busRead u.cfg.devAddr u.eng.reg (enterReadback (Machine.delay .settle u)) with
        | none =>
          rw [hb] at hread
          rw [iteration_unread h hv hb, iteration_unread hprimary hv' hread, hdelay, hf.readback]
          rfl
        | some y =>
          obtain ⟨q, w⟩ := y
          rw [hb] at hread
          rw [iteration_written h hv hb, iteration_written hprimary hv' hread]
          exact hf.judgeReadback q ((congrArg EngState.isWrite (busRead_eng hb)).trans hw)

theorem transactFrom (n : Nat) : ∀ s : State, transactFrom n (f s) = f (transactFrom n s) := by
  induction n with
  | zero => intro s; rfl
  | succ n ih =>
    intro s
    rw [Machine.transactFrom, Machine.transactFrom, hf.iteration]
    cases Machine.iteration s with
    | hung t => rfl
    | ended t => rfl
    | again t => exact (congrArg _ (hf.next t)).trans (ih (nextAttempt t))

end Unseen

/-! The bits of a read that are latched and never read (R24, R111) -/

/-- The engine with other verify and value bits latched for a read; a write's are kept. -/
def EngState.relatch (v : Bool) (x : Byte) (e : EngState) : EngState :=
  { e with verify := if e.isWrite then e.verify else v, val := if e.isWrite then e.val else x }

/-- The same state with other verify and value bits latched for a read. -/
def State.relatch (v : Bool) (x : Byte) (s : State) : State := { s with eng := s.eng.relatch v x }

theorem unseen_relatch (v : Bool) (x : Byte) : Unseen (State.relatch v x) where
  cfg _ := rfl
  reg _ := rfl
  isWrite _ := rfl
  attempt _ := rfl
  val _ hw := if_pos hw
  verify _ hw := if_pos hw
  dev _ := rfl
  draws _ := rfl
  answer _ _ _ := rfl
  written _ _ _ _ _ := rfl
  bus _ _ _ _ _ := rfl
  settle _ _ := rfl
  readback _ := rfl
  backoff _ := rfl
  delay _ _ := rfl
  next _ := rfl
  code _ _ := rfl
  log _ _ := rfl
  respond _ _ := rfl

/-! The operand latch and the history so far (R22, R52) -/

/-- The same state with another operand latched and the stretch `h` before its history. -/
def State.withPast (x : Byte) (h : List Event) (s : State) : State :=
  { s with seq := { s.seq with arg := x }, history := h ++ s.history }

theorem unseen_withPast (x : Byte) (h : List Event) : Unseen (State.withPast x h) where
  cfg _ := rfl
  reg _ := rfl
  isWrite _ := rfl
  attempt _ := rfl
  val _ _ := rfl
  verify _ _ := rfl
  dev _ := rfl
  draws _ := rfl
  answer _ _ _ := rfl
  written _ _ _ _ _ := rfl
  bus _ _ _ _ _ := by simp [State.withPast]
  settle _ _ := rfl
  readback _ := rfl
  backoff _ := rfl
  delay _ _ := rfl
  next _ := rfl
  code _ _ := rfl
  log _ _ := by simp [logEvent, State.withPast]
  respond _ _ := rfl

theorem Unseen.transact {f : State → State} (hf : Unseen f) {r r' : XReq} {s s' : State}
    (h : engLatch r' s' = f (engLatch r s)) : transact r' s' = f (transact r s) := by
  rw [Machine.transact, Machine.transact, h, hf.transactFrom]

/-- A read's verify and value bits pass through its call into the latch, and nothing else. -/
theorem engineCall_relatch (v v' : Bool) (reg x x' : Byte) (s : State) :
    engineCall ⟨reg, x', false, v'⟩ s = (engineCall ⟨reg, x, false, v⟩ s).relatch v' x' := by
  have hcall : transact ⟨reg, x', false, v'⟩ s = (transact ⟨reg, x, false, v⟩ s).relatch v' x' :=
    (unseen_relatch v' x').transact rfl
  have hphase : (transact ⟨reg, x', false, v'⟩ s).eng.phase = (transact ⟨reg, x, false, v⟩ s).eng.phase := by
    rw [hcall]; rfl
  simp only [engineCall, hphase]
  split
  · rw [hcall]; rfl
  · exact hcall

theorem relatch_of_read (v : Bool) (x : Byte) {s : State} (h : s.eng.isWrite = false) :
    s.relatch v x = { s with eng := { s.eng with verify := v, val := x } } := by
  simp [State.relatch, EngState.relatch, h]

theorem errorEntry_withPast (x : Byte) (h : List Event) (g : Byte) (c : Code) (s : State) :
    errorEntry g c (s.withPast x h) = (errorEntry g c s).withPast x h := by
  simp [errorEntry, flagsAtCompletion, State.withPast]

theorem completeOk_withPast (x : Byte) (h : List Event) (b : Byte) (s : State) :
    completeOk b (s.withPast x h) = (completeOk b s).withPast x h := by
  simp [completeOk, flagsAtCompletion, State.withPast]

theorem takeResponse_last {b : Byte} {s : State} (hl : s.seq.step.toNat = microLen s.seq.op) :
    takeResponse (.ok b) s = completeOk b (engRelease s) := if_pos hl

theorem takeResponse_on {b : Byte} {s : State} (hl : s.seq.step.toNat ≠ microLen s.seq.op) :
    takeResponse (.ok b) s = nextStep s := if_neg hl

theorem takeResponse_withPast (x : Byte) (h : List Event) (r : XRsp) (s : State) :
    takeResponse r (s.withPast x h) = (takeResponse r s).withPast x h := by
  cases r with
  | err g c => exact errorEntry_withPast x h g c (engRelease s)
  | ok b =>
    by_cases hl : s.seq.step.toNat = microLen s.seq.op
    · rw [takeResponse_last hl, takeResponse_last (s := s.withPast x h) hl]
      exact completeOk_withPast x h b (engRelease s)
    · rw [takeResponse_on hl, takeResponse_on (s := s.withPast x h) hl]
      rfl

/-- The four commands that ignore their operand (R112). -/
theorem micro_ignores {op : Op} (hv : op ≠ .setVolume) (hf : op ≠ .setFilter) (c : Config) (x y : Byte) (k : BitVec 3) :
    micro c op x k = micro c op y k := by
  cases op with
  | setVolume => exact absurd rfl hv
  | setFilter => exact absurd rfl hf
  | getVolume => rfl
  | getFilter => rfl
  | enable => rfl
  | disable => rfl

theorem runSteps_withPast (x : Byte) (h : List Event) (n : Nat) : ∀ s : State, s.seq.op ≠ .setVolume →
    s.seq.op ≠ .setFilter → runSteps n (s.withPast x h) = (runSteps n s).withPast x h := by
  induction n with
  | zero => intro s _ _; rfl
  | succ n ih =>
    intro s hv hf
    have hmicro : micro (s.withPast x h).cfg (s.withPast x h).seq.op (s.withPast x h).seq.arg
        (s.withPast x h).seq.step = micro s.cfg s.seq.op s.seq.arg s.seq.step := micro_ignores hv hf _ _ _ _
    rw [runSteps, runSteps, hmicro]
    cases micro s.cfg s.seq.op s.seq.arg s.seq.step with
    | none => rfl
    | some req =>
      have hcall : transact req (s.withPast x h) = (transact req s).withPast x h := (unseen_withPast x h).transact rfl
      have hphase : ((transact req s).withPast x h).eng.phase = (transact req s).eng.phase := rfl
      have hrsp : ((transact req s).withPast x h).eng.rsp = (transact req s).eng.rsp := rfl
      simp only [hcall, takeResponse_withPast, hphase, hrsp]
      split
      · rename_i r _ _
        have hop : (takeResponse r (transact req s)).seq.op = s.seq.op := by
          obtain ⟨-, -, -, -, -, hop, -⟩ := takeResponse_frame r (transact req s)
          rw [hop, transact_seq]
        have hbusy : ((takeResponse r (transact req s)).withPast x h).seq.busy =
            (takeResponse r (transact req s)).seq.busy := rfl
        rw [hbusy]
        split
        · exact ih _ (hop ▸ hv) (hop ▸ hf)
        · rfl
      · rfl

/-- The state of an acceptance with no operand and nothing recorded. -/
def acceptBlank (op : Op) (s : State) : State := { accept op 0#8 s with history := [] }

theorem accept_eq_withPast (op : Op) (x : Byte) (s : State) :
    accept op x s = (acceptBlank op s).withPast x (s.history ++ [.accepted op x]) := by
  simp [acceptBlank, State.withPast, accept, flagsAtAccept]

end Sys2Proof.Machine
end

section
/-! The statements of `spec/30_encoding.md`. -/

namespace Sys2Proof.Machine

/-- Settles O1: a primitive, a request and a command are each decoded at the interface of their format. -/
theorem decodeOfEncode : Obligations.DecodeOfEncode := by
  intro i
  obtain ⟨addr, reg, val, rfl⟩ | ⟨addr, reg, spare, rfl⟩ | ⟨r, rfl⟩ | ⟨op, arg, rfl⟩ := instr_kinds i
  · exact decode_encodeBusp false addr reg val
  · exact decode_encodeBusp true addr reg spare
  · rw [encode_reqInstr]
    exact decode_encodeXreq r
  · rw [encode_cmd]
    exact decode_encodeCmd op arg

/-- Settles O2: at each interface the fields the decoder takes out are, side by side, the word. -/
theorem encodeOfDecode : Obligations.EncodeOfDecode := by
  intro r i h
  cases r with
  | cmd w => exact encode_decodeCmd h
  | xreq w =>
    cases h
    exact encode_decodeXreq w
  | busp w =>
    cases h
    exact encode_decodeBusp w

/-- Settles O21: the two runs are one run but for the latched bits, which a call that reads keeps out of all it does. -/
theorem verifyIgnoredOnReads : Obligations.VerifyIgnoredOnReads := by
  intro s v v' reg x x' hi
  obtain ⟨-, -, hread, -⟩ := (engineCall_moves ⟨reg, x, false, v⟩ s).latch
  refine ⟨_, exec_req ⟨reg, x, false, v⟩ s hi, (exec_req ⟨reg, x', false, v'⟩ s hi).trans ?_⟩
  rw [engineCall_relatch v v', relatch_of_read v' x' hread]

/-- Settles O32: both runs are one run from the acceptance, with its own operand latched and its own past before it. -/
theorem operandIgnored : Obligations.OperandIgnored := by
  intro s op x y hi hv hf
  have hrun (z : Byte) : exec (op.instr z) s =
      .next ((runSteps 4 (acceptBlank op s)).withPast z (s.history ++ [.accepted op z])) := by
    rw [exec_cmd op z s hi, runCommand, accept_eq_withPast, runSteps_withPast z _ 4 (acceptBlank op s) hv hf]
  refine ⟨_, (runSteps 4 (acceptBlank op s)).history, hrun x, by simp [State.withPast], (hrun y).trans ?_⟩
  simp [State.withPast]

/-- Settles O41: a get command returns the decoded byte held, and a set command leaves the encoded operand there. -/
theorem roundTrips : Obligations.RoundTrips := by
  intro s v x y hi he
  refine ⟨exec_getVolume_e1 y hi he, exec_getFilter_e1 y hi he, fun hd => ?_, ?_⟩
  · obtain ⟨t, ht, hidle, hcfg, henv, hheld⟩ := exec_setVolume_e1 v hi he hd
    obtain ⟨u, hu⟩ := exec_getVolume_e1 y hidle henv (by rw [hcfg]; exact hheld)
    exact ⟨t, u, ht, hu⟩
  · obtain ⟨t, ht, hidle, hcfg, henv, hheld⟩ :=
      exec_of_write (op := .setFilter) (arg := x) hi (he ▸ passes_e1) passes_e1 rfl
    obtain ⟨u, hu⟩ := exec_getFilter_e1 y hidle henv (by rw [hcfg]; exact hheld)
    exact ⟨t, u, ht, hu⟩

/-- Settles O45: every read-back differs from the value written, so the first step's call ends in the error. -/
theorem maskedFilterFails : Obligations.MaskedFilterFails := by
  intro s x k hi he hne
  obtain ⟨new, hhist, hwrites, hreads, hphase, hrsp, hheld⟩ :=
    transact_masked (s := accept .setFilter x s) (v := shapeCode x) he hne
  refine ⟨_, .accepted .setFilter x :: new ++ [.completed .setFilter true], exec_cmd .setFilter x s hi, ?_⟩
  rw [runCommand, runSteps_abort (n := 3) rfl hphase hrsp]
  refine ⟨by simp [State.idle], ?_, by simp, ?_, ?_, hheld⟩
  · simp [hhist]
  · exact Eq.trans (by simp [writesOf]) hwrites
  · exact Eq.trans (by simp [readsOf]) hreads

/-- Settles O49: a row of a call, the start of one and the taking of a response accept nothing. -/
theorem busyBlockAcceptsNothing : Obligations.BusyBlockAcceptsNothing := by
  intro s t hi h
  have ht : tick s = .next t := by simpa [step, hi] using h
  exact ⟨(tick_keepsPorts ht).inbox, (tick_keepsPorts ht).busPort, tick_acceptsNothing ht⟩

/-- Settles O56: each field is read off the concatenation at the place where it was put. -/
theorem resultWordLayout : Obligations.ResultWordLayout := by
  intro s
  simp only [resWord, append_low, append_high_bit, append_high_field, append_low_bit, Nat.lt_one_iff,
    Nat.reduceLeDiff, Nat.reduceSub]
  refine ⟨by simp, by simp, ?_, ?_, ?_, ?_, ?_⟩ <;> intro x h <;> simp [h]

/-- Settles O3: eleven closed words, decoded. -/
theorem writtenWordsDecode : Obligations.WrittenWordsDecode := by
  unfold Obligations.WrittenWordsDecode
  decide

/-- Settles O4: no command has such an opcode, so the host's move is refused when it is fetched. -/
theorem reservedOpcodesRefused : Obligations.ReservedOpcodesRefused := by
  intro w rest s hw
  have hdec : decode (.cmd w) = .error (.reservedOpcode (w.extractLsb' 8 3)) := decodeCmd_reserved hw
  refine ⟨hdec, fun hi hport hinbox => ?_⟩
  have hfetch : fetch s = .refused (.reservedOpcode (w.extractLsb' 8 3)) :=
    (fetch_of_no_busPort hport).trans (fetchHost_of_reserved hinbox rfl rfl hdec)
  simp [step, hi, hfetch]

/-- Settles O5: the code is the complement. -/
theorem volumeInversion : Obligations.VolumeInversion := by
  intro v
  have hnot := volumeCode_eq_not v
  refine ⟨?_, hnot, ?_, volumeCode_volumeCode v, volumeCode_volumeCode v⟩
  · rw [hnot, BitVec.toNat_not]
  · rw [hnot, ← BitVec.xor_allOnes]
    rfl

/-- Settles O6: the fixed bits and the mask are disjoint. -/
theorem filterOperands : Obligations.FilterOperands := by
  intro x
  refine ⟨rfl, rfl, ?_, shapeOf_shapeCode x, fun h => ?_⟩
  · rw [shapeOf, BitVec.toNat_and]
    exact Nat.and_lt_two_pow (n := 3) _ (by decide)
  · rw [shapeCode_toNat h, shapeOf_shapeCode]
    exact ⟨by omega, by omega, mask_of_lt h⟩

/-- Settles O46: an idle block fetches the word at the port to the environment, or with none there the host's. -/
theorem stepRunsTheDecodedInstruction : Obligations.StepRunsTheDecodedInstruction := by
  intro s i hi
  refine ⟨fun w hport hdec => ?_, fun m rest r hport hinbox hopen hword hdec => ?_⟩
  · cases hdec
    simp [step, hi, fetch_of_busPort hport]
  · have hfetch : fetch s = .instr i { s with inbox := rest } :=
      (fetch_of_no_busPort hport).trans (fetchHost_of_decoded hinbox hopen hword hdec)
    simp [step, hi, hfetch]

/-- Settles O47: nothing is fetched. -/
theorem idleBlockWaits : Obligations.IdleBlockWaits := by
  intro s hi hport hinbox
  have hfetch : fetch s = .nothing := (fetch_of_no_busPort hport).trans (fetchHost_of_nil hinbox)
  simp [step, hi, hfetch]

end Sys2Proof.Machine
end

section
/-! A transport that has not answered, on which a call waits where it is (R130, U7); and what a primitive leaves of the
device (R131, R132). -/

namespace Sys2Proof.Machine

/-! The silent transport -/

theorem envAnswer_silent {s : State} (h : s.env = .told []) (addr : Addr7) (p : Prim) : envAnswer s addr p = none := by
  simp only [envAnswer, h]

theorem busWrite_silent {s : State} (h : s.env = .told []) (addr : Addr7) (reg val : Byte) :
    busWrite addr reg val s = none := by
  simp only [busWrite, envAnswer_silent h]

theorem busRead_silent {s : State} (h : s.env = .told []) (addr : Addr7) (reg : Byte) : busRead addr reg s = none := by
  simp only [busRead, envAnswer_silent h]

theorem primary_silent {s : State} (h : s.env = .told []) : primary s = none := by
  cases hw : s.eng.isWrite with
  | true => rw [primary_of_write hw, busWrite_silent h, Option.map_none]
  | false => rw [primary_of_read hw, busRead_silent h, Option.map_none]

/-- In the two phases that wait for the transport the engine has no row. -/
theorem engTick_silent {s : State} (h : s.env = .told []) (hp : s.eng.phase = .primary ∨ s.eng.phase = .readback) :
    engTick s = none := by
  obtain hp | hp := hp
  · simp only [engTick, hp, rowPrimary, primary_silent h]
  · simp only [engTick, hp, rowReadback, busRead_silent h]

/-- So the block has no step, a command in progress or not (R130, R247). -/
theorem step_silent {s : State} (h : s.env = .told []) (hp : s.eng.phase = .primary ∨ s.eng.phase = .readback) :
    step s = .fault .envSilent := by
  have hrow := engTick_silent h hp
  obtain hp | hp := hp <;> simp [step, State.idle, tick, hp, hrow]

/-- A call on a silent transport gets no further than its latch. -/
theorem transact_silent (r : XReq) {s : State} (h : s.env = .told []) : transact r s = engLatch r s := by
  rw [transact, nAttempts, transactFrom, iteration_silent (primary_silent (s := engLatch r s) h)]

/-- A command on a silent transport gets no further than the latch of its first step. -/
theorem runCommand_silent (op : Op) (arg : Byte) {s : State} (h : s.env = .told []) :
    ∃ req, runCommand op arg s = engLatch req (accept op arg s) := by
  obtain ⟨req, hm⟩ := micro_isSome s.cfg op arg (k := 1#3) le_rfl (one_le_microLen op)
  have hcall : transact req (accept op arg s) = engLatch req (accept op arg s) := transact_silent req h
  exact ⟨req, (runSteps_hung (s := accept op arg s) hm (.inl (by rw [hcall]; rfl))).trans hcall⟩

/-- A call for which the told answers do not suffice waits with all of them used. -/
theorem transact_hung_of_told {r : XReq} {s : State} {turns : List Turn} (he : s.env = .told turns)
    (h : callTrace s.cfg r 10 turns = none) : ∃ used, CallHung 10 (engLatch r s) (transact r s) used := by
  obtain ⟨used, q, hdone⟩ | hhung := transact_spec r s
  · obtain ⟨more, rfl, -⟩ := hdone.serves.told turns he
    have hends : callTrace s.cfg r 10 (used ++ more) = some { q with rest := more } := hdone.trace more
    rw [h] at hends
    cases hends
  · exact hhung

/-! The device -/

/-- A write to another bus address leaves the device (log entry 18). -/
theorem deviceAfterWrite_elsewhere {s : State} {addr : Addr7} (h : addr ≠ s.cfg.devAddr) (reg val : Byte) (t : Turn) :
    deviceAfterWrite s addr reg val t = s.dev := if_neg h

/-- A read changes at most that the device is settling. -/
theorem afterRead_eq_settling (s : State) (addr : Addr7) : ∃ x,
    (if addr = s.cfg.devAddr then { s.dev with settling := true } else s.dev : Device) = { s.dev with settling := x } := by
  split
  · exact ⟨true, rfl⟩
  · exact ⟨s.dev.settling, rfl⟩

end Sys2Proof.Machine
end

section
/-! The statements of `spec/40_bus_primitives.md`. -/

namespace Sys2Proof.Machine

/-- Settles O11: an answered write touches the device as its turn says and an answered read only its settling; the rest
of the state but the bookkeeping stays. -/
theorem busPrimitivesCompleteAndFrame : Obligations.BusPrimitivesCompleteAndFrame := by
  intro s addr reg val spare hi he
  constructor
  · obtain ⟨turn, env, ha⟩ := envAnswer_of_ne_told he addr (.write reg val)
    exact ⟨_, _, exec_busWrite_of_some hi (busWrite_of_turn ha), rfl, rfl, rfl, rfl, rfl, rfl, rfl, rfl,
      fun haddr => deviceAfterWrite_elsewhere haddr reg val turn, fun hk _ => held_afterWrite_other s addr val turn hk⟩
  · obtain ⟨turn, env, ha⟩ := envAnswer_of_ne_told he addr (.read reg)
    obtain ⟨x, hdev⟩ := afterRead_eq_settling s addr
    refine ⟨_, _, exec_busRead_of_some spare hi (busRead_of_turn ha), rfl, rfl, rfl, rfl, rfl, rfl, rfl, rfl, ?_⟩
    rw [hdev]
    exact ⟨rfl, rfl, rfl, rfl, held_settling s.dev x⟩

/-- Settles O16: the call takes every answer, and then the row of its phase is not enabled. -/
theorem engineHangsWithoutAnswers : Obligations.EngineHangsWithoutAnswers := by
  intro s r turns hi he htrace
  obtain ⟨used, hhung⟩ := transact_hung_of_told he htrace
  exact ⟨transact r s, (exec_req r s hi).trans (by rw [engineCall_hung hhung]), hhung.phase, hhung.env,
    step_silent hhung.env hhung.phase⟩

/-- Settles O34: the command is the latch of its first step's request on the accepted state. -/
theorem commandWaitsForTheTransport : Obligations.CommandWaitsForTheTransport := by
  intro s op arg hi he
  obtain ⟨req, hrun⟩ := runCommand_silent op arg he
  exact ⟨engLatch req (accept op arg s), (exec_cmd op arg s hi).trans (by rw [hrun]), rfl, rfl, rfl, rfl, rfl, rfl,
    step_silent he (.inl rfl)⟩

/-- Settles O12: the primitive itself has no answer. -/
theorem silentTransportStops : Obligations.SilentTransportStops := by
  intro s addr reg val hi he
  constructor
  · simp [exec, execBusWrite, hi, busWrite_silent he]
  · simp [exec, execBusRead, hi, busRead_silent he]

end Sys2Proof.Machine
end

section
/-! The rows of R142 one by one, and as the passes of R141's loop (R143); the steps without a rule (R142, R173). -/

namespace Sys2Proof.Machine

/-! The rows from `E_SETTLE` and `E_READBACK` -/

theorem rowSettle_of_okByte {s : State} {b : Byte} (h : s.eng.prim = .okByte b) :
    rowSettle s = succeed b (delay .settle s) := by
  simp [rowSettle, h]

theorem rowSettle_of_err {s : State} {c : Code} (h : s.eng.prim = .err c) :
    rowSettle s = failIteration c (delay .settle s) := by
  simp [rowSettle, h]

theorem rowSettle_of_verified {s : State} (h : s.eng.prim = .ok) (hv : s.eng.verify = true) :
    rowSettle s = enterReadback (delay .settle s) := by
  simp [rowSettle, h, hv]

theorem rowSettle_of_unverified {s : State} (h : s.eng.prim = .ok) (hv : s.eng.verify = false) :
    rowSettle s = succeed s.eng.val (delay .settle s) := by
  simp [rowSettle, h, hv]

theorem failedPass_state (c : Code) (s : State) : (failedPass c s).state = failIteration c s := by
  unfold failedPass
  split <;> rfl

theorem attemptsLeft_iff (s : State) : attemptsLeft s = true ↔ s.eng.attempt.toNat ≤ 9 :=
  decide_eq_true_iff.trans Nat.lt_succ_iff

/-- The row FAIL: the code and the log entry, then the back-off or, after the tenth attempt, the error. -/
theorem failIteration_row (c : Code) (s : State) : (failIteration c s).eng.lastCode = some c ∧
    (failIteration c s).history =
      s.history ++ [.log s.eng.attempt s.eng.reg (if s.eng.isWrite then some s.eng.val else none)] ∧
    (s.eng.attempt.toNat ≤ 9 → (failIteration c s).eng.phase = .backoff ∧ (failIteration c s).eng.rsp = s.eng.rsp) ∧
    (9 < s.eng.attempt.toNat →
      (failIteration c s).eng.phase = .done ∧ (failIteration c s).eng.rsp = some (.err s.eng.reg c)) := by
  have hiff := attemptsLeft_iff s
  cases hleft : attemptsLeft s with
  | true =>
    have hle := hiff.1 hleft
    rw [failIteration_eng_again c s hleft]
    exact ⟨rfl, failIteration_history c s, fun _ => ⟨rfl, rfl⟩, fun hgt => absurd hle (Nat.not_le.2 hgt)⟩
  | false =>
    have hgt : ¬ s.eng.attempt.toNat ≤ 9 := fun hle => by simp [hiff.2 hle] at hleft
    rw [failIteration_eng_ended c s hleft]
    exact ⟨rfl, failIteration_history c s, fun hle => absurd hle hgt, fun _ => ⟨rfl, rfl⟩⟩

/-- The row T8 is the judgement of R141 on the same answer. -/
theorem rowReadback_of_read {s w : State} {q : ReadAnswer}
    (h : busRead s.cfg.devAddr s.eng.reg s = some (q, w)) : rowReadback s = some (judgeReadback q w).state := by
  cases q with
  | err c => simp only [rowReadback, h, judgeReadback, failedPass_state]
  | ok b =>
    simp only [rowReadback, h, judgeReadback]
    split
    · rfl
    · rw [failedPass_state]

/-! The row a phase enables -/

theorem engTick_of_primary {s : State} (h : s.eng.phase = .primary) : engTick s = (primary s).map Prod.snd := by
  simp only [engTick, h, rowPrimary]
  cases primary s <;> rfl

theorem engTick_of_settle {s : State} (h : s.eng.phase = .settle) : engTick s = some (rowSettle s) := by
  simp only [engTick, h]

theorem engTick_of_readback {s : State} (h : s.eng.phase = .readback) : engTick s = rowReadback s := by
  simp only [engTick, h]

theorem engTick_of_backoff {s : State} (h : s.eng.phase = .backoff) : engTick s = some (nextAttempt s) := by
  simp only [engTick, h]

theorem engTick_of_done {s : State} (h : s.eng.phase = .done) : engTick s = none := by
  simp only [engTick, h]

/-- While a call has no response yet, the engine has a row unless the transport is silent (R142, U7). -/
theorem env_of_engTick_none {s : State} (h : engTick s = none) (hi : s.eng.phase ≠ .idle) (hd : s.eng.phase ≠ .done) :
    s.env = .told [] := by
  cases hp : s.eng.phase with
  | idle => exact absurd hp hi
  | done => exact absurd hp hd
  | settle => rw [engTick_of_settle hp] at h; cases h
  | backoff => rw [engTick_of_backoff hp] at h; cases h
  | primary =>
    rw [engTick_of_primary hp, Option.map_eq_none_iff] at h
    exact primary_none h
  | readback =>
    rw [engTick_of_readback hp] at h
    cases hb : busRead s.cfg.devAddr s.eng.reg s with
    | none => exact busRead_none hb
    | some x => rw [rowReadback_of_read hb] at h; cases h

/-! Runs of rows -/

/-- From `s`, `m` rows lead to `t`. -/
def RowsReach (m : Nat) (s t : State) : Prop := ∀ k, engTicks (k + m) s = engTicks k t

theorem RowsReach.refl (s : State) : RowsReach 0 s s := fun _ => rfl

theorem RowsReach.head {m : Nat} {s t u : State} (h : engTick s = some t) (g : RowsReach m t u) :
    RowsReach (m + 1) s u := by
  intro k
  have hrow : engTicks (k + m + 1) s = engTicks (k + m) t := by simp only [engTicks, h]
  exact hrow.trans (g k)

theorem RowsReach.trans {m n : Nat} {s t u : State} (h : RowsReach m s t) (g : RowsReach n t u) :
    RowsReach (n + m) s u := by
  intro k
  rw [← Nat.add_assoc, h, g]

theorem RowsReach.engTicks_eq {m : Nat} {s t : State} (h : RowsReach m s t) : engTicks m s = t := by
  have hrun := h 0
  rwa [Nat.zero_add] at hrun

theorem primary_enters_settle {s u : State} {p : Answer} (h : primary s = some (p, u)) :
    u.eng.phase = .settle ∧ u.eng.prim = p := by
  obtain ⟨t, rfl, -⟩ := primary_spec h
  exact ⟨rfl, rfl⟩

/-- A pass of R141's loop is at most three rows. -/
theorem iteration_rows {s : State} (hp : s.eng.phase = .primary) :
    ∃ m, m ≤ 3 ∧ RowsReach m s (iteration s).state := by
  have hrow := engTick_of_primary hp
  cases h : primary s with
  | none =>
    rw [iteration_silent h]
    exact ⟨0, by omega, .refl s⟩
  | some x =>
    obtain ⟨p, u⟩ := x
    obtain ⟨hphase, hprim⟩ := primary_enters_settle h
    have hsettle := engTick_of_settle hphase
    rw [h] at hrow
    cases p with
    | okByte b =>
      rw [rowSettle_of_okByte hprim] at hsettle
      rw [iteration_read h]
      exact ⟨2, by omega, .head hrow (.head hsettle (.refl _))⟩
    | err c =>
      rw [rowSettle_of_err hprim] at hsettle
      rw [iteration_err h, failedPass_state]
      exact ⟨2, by omega, .head hrow (.head hsettle (.refl _))⟩
    | ok =>
      cases hv : u.eng.verify with
      | false =>
        rw [rowSettle_of_unverified hprim hv] at hsettle
        rw [iteration_unverified h hv]
        exact ⟨2, by omega, .head hrow (.head hsettle (.refl _))⟩
      | true =>
        rw [rowSettle_of_verified hprim hv] at hsettle
        cases hq : busRead u.cfg.devAddr u.eng.reg (enterReadback (delay .settle u)) with
        | none =>
          rw [iteration_unread h hv hq]
          exact ⟨2, by omega, .head hrow (.head hsettle (.refl _))⟩
        | some y =>
          have hback := engTick_of_readback (s := enterReadback (delay .settle u)) rfl
          rw [rowReadback_of_read hq] at hback
          rw [iteration_written h hv hq]
          exact ⟨3, by omega, .head hrow (.head hsettle (.head hback (.refl _)))⟩

/-- The loop with `n` passes left is at most `4 * n` rows: those of a pass, and the back-off before the next. -/
theorem transactFrom_rows (n : Nat) : ∀ s : State, s.eng.phase = .primary →
    ∃ m, m ≤ 4 * n ∧ RowsReach m s (transactFrom n s) := by
  induction n with
  | zero => intro s _; exact ⟨0, le_rfl, .refl s⟩
  | succ n ih =>
    intro s hp
    obtain ⟨m, hm, hpass⟩ := iteration_rows hp
    have hspec := iteration_spec s
    unfold transactFrom
    cases h : iteration s with
    | hung t => rw [h] at hpass; exact ⟨m, by omega, hpass⟩
    | ended t => rw [h] at hpass; exact ⟨m, by omega, hpass⟩
    | again t =>
      rw [h] at hpass hspec
      obtain ⟨-, -, -, -, hphase, -⟩ := hspec
      obtain ⟨m', hm', hrest⟩ := ih (nextAttempt t) rfl
      exact ⟨m' + 1 + m, by omega, hpass.trans (.head (engTick_of_backoff hphase) hrest)⟩

/-- Where a call ends or waits no row is enabled. -/
theorem engTick_transact (r : XReq) (s : State) : engTick (transact r s) = none := by
  obtain ⟨_, _, hdone⟩ | ⟨_, hhung⟩ := transact_spec r s
  · exact engTick_of_done hdone.phase
  · exact engTick_silent hhung.env hhung.phase

/-! Faults -/

theorem execBusWrite_fault {addr : Addr7} {reg val : Byte} {s : State} {f : Fault}
    (h : execBusWrite addr reg val s = .fault f) : f = .envSilent ∧ s.env = .told [] := by
  unfold execBusWrite at h
  split at h
  · split at h
    · cases h
    · rename_i hb
      cases h
      exact ⟨rfl, busWrite_none hb⟩
  · cases h

theorem execBusRead_fault {addr : Addr7} {reg spare : Byte} {s : State} {f : Fault}
    (h : execBusRead addr reg spare s = .fault f) : f = .envSilent ∧ s.env = .told [] := by
  unfold execBusRead at h
  split at h
  · split at h
    · cases h
    · rename_i hb
      cases h
      exact ⟨rfl, busRead_none hb⟩
  · cases h

/-- Of the instructions only a bus primitive can fault, and only for want of an answer. -/
theorem exec_fault {i : Instr} {s : State} {f : Fault} (hi : s.idle = true) (h : exec i s = .fault f) :
    f = .envSilent ∧ s.env = .told [] := by
  obtain ⟨addr, reg, val, rfl⟩ | ⟨addr, reg, spare, rfl⟩ | ⟨r, rfl⟩ | ⟨op, arg, rfl⟩ := instr_kinds i
  · exact execBusWrite_fault h
  · exact execBusRead_fault (spare := spare) h
  · rw [exec_req r s hi] at h
    cases h
  · rw [exec_cmd op arg s hi] at h
    cases h

/-- Taking a word from its port leaves the block as idle as it is, in the same environment. -/
theorem fetch_instr {s t : State} {i : Instr} (h : fetch s = .instr i t) : t.idle = s.idle ∧ t.env = s.env := by
  cases hport : s.busPort with
  | some w =>
    rw [fetch_of_busPort hport] at h
    cases h
    exact ⟨rfl, rfl⟩
  | none =>
    rw [fetch_of_no_busPort hport] at h
    unfold fetchHost at h
    split at h
    · cases h
    split at h
    · split at h
      · cases h
      · split at h
        · cases h
          exact ⟨rfl, rfl⟩
        · cases h
    · cases h

/-- Under the invariant a block in progress always has its rule: a busy sequencer is at a step of its command, and
`E_DONE` has its response. -/
theorem tick_fault {s : State} {f : Fault} (h : BlockInv s) (hi : s.idle = false) (ht : tick s = .fault f) :
    f = .envSilent ∧ s.env = .told [] := by
  unfold tick at ht
  split at ht
  · rename_i hp
    have hb : s.seq.busy = true := by simpa [State.idle, hp] using hi
    obtain ⟨req, hm⟩ := micro_isSome s.cfg s.seq.op s.seq.arg h.stepRange.1 (h.stepOfOp hb)
    rw [hm] at ht
    cases ht
  · rename_i hp
    obtain ⟨r, hr⟩ := Option.isSome_iff_exists.1 (h.doneRsp hp)
    rw [hr] at ht
    cases ht
  · rename_i hidle hdone
    split at ht
    · cases ht
    · rename_i hrow
      cases ht
      exact ⟨rfl, env_of_engTick_none hrow hidle hdone⟩

/-- With a response and no command in progress the step takes the response (T10). -/
theorem step_of_done {s : State} (hp : s.eng.phase = .done) (hb : s.seq.busy = false) (hr : s.eng.rsp.isSome = true) :
    step s = .next (engRelease s) := by
  obtain ⟨r, hr⟩ := Option.isSome_iff_exists.1 hr
  simp [step, State.idle, tick, hp, hb, hr]

end Sys2Proof.Machine
end

section
/-! What an engine call did, read off R141's loop on the answers it got: its delays, its last pass, its reads, and the
calls whose primary operation fails. -/

namespace Sys2Proof.Machine

theorem exec_req_done {r : XReq} {s : State} (hi : s.idle = true) (hp : (transact r s).eng.phase = .done) :
    exec (reqInstr r) s = .next (engRelease (transact r s)) := by
  rw [exec_req r s hi]
  simp only [engineCall, hp]

/-- A call for which the told answers suffice ends as R141's loop on them does, and leaves the other answers. -/
theorem transact_done_of_told {r : XReq} {s : State} {turns : List Turn} {q : CallResult} (he : s.env = .told turns)
    (h : callTrace s.cfg r 10 turns = some q) :
    ∃ used, CallDone 10 (engLatch r s) (transact r s) used q ∧ (transact r s).env = .told q.rest := by
  obtain ⟨used, q', hd⟩ | ⟨used, hh⟩ := transact_spec r s
  · obtain ⟨more, rfl, henv⟩ := hd.serves.told turns he
    have htrace : callTrace s.cfg r 10 (used ++ more) = some { q' with rest := more } := hd.trace more
    rw [h] at htrace
    cases htrace
    exact ⟨used, ⟨hd.serves, hd.trace, hd.history, hd.kinds, hd.phase, hd.rsp, hd.shape⟩, henv⟩
  · obtain ⟨more, rfl, hmore⟩ := hh.serves.told turns he
    cases hmore
    have htrace : callTrace s.cfg r 10 used = none := hh.trace
    rw [List.append_nil, htrace] at h
    cases h

/-! Delays (R150) -/

/-- The delays a call has taken are those of the loop, each within its interval (R7). -/
theorem CallDone.newDelays {n : Nat} {s t : State} {used : List Turn} {q : CallResult} (h : CallDone n s t used q)
    (hm : EngMoves s t) :
    ∃ ds, t.delays = s.delays ++ ds ∧ ds.map Delay.kind = q.delays ∧ ∀ d ∈ ds, 1000 ≤ d.micros ∧ d.micros ≤ 2000 := by
  obtain ⟨ds, hds, hbounds⟩ := hm.delays
  refine ⟨ds, hds, ?_, hbounds⟩
  have hkinds := h.kinds
  rw [State.delayKinds, State.delayKinds, hds, List.map_append] at hkinds
  exact List.append_cancel_left hkinds

theorem delaysOf_eq_count (k : DelayKind) (ds : List Delay) : delaysOf k ds = (ds.map Delay.kind).count k := by
  induction ds with
  | nil => rfl
  | cons d ds ih =>
    rw [delaysOf, ih, List.map_cons, List.count_cons, Nat.add_comm]
    simp only [beq_iff_eq]

/-- The loop takes a settle delay per pass and a back-off delay between two passes, and logs each pass once. -/
theorem callTrace_delays {c : Config} {r : XReq} (n : Nat) : ∀ {ts : List Turn} {q : CallResult},
    callTrace c r n ts = some q →
      q.delays.count .settle = logsOf q.events ∧ q.delays.count .backoff + 1 = logsOf q.events := by
  induction n with
  | zero => intro ts q h; cases h
  | succ n ih =>
    intro ts q h
    unfold callTrace at h
    split at h
    · cases h
    rename_i p hp
    obtain ⟨-, -, hlog⟩ := passTrace_counts hp
    split at h
    · cases h
      exact ⟨hlog.symm, hlog.symm⟩
    split at h
    · cases h
      exact ⟨hlog.symm, hlog.symm⟩
    split at h
    · cases h
    · rename_i q' hq
      cases h
      obtain ⟨hsettle, hbackoff⟩ := ih hq
      constructor
      · rw [List.count_cons_self, List.count_cons_of_ne (by decide), hsettle, logsOf_append, hlog, Nat.add_comm]
      · rw [List.count_cons_of_ne (by decide), List.count_cons_self, hbackoff, logsOf_append, hlog, Nat.add_comm]

/-! The last pass (R148) -/

/-- A call that succeeds ends with a pass that does. -/
theorem callTrace_ok_pass {c : Config} {r : XReq} {b : Byte} (n : Nat) : ∀ {ts : List Turn} {q : CallResult},
    callTrace c r n ts = some q → q.rsp = .ok b → ∃ k ts' p early, passTrace c r k ts' = some p ∧
      p.verdict = .success b ∧ q.events = early ++ p.events := by
  induction n with
  | zero => intro ts q h; cases h
  | succ n ih =>
    intro ts q h hb
    unfold callTrace at h
    split at h
    · cases h
    rename_i p hp
    split at h
    · rename_i b' hs
      cases h; cases hb
      exact ⟨_, _, p, [], hp, hs, rfl⟩
    split at h
    · cases h; cases hb
    split at h
    · cases h
    · rename_i q' hq
      cases h
      obtain ⟨k, ts', p', early, hp', hs, he⟩ := ih hq hb
      exact ⟨k, ts', p', p.events ++ early, hp', hs, by rw [he, List.append_assoc]⟩

/-- The pass of an unverified write is the write alone. -/
theorem passTrace_unverified {c : Config} {r : XReq} {k : BitVec 4} {turn : Turn} {rest : List Turn}
    (hw : r.isWrite = true) (hv : r.verify = false) : passTrace c r k (turn :: rest) = some (match turn.err with
      | some code => ⟨.failure code, [.busWrite c.devAddr r.reg r.val (.err code), failureLog r k], rest⟩
      | none => ⟨.success r.val, [.busWrite c.devAddr r.reg r.val .ok, .log k r.reg (some r.val)], rest⟩) := by
  cases ht : turn.err <;> simp [passTrace, primaryEvent, writeAnswerOf, ht, hw, hv]

/-- The primitive that ends a successful call with `b`, and that reported no error. -/
def lastPrimitive (c : Config) (r : XReq) (b : Byte) : Event :=
  if r.isWrite ∧ r.verify = false then .busWrite c.devAddr r.reg r.val .ok else .busRead c.devAddr r.reg (.ok b)

/-- The byte of a pass that succeeds is, for a write, the value written (R146). -/
theorem passTrace_success_val {c : Config} {r : XReq} {k : BitVec 4} {ts : List Turn} {p : Pass} {b : Byte}
    (hw : r.isWrite = true) (h : passTrace c r k ts = some p) (hb : p.verdict = .success b) : b = r.val := by
  unfold passTrace at h
  split at h
  · cases h
  split at h
  · cases h; cases hb
  split at h
  · rename_i hr
    rw [hw] at hr
    cases hr
  split at h
  · cases h; cases hb; rfl
  split at h
  · cases h
  simp only at h
  split at h
  · cases h; cases hb
  split at h
  · cases h; cases hb; rfl
  · cases h; cases hb

/-- A pass that succeeds ends with that primitive and its log entry. -/
theorem passTrace_success {c : Config} {r : XReq} {k : BitVec 4} {ts : List Turn} {p : Pass} {b : Byte}
    (h : passTrace c r k ts = some p) (hb : p.verdict = .success b) :
    ∃ early, p.events = early ++ [lastPrimitive c r b, .log k r.reg (some b)] := by
  by_cases hu : r.isWrite = true ∧ r.verify = false
  · obtain ⟨hw, hv⟩ := hu
    have hval := passTrace_success_val hw h hb
    cases ts with
    | nil => cases h
    | cons turn rest =>
      rw [passTrace_unverified hw hv] at h
      cases ht : turn.err with
      | some code =>
        rw [ht] at h
        cases h; cases hb
      | none =>
        rw [ht] at h
        cases h
        exact ⟨[], by simp [lastPrimitive, hw, hv, hval]⟩
  · rw [lastPrimitive, if_neg hu]
    exact passTrace_last_read (fun hw => by simpa [hw] using hu) h hb

/-! The reads of an unverified write, of which there are none (R145) -/

/-- The history grows by events none of which is a read. -/
def AddsNoRead (s t : State) : Prop := ∃ new, t.history = s.history ++ new ∧ readsOf new = []

theorem AddsNoRead.trans {s t u : State} (h : AddsNoRead s t) (g : AddsNoRead t u) : AddsNoRead s u := by
  obtain ⟨n1, h1, r1⟩ := h
  obtain ⟨n2, h2, r2⟩ := g
  exact ⟨n1 ++ n2, by rw [h2, h1, List.append_assoc], by rw [readsOf_append, r1, r2]; rfl⟩

theorem iteration_addsNoRead {s : State} (hw : s.eng.isWrite = true) (hv : s.eng.verify = false) :
    AddsNoRead s (iteration s).state := by
  cases hp : primary s with
  | none =>
    rw [iteration_silent hp]
    exact ⟨[], (List.append_nil _).symm, rfl⟩
  | some x =>
    obtain ⟨p, u⟩ := x
    obtain ⟨turn, -, hh, -, -, heng, hans⟩ := primary_turn hp
    have hprimary : AddsNoRead s u := ⟨_, hh, by simp [primaryEvent, EngState.req, hw, readsOf]⟩
    cases p with
    | okByte b => cases ht : turn.err <;> simp [ht, hw] at hans
    | ok =>
      rw [iteration_unverified hp (by rw [heng]; exact hv)]
      exact hprimary.trans ⟨_, succeed_history _ _, rfl⟩
    | err c =>
      rw [iteration_err hp, failedPass_state]
      exact hprimary.trans ⟨_, failIteration_history _ _, rfl⟩

theorem transactFrom_addsNoRead (n : Nat) : ∀ s : State, s.eng.isWrite = true → s.eng.verify = false →
    AddsNoRead s (transactFrom n s) := by
  induction n with
  | zero => intro s _ _; exact ⟨[], (List.append_nil _).symm, rfl⟩
  | succ n ih =>
    intro s hw hv
    have hpass := iteration_addsNoRead hw hv
    obtain ⟨-, -, hw', hv'⟩ := (iteration_moves s).latch
    unfold transactFrom
    cases h : iteration s with
    | hung t => rw [h] at hpass; exact hpass
    | ended t => rw [h] at hpass; exact hpass
    | again t =>
      rw [h] at hpass hw' hv'
      exact hpass.trans (ih (nextAttempt t) (hw'.trans hw) (hv'.trans hv))

/-! Primary operations that fail (R147) -/

/-- The response of a call whose last pass is judged so. -/
def Verdict.response (g : Byte) : Verdict → XRsp
  | .success b => .ok b
  | .failure code => .err g code

theorem passTrace_err {c : Config} {r : XReq} {k : BitVec 4} {turn : Turn} {code : Code} (rest : List Turn)
    (h : turn.err = some code) :
    passTrace c r k (turn :: rest) = some ⟨.failure code, [primaryEvent c r turn, failureLog r k], rest⟩ := by
  simp only [passTrace, h]

/-- A pass whose primary operation succeeds, and its read-back if it has one. -/
theorem passTrace_good {c : Config} {r : XReq} {k : BitVec 4} {good back : Turn} (rest : List Turn)
    (hg : good.err = none) (hb : back.err = none) (hval : back.byte = r.val) :
    ∃ p, passTrace c r k (good :: back :: rest) = some p ∧
      p.verdict = .success (if r.isWrite then r.val else good.byte) := by
  cases hw : r.isWrite <;> cases hv : r.verify <;> simp [passTrace, hg, hb, hval, hw, hv]

/-- After passes that fail with attempts left, the call's response is that of its last pass. -/
theorem callTrace_of_fails {c : Config} {r : XReq} {ts : List Turn} {v : Verdict}
    (hlast : ∀ k, ∃ p, passTrace c r k ts = some p ∧ p.verdict = v) (fails : List Turn)
    (hf : ∀ f ∈ fails, f.err.isSome = true) :
    ∃ q, callTrace c r (fails.length + 1) (fails ++ ts) = some q ∧ q.rsp = v.response r.reg := by
  induction fails with
  | nil =>
    obtain ⟨p, hp, rfl⟩ := hlast (BitVec.ofNat 4 (10 - 0))
    rw [List.length_nil, List.nil_append, callTrace, hp]
    cases hv : p.verdict <;> simp [hv, Verdict.response]
  | cons f fails ih =>
    obtain ⟨q, hq, hrsp⟩ := ih fun f' hf' => hf f' (List.mem_cons_of_mem f hf')
    obtain ⟨code, hcode⟩ := Option.isSome_iff_exists.1 (hf f List.mem_cons_self)
    rw [List.length_cons, List.cons_append, callTrace, passTrace_err _ hcode]
    simp [hq, hrsp]

theorem exec_req_of_told {r : XReq} {s : State} {turns : List Turn} {q : CallResult} (hi : s.idle = true)
    (he : s.env = .told turns) (h : callTrace s.cfg r 10 turns = some q) :
    ∃ t, exec (reqInstr r) s = .next t ∧ t.eng.rsp = some q.rsp := by
  obtain ⟨used, hd, -⟩ := transact_done_of_told he h
  exact ⟨_, exec_req_done hi hd.phase, hd.rsp⟩

/-! The primary operations of a call, whatever the environment answers (R147) -/

/-- A call's events are its request's, and there are at most ten writes and ten reads among them. -/
theorem engineCall_counts (r : XReq) (s : State) : ∃ new, (engineCall r s).history = s.history ++ new ∧
    (∀ x ∈ new, CallEvent s.cfg r x) ∧ (writesOf new).length ≤ 10 ∧ (readsOf new).length ≤ 10 ∧
    (r.isWrite = true → r.verify = false → readsOf new = []) := by
  obtain ⟨new, hh, hev⟩ := (transact_moves r s).events
  obtain ⟨new', hh', hwrites, hreads⟩ := transactFrom_counts 10 (engLatch r s)
  obtain rfl : new' = new := List.append_cancel_left (hh'.symm.trans hh)
  refine ⟨new', (engineCall_history r s).trans hh, hev, hwrites, hreads, fun hw hv => ?_⟩
  obtain ⟨new'', hh'', hnone⟩ := transactFrom_addsNoRead 10 (engLatch r s) hw hv
  obtain rfl : new'' = new' := List.append_cancel_left (hh''.symm.trans hh')
  exact hnone

/-- The writes among a request's events are its own write, and a read has none. -/
theorem writesOf_callEvents {c : Config} {r : XReq} {new : List Event} (h : ∀ x ∈ new, CallEvent c r x) :
    (r.isWrite = false → writesOf new = []) ∧ ∀ w ∈ writesOf new, w = (c.devAddr, r.reg, r.val) := by
  have hown : ∀ w ∈ writesOf new, r.isWrite = true ∧ w = (c.devAddr, r.reg, r.val) := by
    intro w hw
    obtain ⟨a, hmem⟩ := mem_writesOf hw
    obtain ⟨hwrite, haddr, hreg, hval⟩ := h _ hmem
    exact ⟨hwrite, Prod.ext haddr (Prod.ext hreg hval)⟩
  refine ⟨fun hread => List.eq_nil_iff_forall_not_mem.2 fun w hw => ?_, fun w hw => (hown w hw).2⟩
  have hwrite := (hown w hw).1
  rw [hread] at hwrite
  cases hwrite

theorem readsOf_callEvents {c : Config} {r : XReq} {new : List Event} (h : ∀ x ∈ new, CallEvent c r x) :
    ∀ p ∈ readsOf new, p = (c.devAddr, r.reg) := by
  intro p hp
  obtain ⟨a, hmem⟩ := mem_readsOf hp
  obtain ⟨haddr, hreg⟩ := h _ hmem
  exact Prod.ext haddr hreg

end Sys2Proof.Machine
end

section
/-! The statements of `spec/41_transaction_engine.md`. -/

namespace Sys2Proof.Machine

/-- Settles O15: the call takes the turns the loop takes, and what it adds and answers is what the loop gives. -/
theorem engineRunsTransact : Obligations.EngineRunsTransact := by
  intro s r turns q hi he htrace
  obtain ⟨used, hd, henv⟩ := transact_done_of_told he htrace
  obtain ⟨ds, hdelays, hkinds, hbounds⟩ := hd.newDelays (transact_moves r s)
  exact ⟨_, ds, exec_req_done hi hd.phase, done_idle hi, hd.rsp, hd.history, hdelays, hkinds, hbounds, henv⟩

/-- Settles O17: a pass is at most three rows and a back-off one more, so ten passes are at most 40. -/
theorem smallStepMeetsBigStep : Obligations.SmallStepMeetsBigStep := by
  intro s r
  obtain ⟨m, hm, hrows⟩ := transactFrom_rows 10 (engLatch r s) rfl
  exact ⟨m, hm, hrows.engTicks_eq, engTick_transact r s⟩

/-- Settles O19: a pass makes its primary operation once, and the response is that of the last pass. -/
theorem boundedRetry : Obligations.BoundedRetry := by
  refine ⟨fun s r hi => ?_, fun s r fails good back rest hi hlen hf hg hb hval he => ?_,
    fun s r fails last c rest hi hlen hf hc he => ?_⟩
  · obtain ⟨new, hh, hev, hwrites, hreads, hnone⟩ := engineCall_counts r s
    obtain ⟨hread, hown⟩ := writesOf_callEvents hev
    refine ⟨_, new, exec_req r s hi, hh, ?_, hreads, hread, hnone, hown, readsOf_callEvents hev⟩
    split
    · exact hwrites
    · exact hreads
  · obtain ⟨q, hq, hrsp⟩ := callTrace_of_fails (c := s.cfg) (fun _ => passTrace_good rest hg hb hval) fails hf
    rw [hlen] at hq
    obtain ⟨t, ht, htr⟩ := exec_req_of_told hi he hq
    exact ⟨t, ht, by rw [htr, hrsp]; rfl⟩
  · obtain ⟨q, hq, hrsp⟩ := callTrace_of_fails (c := s.cfg) (r := r)
      (fun _ => ⟨_, passTrace_err rest hc, rfl⟩) fails hf
    rw [hlen] at hq
    obtain ⟨t, ht, htr⟩ := exec_req_of_told hi he hq
    exact ⟨t, ht, by rw [htr, hrsp]; rfl⟩

/-- Settles O20: the delays are those of the loop, which takes them pass by pass. -/
theorem delayCounts : Obligations.DelayCounts := by
  intro s r hi ha
  obtain ⟨used, q, hd⟩ := transact_ends r s ha
  obtain ⟨ds, hdelays, hkinds, hbounds⟩ := hd.newDelays (transact_moves r s)
  have hcounts := callTrace_delays 10 (hd.trace [])
  refine ⟨_, q.events, ds, exec_req_done hi hd.phase, hd.history, hdelays, ?_, ?_, hbounds⟩
  · rw [delaysOf_eq_count, hkinds]
    exact hcounts.1
  · rw [delaysOf_eq_count, hkinds]
    exact hcounts.2

/-- Settles O22: a call that succeeds ends with a pass that succeeds, whose last primitive reported no error. -/
theorem successGuarantee : Obligations.SuccessGuarantee := by
  intro s r b hi ha
  obtain ⟨used, q, hd⟩ := transact_ends r s ha
  refine ⟨_, q.events, exec_req_done hi hd.phase, hd.history, fun hb => ?_⟩
  have hrsp : q.rsp = .ok b := Option.some.inj (hd.rsp.symm.trans hb)
  obtain ⟨k, ts, p, before, hp, hs, hevents⟩ := callTrace_ok_pass 10 (hd.trace []) hrsp
  obtain ⟨early, he⟩ := passTrace_success hp hs
  refine ⟨before ++ early, k, ?_, fun hw => passTrace_success_val hw hp hs⟩
  rw [List.append_assoc]
  exact hevents.trans (congrArg _ he)

/-- Settles O23: in an environment that answers the loop ends, with a success or after the tenth pass. -/
theorem engineCallsEnd : Obligations.EngineCallsEnd := by
  intro s r hi ha
  obtain ⟨used, q, hd⟩ := transact_ends r s ha
  refine ⟨_, exec_req_done hi hd.phase, done_idle hi, ?_⟩
  obtain ⟨b, hb⟩ | ⟨c, hc, hten⟩ := hd.shape
  · exact .inl ⟨b, hd.rsp.trans (congrArg some hb)⟩
  · exact .inr ⟨c, hd.rsp.trans (congrArg some hc), hten⟩

/-- Settles O25: on the verbatim device each of the three calls passes at the first attempt. -/
theorem requestsOnVerbatimDevice : Obligations.RequestsOnVerbatimDevice := by
  intro s reg val v hi he
  obtain ⟨hread, -⟩ := transact_read (s := s) reg val v (he ▸ passes_e1)
  obtain ⟨hwrite, -⟩ := transact_unverified (s := s) reg val (he ▸ passes_e1)
  obtain ⟨hverified, -⟩ := transact_verified (s := s) reg val (he ▸ passes_e1) passes_e1
  refine ⟨⟨_, exec_req_done hi hread.phase, done_idle hi, hread.rsp, ?_, fun a => ?_⟩,
    ⟨_, exec_req_done hi hwrite.phase, done_idle hi, hwrite.rsp, ?_, fun a => ?_⟩,
    ⟨_, exec_req_done hi hverified.phase, done_idle hi, hverified.rsp, ?_, fun a => ?_⟩⟩
  · exact hread.history.trans (List.append_assoc _ _ _)
  · simpa using hread.held a
  · exact hwrite.history.trans (List.append_assoc _ _ _)
  · simpa using hwrite.held a
  · exact hverified.history.trans (List.append_assoc _ _ _)
  · simpa [writeReq] using hverified.held a

/-- Settles O60: an idle block faults only in a bus primitive, a block in progress only where the engine has no row. -/
theorem onlySilenceFaults : Obligations.OnlySilenceFaults := by
  intro s f h hstep
  unfold step at hstep
  split at hstep
  · rename_i hi
    split at hstep
    · cases hstep
    · cases hstep
    · rename_i i t hfetch
      obtain ⟨hidle, henv⟩ := fetch_instr hfetch
      rw [← henv]
      exact exec_fault (hidle.trans hi) hstep
    · cases hstep
  · rename_i hi
    exact tick_fault h (by simpa using hi) hstep

/-- Settles O18: each phase has its one row, and the answer kept decides between T4 to T7 and FAIL. -/
theorem engineRows : Obligations.EngineRows := by
  intro s
  refine ⟨fun hp => ⟨_, step_of_settle hp, ?_⟩, fun hp => ⟨_, step_of_backoff hp, rfl, rfl, rfl⟩,
    fun hp hb hr => ⟨_, step_of_done hp hb hr, rfl, rfl⟩⟩
  cases hprim : s.eng.prim with
  | okByte b =>
    rw [rowSettle_of_okByte hprim]
    exact ⟨rfl, rfl, rfl⟩
  | ok =>
    cases hv : s.eng.verify with
    | true =>
      rw [rowSettle_of_verified hprim hv]
      exact ⟨rfl, rfl⟩
    | false =>
      rw [rowSettle_of_unverified hprim hv]
      exact ⟨rfl, rfl, rfl⟩
  | err c =>
    rw [rowSettle_of_err hprim]
    exact failIteration_row c (delay .settle s)

end Sys2Proof.Machine
end

section
/-! A command as the steps of its block (R142, R173): the ticks of a call, of a response taken and of the whole loop. -/

namespace Sys2Proof.Machine

/-! Runs of a block in progress -/

/-- From `s`, `m` steps of a block in progress lead to `t`. -/
def TicksReach (m : Nat) (s t : State) : Prop := ∀ k, ticks (k + m) s = ticks k t

theorem TicksReach.refl (s : State) : TicksReach 0 s s := fun _ => rfl

theorem TicksReach.head {m : Nat} {s t u : State} (hi : s.idle = false) (h : tick s = .next t)
    (g : TicksReach m t u) : TicksReach (m + 1) s u := by
  intro k
  have hstep : ticks (k + m + 1) s = ticks (k + m) t := by simp [ticks, hi, h]
  exact hstep.trans (g k)

theorem TicksReach.trans {m n : Nat} {s t u : State} (h : TicksReach m s t) (g : TicksReach n t u) :
    TicksReach (n + m) s u := by
  intro k
  rw [← Nat.add_assoc, h, g]

/-! The step each state of a busy block takes -/

/-- A row of R142 is the step of the block. -/
theorem tick_of_engTick {s t : State} (h : engTick s = some t) : s.idle = false ∧ tick s = .next t := by
  cases hp : s.eng.phase with
  | idle => simp [engTick, hp] at h
  | done => simp [engTick, hp] at h
  | _ => simp [tick, State.idle, hp, h]

/-- With no call in progress the sequencer starts its step's call (T1). -/
theorem tick_of_request {s : State} {req : XReq} (hp : s.eng.phase = .idle)
    (hm : micro s.cfg s.seq.op s.seq.arg s.seq.step = some req) : tick s = .next (engLatch req s) := by
  simp only [tick, hp, hm]

/-- With a response to take the sequencer takes it (T10). -/
theorem tick_of_response {s : State} {r : XRsp} (hb : s.seq.busy = true) (hp : s.eng.phase = .done)
    (hr : s.eng.rsp = some r) : tick s = .next (takeResponse r s) := by
  simp only [tick, hp, hr, hb, if_true]

theorem idle_of_busy {s : State} (hb : s.seq.busy = true) : s.idle = false := by
  simp [State.idle, hb]

/-- A busy block steps by its ticks. -/
theorem step_of_busy {s : State} (hb : s.seq.busy = true) : step s = tick s := by
  simp [step, idle_of_busy hb]

/-! The parts of the loop of R173 as ticks -/

/-- Rows of the engine are steps of the block, as long as a row is enabled. -/
theorem engTicks_reach (m : Nat) : ∀ s : State, ∃ n, TicksReach n s (engTicks m s) := by
  induction m with
  | zero => exact fun s => ⟨0, .refl s⟩
  | succ m ih =>
    intro s
    cases h : engTick s with
    | none =>
      have hstays : engTicks (m + 1) s = s := by simp only [engTicks, h]
      exact ⟨0, hstays.symm ▸ .refl s⟩
    | some t =>
      obtain ⟨n, hrest⟩ := ih t
      have hgoes : engTicks (m + 1) s = engTicks m t := by simp only [engTicks, h]
      obtain ⟨hi, hrow⟩ := tick_of_engTick h
      exact ⟨n + 1, hgoes.symm ▸ .head hi hrow hrest⟩

/-- A step's call, from its latch on (R143). -/
theorem transact_reach {s : State} {req : XReq} (hb : s.seq.busy = true) (hp : s.eng.phase = .idle)
    (hm : micro s.cfg s.seq.op s.seq.arg s.seq.step = some req) : ∃ n, TicksReach n s (transact req s) := by
  obtain ⟨m, -, hrows, -⟩ := smallStepMeetsBigStep s req
  obtain ⟨n, hn⟩ := engTicks_reach m (engLatch req s)
  rw [hrows] at hn
  exact ⟨n + 1, .head (idle_of_busy hb) (tick_of_request hp hm) hn⟩

/-- A step's call that ends, and the taking of its response. -/
theorem response_reach {s : State} {req : XReq} {r : XRsp} (hb : s.seq.busy = true) (hp : s.eng.phase = .idle)
    (hm : micro s.cfg s.seq.op s.seq.arg s.seq.step = some req) (hdone : (transact req s).eng.phase = .done)
    (hr : (transact req s).eng.rsp = some r) : ∃ n, TicksReach n s (takeResponse r (transact req s)) := by
  obtain ⟨n, hcall⟩ := transact_reach hb hp hm
  have hb' : (transact req s).seq.busy = true := by rw [transact_seq]; exact hb
  exact ⟨_, hcall.trans (.head (idle_of_busy hb') (tick_of_response hb' hdone hr) (.refl _))⟩

/-- The block's steps from `s` lead to `t`, where the block is idle or waits for the transport. -/
def StepsTo (s t : State) : Prop := (∃ n, ticks n s = t) ∧ (t.idle = true ∨ step t = .fault .envSilent)

theorem TicksReach.stepsTo {m : Nat} {s t u : State} (h : TicksReach m s t) (g : StepsTo t u) : StepsTo s u := by
  obtain ⟨⟨n, hn⟩, hend⟩ := g
  exact ⟨⟨n + m, (h n).trans hn⟩, hend⟩

theorem stepsTo_of_idle {s : State} (h : s.idle = true) : StepsTo s s := ⟨⟨0, rfl⟩, .inl h⟩

/-- The loop of R173, with enough steps left to run it, is the block's steps. -/
theorem runSteps_stepsTo (n : Nat) : ∀ s : State, s.seq.busy = true → s.eng.phase = .idle → 1 ≤ s.seq.step.toNat →
    s.seq.step.toNat ≤ microLen s.seq.op → microLen s.seq.op < s.seq.step.toNat + n → StepsTo s (runSteps n s) := by
  induction n with
  | zero => intro s _ _ _ hle hn; omega
  | succ n ih =>
    intro s hb hp h1 hle hn
    obtain ⟨req, hm⟩ := micro_isSome s.cfg s.seq.op s.seq.arg h1 hle
    obtain ⟨_, q, hd⟩ | ⟨_, hhung⟩ := transact_spec req s
    · obtain ⟨m, hreach⟩ := response_reach hb hp hm hd.phase hd.rsp
      obtain ⟨b, hrsp⟩ | ⟨c, hrsp, -⟩ := hd.shape
      · rw [hrsp] at hreach
        have hr : (transact req s).eng.rsp = some (.ok b) := by rw [hd.rsp, hrsp]
        by_cases hl : s.seq.step.toNat = microLen s.seq.op
        · rw [runSteps_last hm hd.phase hr hl]
          rw [takeResponse_last (by rw [transact_seq]; exact hl)] at hreach
          exact hreach.stepsTo (stepsTo_of_idle rfl)
        · rw [runSteps_on hm hb hd.phase hr hl]
          rw [takeResponse_on (by rw [transact_seq]; exact hl)] at hreach
          have hseq : (nextStep (transact req s)).seq = { s.seq with step := s.seq.step + 1#3 } := by simp [nextStep]
          have hnext := toNat_step_succ hle
          refine hreach.stepsTo (ih _ (by rw [hseq]; exact hb) rfl ?_ ?_ ?_) <;>
            (rw [hseq]; simp only [hnext]; omega)
      · have hr : (transact req s).eng.rsp = some (.err req.reg c) := by rw [hd.rsp, hrsp]; rfl
        rw [hrsp] at hreach
        rw [runSteps_abort hm hd.phase hr]
        exact hreach.stepsTo (stepsTo_of_idle rfl)
    · obtain ⟨m, hreach⟩ := transact_reach hb hp hm
      rw [runSteps_hung hm hhung.phase]
      exact hreach.stepsTo ⟨⟨0, rfl⟩, .inr (step_silent hhung.env hhung.phase)⟩

theorem runCommand_stepsTo (op : Op) (arg : Byte) {s : State} (hi : s.idle = true) :
    StepsTo (accept op arg s) (runCommand op arg s) := by
  have hlen := microLen_le op
  exact runSteps_stepsTo 4 (accept op arg s) rfl (idle_parts hi).2 (by simp)
    (by simpa using one_le_microLen op) (by simp; omega)

/-! The table (R171) -/

theorem stepIndex_cases : ∀ k : BitVec 3,
    k = 0#3 ∨ k = 1#3 ∨ k = 2#3 ∨ k = 3#3 ∨ k = 4#3 ∨ k = 5#3 ∨ k = 6#3 ∨ k = 7#3 := by decide

end Sys2Proof.Machine
end

section
/-! The commands on a device that passes their primitives (R80, R81), for any number of verified writes, and the abort
of a command whose next write fails ten times (R174). -/

namespace Sys2Proof.Machine

/-! Environments that pass a number of steps -/

/-- The environment passes the write and the read-back of `n` steps and is then `e'`. -/
def Env.PassesSteps (e : Env) (n : Nat) (e' : Env) : Prop :=
  match n with
  | 0 => e' = e
  | n + 1 => ∃ written checked, e.Passes written ∧ written.Passes checked ∧ checked.PassesSteps n e'

theorem passesSteps_e1 (n : Nat) : Env.e1.PassesSteps n .e1 := by
  induction n with
  | zero => rfl
  | succ n ih => exact ⟨_, _, passes_e1, passes_e1, ih⟩

theorem passesSteps_e2 (n : Nat) (fates : List Fate) :
    (Env.e2 (List.replicate (2 * n) .pass ++ fates)).PassesSteps n (.e2 fates) := by
  induction n with
  | zero => rfl
  | succ n ih => exact ⟨_, _, passes_e2 _, passes_e2 _, ih⟩

/-! A run of verified write steps -/

/-- Is the request a verified write. -/
def XReq.Verified (r : XReq) : Prop := r = writeReq r.reg r.val

theorem XReq.Verified.isWrite {r : XReq} (h : r.Verified) : r.isWrite = true := congrArg XReq.isWrite h

/-- From `s`, the write steps `rs` that pass one after another lead to `t`. -/
inductive SteppedBy : List XReq → State → State → Prop where
  | nil (s : State) : SteppedBy [] s s
  | cons {r : XReq} {rs : List XReq} {s u t : State} (h : Stepped r.reg r.val s u) (hs : SteppedBy rs u t) :
      SteppedBy (r :: rs) s t

/-- The events of a write step that passes at the first attempt. -/
def passedEvents (c : Config) (r : XReq) : List Event :=
  [.busWrite c.devAddr r.reg r.val .ok, .busRead c.devAddr r.reg (.ok r.val), .log 1#4 r.reg (some r.val)]

/-- What the registers hold after the writes of `rs`, the last one to a register deciding. -/
def heldAfter (rs : List XReq) (held : Byte → Byte) : Byte → Byte :=
  match rs with
  | [] => held
  | r :: rs => heldAfter rs fun a => if a = r.reg then r.val else held a

theorem writesOf_passedEvents (c : Config) (rs : List XReq) :
    writesOf (rs.flatMap (passedEvents c)) = rs.map fun r => (c.devAddr, r.reg, r.val) := by
  induction rs with
  | nil => rfl
  | cons r rs ih => rw [List.flatMap_cons, writesOf_append, ih]; rfl

section SteppedBy

variable {rs : List XReq} {s t : State}

theorem SteppedBy.cfg (h : SteppedBy rs s t) : t.cfg = s.cfg := by
  induction h with
  | nil s => rfl
  | cons h _ ih => exact ih.trans h.cfg

theorem SteppedBy.history (h : SteppedBy rs s t) :
    t.history = s.history ++ rs.flatMap (passedEvents s.cfg) := by
  induction h with
  | nil s => simp
  | cons h _ ih => rw [ih, h.cfg, h.history, List.append_assoc, List.flatMap_cons]; rfl

theorem SteppedBy.held (h : SteppedBy rs s t) : t.dev.held = heldAfter rs s.dev.held := by
  induction h with
  | nil s => rfl
  | cons h _ ih => rw [ih, funext h.held]; rfl

/-- While a hold is engaged, writes to other registers leave it and both outputs (R73). -/
theorem SteppedBy.deferred (h : SteppedBy rs s t) (hhold : s.dev.hold = true) (hr : ∀ r ∈ rs, r.reg ≠ s.cfg.aVolHold) :
    t.dev.hold = true ∧ t.dev.outCh1 = s.dev.outCh1 ∧ t.dev.outCh2 = s.dev.outCh2 := by
  induction h with
  | nil s => exact ⟨hhold, rfl, rfl⟩
  | @cons r rs s u t h _ ih =>
    obtain ⟨n, hu, h1, h2⟩ := h.outputs
    obtain ⟨khold, k1, k2⟩ := store_held n r.val hhold (hr r List.mem_cons_self)
    obtain ⟨ihhold, ih1, ih2⟩ := ih (hu.trans khold) (fun q hq => h.cfg ▸ hr q (List.mem_cons_of_mem _ hq))
    exact ⟨ihhold, ih1.trans (h1.trans k1), ih2.trans (h2.trans k2)⟩

/-- The last of several steps. -/
theorem SteppedBy.last {r : XReq} (h : SteppedBy (rs ++ [r]) s t) :
    ∃ u, SteppedBy rs s u ∧ Stepped r.reg r.val u t := by
  induction rs generalizing s with
  | nil =>
    obtain _ | ⟨h, hs⟩ := h
    cases hs
    exact ⟨s, .nil s, h⟩
  | cons q rs ih =>
    obtain _ | ⟨h, hs⟩ := h
    obtain ⟨u, hu, hlast⟩ := ih hs
    exact ⟨u, .cons h hu, hlast⟩

/-- One more step. -/
theorem SteppedBy.snoc {u : State} {r : XReq} (h : SteppedBy rs s t) (hr : Stepped r.reg r.val t u) :
    SteppedBy (rs ++ [r]) s u := by
  induction h with
  | nil s => exact .cons hr (.nil u)
  | cons h _ ih => exact .cons h (ih hr)

end SteppedBy

/-- The store that engages the hold (R73). -/
theorem Stepped.engages {s t : State} (h : Stepped s.cfg.aVolHold vHold s t) :
    t.dev.hold = true ∧ t.dev.outCh1 = s.dev.outCh1 ∧ t.dev.outCh2 = s.dev.outCh2 := by
  obtain ⟨n, hhold, h1, h2⟩ := h.outputs
  obtain ⟨khold, k1, k2⟩ := store_engage s.dev s.cfg n
  exact ⟨hhold.trans khold, h1.trans k1, h2.trans k2⟩

/-- The store that releases the hold brings both channels into effect (R73). -/
theorem Stepped.releases {s t : State} (h : Stepped s.cfg.aVolHold vRelease s t) :
    t.dev.hold = false ∧ t.dev.outCh1 = t.dev.held s.cfg.aVolCh1 ∧ t.dev.outCh2 = t.dev.held s.cfg.aVolCh2 := by
  obtain ⟨n, hhold, h1, h2⟩ := h.outputs
  obtain ⟨khold, k1, k2⟩ := store_release s.dev s.cfg n
  have hheld : ∀ a, (s.dev.store s.cfg n s.cfg.aVolHold vRelease).held a = t.dev.held a := fun a =>
    (held_store _ _ _ _ _ _).trans (h.held a).symm
  exact ⟨hhold.trans khold, (h1.trans k1).trans (hheld _), (h2.trans k2).trans (hheld _)⟩

/-! The loop of R173 over such a run -/

/-- The request a command has before it, from its steps still to come. -/
theorem micro_of_drop {c : Config} {op : Op} {arg : Byte} {j : Nat} {r : XReq} {rest : List XReq}
    (h : (microSteps c op arg).drop j = r :: rest) : micro c op arg (BitVec.ofNat 3 (j + 1)) = some r ∧
      (microSteps c op arg).drop (j + 1) = rest ∧ (BitVec.ofNat 3 (j + 1)).toNat = j + 1 ∧
      microLen op = j + 1 + rest.length := by
  have hlen := congrArg List.length h
  rw [List.length_drop, microSteps_length, List.length_cons] at hlen
  have hle := microLen_le op
  refine ⟨?_, ?_, ?_, by omega⟩
  · rw [micro_eq _ _ _ _ (by omega), ← Nat.add_zero j, ← List.getElem?_drop, h]
    rfl
  · rw [← List.drop_drop, h]
    rfl
  · rw [BitVec.toNat_ofNat]
    omega

/-- Verified writes that pass, with steps of the command still to come. -/
theorem runSteps_steppedBy {op : Op} {arg : Byte} {e' : Env} {rest : List XReq} (n : Nat) (hrest : rest ≠ [])
    (rs : List XReq) : ∀ {s : State} {j : Nat}, (microSteps s.cfg op arg).drop j = rs ++ rest → (∀ r ∈ rs, r.Verified) →
      s.seq = ⟨true, op, arg, BitVec.ofNat 3 (j + 1)⟩ → s.env.PassesSteps rs.length e' →
      ∃ t, runSteps (n + rs.length) s = runSteps n t ∧ t.env = e' ∧ SteppedBy rs s t ∧
        t.seq = ⟨true, op, arg, BitVec.ofNat 3 (j + rs.length + 1)⟩ := by
  induction rs with
  | nil => intro s j _ _ hseq he; exact ⟨s, rfl, he.symm, .nil s, hseq⟩
  | cons r rs ih =>
    intro s j hsteps hv hseq he
    obtain ⟨_, _, hwrite, hread, he'⟩ := he
    rw [List.cons_append] at hsteps
    obtain ⟨hm, hdrop, hj, hlen⟩ := micro_of_drop hsteps
    rw [hv r List.mem_cons_self] at hm
    have hmore : s.seq.step.toNat ≠ microLen s.seq.op := by
      have hpos := List.length_pos_iff.2 hrest
      rw [List.length_append] at hlen
      simp only [hseq, hj, hlen]
      omega
    have hnext : BitVec.ofNat 3 (j + 1) + 1#3 = BitVec.ofNat 3 (j + 1 + 1) := (BitVec.ofNat_add (j + 1) 1).symm
    obtain ⟨u, hrun, henv, hseq', -, hst⟩ :=
      step_on (n := n + rs.length) hwrite hread (by rw [hseq]; exact hm) (by rw [hseq]) hmore
    obtain ⟨t, hrun', ht, hby, hseqt⟩ := ih (s := u) (j := j + 1) (by rw [hst.cfg]; exact hdrop)
      (fun q hq => hv q (List.mem_cons_of_mem _ hq)) (by rw [hseq', hseq]; simp only [hnext]) (henv ▸ he')
    refine ⟨t, hrun.trans hrun', ht, .cons hst hby, ?_⟩
    rw [hseqt, List.length_cons, Nat.add_right_comm j 1, Nat.add_assoc j]

/-- A command that has its next request `r` before it, the steps `rs` having passed. -/
theorem runCommand_steppedBy {op : Op} {arg : Byte} {s : State} {e' : Env} {rs rest : List XReq} {r : XReq}
    (hsteps : microSteps s.cfg op arg = rs ++ r :: rest) (hv : ∀ q ∈ rs, q.Verified)
    (he : s.env.PassesSteps rs.length e') :
    ∃ n u, runCommand op arg s = runSteps (n + 1) u ∧ u.env = e' ∧ SteppedBy rs (accept op arg s) u ∧
      u.seq = ⟨true, op, arg, BitVec.ofNat 3 (rs.length + 1)⟩ ∧
      micro u.cfg u.seq.op u.seq.arg u.seq.step = some r ∧ u.seq.step.toNat + rest.length = microLen op := by
  obtain ⟨u, hrun, henv, hby, hseq⟩ := runSteps_steppedBy (s := accept op arg s) (j := 0) (3 - rs.length + 1)
    (List.cons_ne_nil r rest) rs hsteps hv rfl he
  rw [Nat.zero_add] at hseq
  have hdrop : (microSteps u.cfg op arg).drop rs.length = r :: rest := by
    rw [hby.cfg, accept_cfg, hsteps, List.drop_left]
  obtain ⟨hm, -, hstep, hlen⟩ := micro_of_drop hdrop
  have hfour : 3 - rs.length + 1 + rs.length = 4 := by
    have hle := microLen_le op
    omega
  rw [hfour] at hrun
  exact ⟨_, u, hrun, henv, hby, hseq, by rw [hseq]; exact hm, by rw [hseq, hlen]; exact congrArg (· + _) hstep⟩

/-! Whole commands -/

theorem verified_setVolume (c : Config) (v : Byte) : ∀ r ∈ microSteps c .setVolume v, r.Verified := by
  simp [microSteps, microSetVolume, XReq.Verified, writeReq]

theorem verified_enable (c : Config) (x : Byte) : ∀ r ∈ microSteps c .enable x, r.Verified := by
  simp [microSteps, microEnable, XReq.Verified, writeReq]

theorem verified_single (g v : Byte) : ∀ r ∈ [writeReq g v], r.Verified := by
  simp [XReq.Verified, writeReq]

/-- From `s` the command has completed at `t` by verified writes alone, each passed at the first attempt. -/
structure WritesDone (op : Op) (arg : Byte) (s t : State) : Prop where
  idle : t.idle = true
  res : ∃ b, t.res = ⟨true, false, ret op b, none, none, none, none⟩
  history : t.history = s.history ++
    .accepted op arg :: ((microSteps s.cfg op arg).flatMap (passedEvents s.cfg) ++ [.completed op false])
  cfg : t.cfg = s.cfg
  steps : ∃ u, SteppedBy (microSteps s.cfg op arg) (accept op arg s) u ∧ t.dev = u.dev

theorem WritesDone.held {op : Op} {arg : Byte} {s t : State} (h : WritesDone op arg s t) (a : Byte) :
    t.dev.held a = heldAfter (microSteps s.cfg op arg) s.dev.held a := by
  obtain ⟨u, hby, hdev⟩ := h.steps
  rw [hdev, hby.held, accept_dev]

theorem writesDone_completeOk {op : Op} {arg : Byte} {s u : State} (b : Byte)
    (hby : SteppedBy (microSteps s.cfg op arg) (accept op arg s) u) (hop : u.seq.op = op) (hp : u.eng.phase = .idle) :
    WritesDone op arg s (completeOk b u) where
  idle := by simp [State.idle, hp]
  res := ⟨b, by rw [completeOk_res, hop]⟩
  history := by rw [completeOk_history, hby.history, hop]; simp
  cfg := hby.cfg
  steps := ⟨u, hby, rfl⟩

/-- On the verbatim device a command whose steps are all verified writes completes so. -/
theorem exec_writesDone {op : Op} {arg : Byte} {s : State} (hi : s.idle = true) (he : s.env = .e1)
    (hv : ∀ r ∈ microSteps s.cfg op arg, r.Verified) :
    ∃ t, exec (op.instr arg) s = .next t ∧ t.env = .e1 ∧ WritesDone op arg s t := by
  obtain h | ⟨rs, r, hsteps⟩ := List.eq_nil_or_concat' (microSteps s.cfg op arg)
  · cases op <;> cases h
  have hr : r = writeReq r.reg r.val := hv r (by simp [hsteps])
  obtain ⟨n, u, hrun, henv, hby, hseq, hm, hlen⟩ := runCommand_steppedBy (e' := .e1) hsteps
    (fun q hq => hv q (by simp [hsteps, hq])) (he ▸ passesSteps_e1 _)
  obtain ⟨t, hlast, ht, hseqt, hp, hst⟩ := step_last (n := n) (henv ▸ passes_e1) passes_e1 (hm.trans (congrArg some hr))
    (by rw [hseq] at hlen ⊢; exact hlen)
  refine ⟨completeOk r.val t, ?_, ht, writesDone_completeOk r.val ?_ (by rw [hseqt, hseq]) hp⟩
  · rw [exec_cmd op arg s hi, hrun, hlast]
  · rw [hsteps]
    exact hby.snoc hst

/-- A command of one read, on a device that passes it, returns `Ret` of the byte held and changes nothing held. -/
theorem exec_readDone {op : Op} {arg g : Byte} {s : State} {e : Env} (hi : s.idle = true) (he : s.env.Passes e)
    (hsteps : microSteps s.cfg op arg = [readReq g]) :
    ∃ t, exec (op.instr arg) s = .next t ∧ t.idle = true ∧ t.env = e ∧
      t.res = ⟨true, false, ret op (s.dev.held g), none, none, none, none⟩ ∧
      t.history = s.history ++ [.accepted op arg, .busRead s.cfg.devAddr g (.ok (s.dev.held g)),
        .log 1#4 g (some (s.dev.held g)), .completed op false] ∧
      ∀ a : Byte, t.dev.held a = s.dev.held a := by
  obtain ⟨hcall, henv⟩ := transact_read (s := accept op arg s) g 0#8 false he
  refine ⟨_, exec_cmd op arg s hi, ?_⟩
  rw [runCommand_single hsteps hcall]
  refine ⟨rfl, henv, by simp, ?_, fun a => (hcall.held a).trans (if_neg (by simp))⟩
  simp [show (transact (readReq g) (accept op arg s)).history = _ from hcall.history]

/-- From `s` the command has aborted at `t` with `c`: `k` steps passed and led to `u`, then the write `r` failed ten
times (R174). -/
structure Aborted (op : Op) (arg : Byte) (k : Nat) (r : XReq) (c : Code) (s u t : State) : Prop where
  idle : t.idle = true
  res : t.res = ⟨true, true, none, some r.reg, some c, some op, some (BitVec.ofNat 3 (k + 1))⟩
  history : ∃ new, t.history = s.history ++ new ∧
    writesOf new = ((microSteps s.cfg op arg).take k).map (fun q => (s.cfg.devAddr, q.reg, q.val)) ++
      List.replicate 10 (s.cfg.devAddr, r.reg, r.val)
  steps : SteppedBy ((microSteps s.cfg op arg).take k) (accept op arg s) u
  outputs : t.dev.hold = u.dev.hold ∧ t.dev.outCh1 = u.dev.outCh1 ∧ t.dev.outCh2 = u.dev.outCh2
  keeps : ∀ a, t.dev.held a = u.dev.held a

theorem Aborted.held {op : Op} {arg : Byte} {k : Nat} {r : XReq} {c : Code} {s u t : State}
    (h : Aborted op arg k r c s u t) (a : Byte) :
    t.dev.held a = heldAfter ((microSteps s.cfg op arg).take k) s.dev.held a := by
  rw [h.keeps, h.steps.held, accept_dev]

/-- On a device that passes `k` steps and then fails ten times, a command of verified writes aborts so. -/
theorem exec_aborted {op : Op} {arg : Byte} {k : Nat} {r : XReq} {c : Code} {s : State} (hi : s.idle = true)
    (hv : ∀ r ∈ microSteps s.cfg op arg, r.Verified) (hr : (microSteps s.cfg op arg)[k]? = some r)
    (he : s.env = .e2 (List.replicate (2 * k) .pass ++ List.replicate 10 (.fail c))) :
    ∃ t u, exec (op.instr arg) s = .next t ∧ Aborted op arg k r c s u t := by
  obtain ⟨hk, hget⟩ := List.getElem?_eq_some_iff.1 hr
  have hlen : ((microSteps s.cfg op arg).take k).length = k := List.length_take_of_le hk.le
  have hsteps : microSteps s.cfg op arg =
      (microSteps s.cfg op arg).take k ++ r :: (microSteps s.cfg op arg).drop (k + 1) := by
    rw [← hget, List.getElem_cons_drop, List.take_append_drop]
  obtain ⟨n, u, hrun, henv, hby, hseq, hm, -⟩ := runCommand_steppedBy hsteps
    (fun q hq => hv q (List.mem_of_mem_take hq)) (by rw [hlen, he]; exact passesSteps_e2 k _)
  rw [hlen] at hseq
  obtain ⟨late, hh, hwrites, hdone, hrsp, -, hheld, houtputs⟩ := transactFrom_fails 9 (engLatch r u) (by omega) rfl
    (hv r (List.mem_of_getElem? hr)).isWrite henv
  have habort : runCommand op arg s = errorEntry r.reg c (engRelease (transact r u)) :=
    hrun.trans (runSteps_abort hm hdone hrsp)
  have hhist : (transact r u).history = u.history ++ late := hh
  refine ⟨_, u, (exec_cmd op arg s hi).trans (congrArg _ habort), rfl, by simp [hseq], ⟨.accepted op arg ::
    ((microSteps s.cfg op arg).take k).flatMap (passedEvents s.cfg) ++ late ++ [.completed op true], ?_, ?_⟩, hby,
    houtputs, hheld⟩
  · simp [hhist, hby.history, hseq]
  · simp [writesOf, writesOf_passedEvents, hwrites, hby.cfg]

/-! The registers and the outputs after the writes of `SET_VOLUME` and `ENABLE` -/

/-- The steps of `SET_VOLUME` with the values of R175 written out. -/
theorem microSteps_setVolume (c : Config) (v : Byte) : microSteps c .setVolume v = [writeReq c.aVolHold 0x14#8,
    writeReq c.aVolCh1 (255#8 - v), writeReq c.aVolCh2 (255#8 - v), writeReq c.aVolHold 0x04#8] := rfl

/-- The steps of `ENABLE` with the values of R179 written out. -/
theorem microSteps_enable (c : Config) (x : Byte) : microSteps c .enable x =
    [writeReq c.aSoftRamp 0x09#8, writeReq c.aAutomute 0x00#8, writeReq c.aMode 0x02#8] := rfl

/-- What the four writes of `SET_VOLUME` leave in the registers. -/
theorem heldAfter_setVolume {c : Config} {v : Byte} (f : Byte → Byte) (a : Byte) :
    heldAfter (microSteps c .setVolume v) f a = if a = c.aVolHold then 0x04#8
      else if a = c.aVolCh1 ∨ a = c.aVolCh2 then 255#8 - v else f a := by
  rw [microSteps_setVolume]
  by_cases h0 : a = c.aVolHold
  · simp [heldAfter, writeReq, h0]
  by_cases h1 : a = c.aVolCh1
  · simp [heldAfter, writeReq, h1]
  · simp [heldAfter, writeReq, h0, h1]

/-- What its first `k` writes leave there. -/
theorem heldAfter_take_setVolume {c : Config} {v : Byte} {k : Nat} {f : Byte → Byte} {a : Byte} (hd : c.Distinct)
    (hk : k < 4) : heldAfter ((microSteps c .setVolume v).take k) f a =
      if a = c.aVolHold ∧ 1 ≤ k then 0x14#8 else if a = c.aVolCh1 ∧ 2 ≤ k then 255#8 - v
        else if a = c.aVolCh2 ∧ 3 ≤ k then 255#8 - v else f a := by
  obtain ⟨-, -, -, -, -, -, -, h12, hch1, hch2⟩ := distinct_facts hd
  rw [microSteps_setVolume]
  by_cases h0 : a = c.aVolHold
  · interval_cases k <;> simp [heldAfter, writeReq, h0, hch1.symm, hch2.symm]
  by_cases h1 : a = c.aVolCh1
  · interval_cases k <;> simp [heldAfter, writeReq, h1, h12, hch1]
  · interval_cases k <;> simp [heldAfter, writeReq, h0, h1]

/-- What the first `k` writes of `ENABLE` leave there. -/
theorem heldAfter_take_enable {c : Config} {x : Byte} {k : Nat} {f : Byte → Byte} {a : Byte} (hd : c.Distinct)
    (hk : k < 3) : heldAfter ((microSteps c .enable x).take k) f a =
      if a = c.aSoftRamp ∧ 1 ≤ k then 0x09#8 else if a = c.aAutomute ∧ 2 ≤ k then 0x00#8 else f a := by
  obtain ⟨-, -, -, -, -, -, hne, -⟩ := distinct_facts hd
  rw [microSteps_enable]
  by_cases h0 : a = c.aSoftRamp
  · interval_cases k <;> simp [heldAfter, writeReq, h0, hne]
  · interval_cases k <;> simp [heldAfter, writeReq, h0]

/-- The first step of `SET_VOLUME` engages the hold, which keeps the outputs through the channel writes (R73, R175). -/
theorem setVolume_deferred {v : Byte} {k : Nat} {c : Config} {s u : State} (hd : c.Distinct) (hc : s.cfg = c)
    (hk : k < 4) (h : SteppedBy ((microSetVolume c v).take k) s u) :
    u.dev.hold = (if k = 0 then s.dev.hold else true) ∧ u.dev.outCh1 = s.dev.outCh1 ∧ u.dev.outCh2 = s.dev.outCh2 := by
  obtain ⟨-, -, -, -, -, -, -, -, hch1, hch2⟩ := distinct_facts hd
  subst hc
  cases k with
  | zero => cases h; exact ⟨rfl, rfl, rfl⟩
  | succ k =>
    obtain _ | ⟨hfirst, hrest⟩ := h
    obtain ⟨hhold, h1, h2⟩ := Stepped.engages hfirst
    have hother : ∀ r ∈ [writeReq s.cfg.aVolCh1 (volumeCode v), writeReq s.cfg.aVolCh2 (volumeCode v)],
        r.reg ≠ s.cfg.aVolHold := by simp [writeReq, hch1, hch2]
    obtain ⟨hhold', h1', h2'⟩ := hrest.deferred hhold fun r hr => by
      rw [hfirst.cfg]
      exact hother r (List.take_subset_take_left _ (Nat.le_of_lt_succ (Nat.lt_of_succ_lt_succ hk)) hr)
    exact ⟨hhold', h1'.trans h1, h2'.trans h2⟩

/-! The view (R51, R181) -/

theorem view_enabled {s t : State} (hcfg : t.cfg = s.cfg) (h : t.dev.held s.cfg.aMode = vModeOn) :
    t.view = .enabled := by
  rw [State.view, hcfg, if_pos h]

theorem view_disabled {s t : State} (hcfg : t.cfg = s.cfg) (h : t.dev.held s.cfg.aMode = vModeOff) :
    t.view = .disabled := by
  rw [State.view, hcfg, h]
  rfl

/-- A command that does not write the mode register leaves the view. -/
theorem exec_view_kept {op : Op} {arg : Byte} {s t : State} (h : exec (op.instr arg) s = .next t)
    (ha : s.cfg.aMode ∉ opWritten s.cfg op) : t.view = s.view := by
  obtain ⟨u, hu, hcfg, -, -, -, hkeeps⟩ := commandFrame s op arg (exec_next_idle h)
  rw [h] at hu
  cases hu
  rw [State.view, State.view, hcfg, hkeeps (.inr ha) _ ha]

end Sys2Proof.Machine
end

section
/-! The statements of `spec/42_control_sequencer.md`. -/

namespace Sys2Proof.Machine

/-! The sequencer, in every environment -/

/-- Settles O27: a step's call is its rows, the taking of its response one step more. -/
theorem commandIsItsSteps : Obligations.CommandIsItsSteps := by
  intro s op arg hi
  obtain ⟨⟨n, hn⟩, hend⟩ := runCommand_stepsTo op arg hi
  exact ⟨n, _, exec_cmd op arg s hi, hn, hend⟩

/-- Settles O26: the table at each of the eight values a step index can have. -/
theorem microSequenceTable : Obligations.MicroSequenceTable := by
  intro c arg b k
  have hlen : ∀ op, microLen op = (microSteps c op arg).length := fun op => (microSteps_length c op arg).symm
  obtain rfl | rfl | rfl | rfl | rfl | rfl | rfl | rfl := stepIndex_cases k <;>
    exact ⟨rfl, rfl, rfl, rfl, rfl, rfl, hlen, rfl, rfl, rfl, rfl, rfl, rfl⟩

/-- Settles O51: the step takes the response, and the step index says whether the command goes on. -/
theorem sequencerTakesOk : Obligations.SequencerTakesOk := by
  intro s b hb hp hr
  refine ⟨_, (step_of_busy hb).trans (tick_of_response hb hp hr), ?_⟩
  by_cases hl : s.seq.step.toNat = microLen s.seq.op
  · rw [takeResponse_last hl, if_pos hl]
    exact ⟨rfl, rfl, rfl, rfl, rfl, rfl, rfl⟩
  · rw [takeResponse_on hl, if_neg hl]
    exact ⟨rfl, rfl, rfl, rfl, rfl, rfl⟩

/-! The four commands of verified writes, in E1 -/

/-- Settles O35: the last store releases the hold, which brings both channels into effect. -/
theorem setVolumeOnVerbatimDevice : Obligations.SetVolumeOnVerbatimDevice := by
  intro s v hi he hd
  obtain ⟨-, -, -, -, -, -, -, -, hch1, hch2⟩ := distinct_facts hd
  obtain ⟨t, hexec, henv, hdone⟩ := exec_writesDone (op := .setVolume) hi he (verified_setVolume s.cfg v)
  have hheld := fun a => (hdone.held a).trans (heldAfter_setVolume s.dev.held a)
  obtain ⟨_, hres⟩ := hdone.res
  obtain ⟨u, hby, hdev⟩ := hdone.steps
  obtain ⟨w, hbefore, hlast⟩ := SteppedBy.last (rs := (microSetVolume s.cfg v).take 3) hby
  have hcfg : w.cfg = s.cfg := hbefore.cfg
  obtain ⟨hhold, h1, h2⟩ := Stepped.releases (s := w) (t := u) (by rw [hcfg]; exact hlast)
  rw [← hdev, hcfg, hheld] at h1 h2
  refine ⟨t, hexec, hdone.idle, hres, henv, hdone.history, hheld, hdev ▸ hhold, ?_, ?_⟩
  · rw [h1, if_neg hch1, if_pos (.inl rfl)]
  · rw [h2, if_neg hch2, if_pos (.inr rfl)]

/-- Settles O37: the write of its one step passes. -/
theorem setFilterOnVerbatimDevice : Obligations.SetFilterOnVerbatimDevice := by
  intro s x hi he
  obtain ⟨t, hexec, henv, hdone⟩ := exec_writesDone (op := .setFilter) (arg := x) hi he (verified_single _ _)
  obtain ⟨_, hres⟩ := hdone.res
  exact ⟨t, hexec, hdone.idle, henv, hres, hdone.history, hdone.held⟩

/-- Settles O39: the writes of its three steps pass, the mode register last. -/
theorem enableOnVerbatimDevice : Obligations.EnableOnVerbatimDevice := by
  intro s x hi he _
  obtain ⟨t, hexec, henv, hdone⟩ := exec_writesDone (op := .enable) hi he (verified_enable s.cfg x)
  obtain ⟨_, hres⟩ := hdone.res
  exact ⟨t, hexec, hdone.idle, henv, hres, hdone.history, hdone.held,
    view_enabled hdone.cfg ((hdone.held _).trans (if_pos rfl))⟩

/-- Settles O40: the write of its one step passes. -/
theorem disableOnVerbatimDevice : Obligations.DisableOnVerbatimDevice := by
  intro s x hi he
  obtain ⟨t, hexec, henv, hdone⟩ := exec_writesDone (op := .disable) (arg := x) hi he (verified_single _ _)
  obtain ⟨_, hres⟩ := hdone.res
  exact ⟨t, hexec, hdone.idle, henv, hres, hdone.history, hdone.held,
    view_disabled hdone.cfg ((hdone.held _).trans (if_pos rfl))⟩

/-! The two commands of one read, in E1 -/

/-- Settles O36: the read of its one step passes. -/
theorem getVolumeOnVerbatimDevice : Obligations.GetVolumeOnVerbatimDevice :=
  fun _ x hi he => exec_readDone (op := .getVolume) (arg := x) hi (he ▸ passes_e1) rfl

/-- Settles O38: the read of its one step passes. -/
theorem getFilterOnVerbatimDevice : Obligations.GetFilterOnVerbatimDevice :=
  fun _ x hi he => exec_readDone (op := .getFilter) (arg := x) hi (he ▸ passes_e1) rfl

/-- Settles O42: each command completes with `Ok`, and only `ENABLE` and `DISABLE` write the mode register. -/
theorem viewTransitions : Obligations.ViewTransitions := by
  intro s op arg hi he hd
  obtain ⟨-, hch1, hch2, hhold, hfilter, -⟩ := distinct_facts hd
  cases op with
  | setVolume =>
    obtain ⟨t, ht, -, hres, -⟩ := setVolumeOnVerbatimDevice s arg hi he hd
    exact ⟨t, ht, by rw [hres], exec_view_kept (op := .setVolume) ht (by simp [opWritten, hch1, hch2, hhold])⟩
  | getVolume =>
    obtain ⟨t, ht, -, -, hres, -⟩ := getVolumeOnVerbatimDevice s arg hi he
    exact ⟨t, ht, by rw [hres], exec_view_kept (op := .getVolume) ht (by simp [opWritten])⟩
  | setFilter =>
    obtain ⟨t, ht, -, -, hres, -⟩ := setFilterOnVerbatimDevice s arg hi he
    exact ⟨t, ht, by rw [hres], exec_view_kept (op := .setFilter) ht (by simp [opWritten, hfilter])⟩
  | getFilter =>
    obtain ⟨t, ht, -, -, hres, -⟩ := getFilterOnVerbatimDevice s arg hi he
    exact ⟨t, ht, by rw [hres], exec_view_kept (op := .getFilter) ht (by simp [opWritten])⟩
  | enable =>
    obtain ⟨t, ht, -, -, hres, -, -, hview⟩ := enableOnVerbatimDevice s arg hi he hd
    exact ⟨t, ht, by rw [hres], hview⟩
  | disable =>
    obtain ⟨t, ht, -, -, hres, -, -, hview⟩ := disableOnVerbatimDevice s arg hi he
    exact ⟨t, ht, by rw [hres], hview⟩

/-! The aborts, in E2 -/

/-- Settles O43: the device passes the first `k` steps, and the hold of the first defers the outputs. -/
theorem setVolumeAborts : Obligations.SetVolumeAborts := by
  intro s v c k r hi hd hk hr he
  obtain ⟨t, u, hexec, hab⟩ := exec_aborted hi (verified_setVolume s.cfg v) hr he
  obtain ⟨new, hh, hwrites⟩ := hab.history
  obtain ⟨hhold, h1, h2⟩ := hab.outputs
  obtain ⟨khold, k1, k2⟩ := setVolume_deferred (s := accept .setVolume v s) hd rfl hk hab.steps
  refine ⟨t, new, hexec, hab.idle, hh, hab.res, hwrites, hhold.trans khold, h1.trans k1, h2.trans k2, fun a => ?_⟩
  rw [hab.held, heldAfter_take_setVolume hd hk]

/-- Settles O44: the device passes the first `k` steps, and the mode register is the last step's. -/
theorem enableAborts : Obligations.EnableAborts := by
  intro s x c k r hi hd hk hr he
  obtain ⟨t, u, hexec, hab⟩ := exec_aborted hi (verified_enable s.cfg x) hr he
  obtain ⟨new, hh, hwrites⟩ := hab.history
  refine ⟨t, new, hexec, hab.idle, hh, hab.res, hwrites, fun a => ?_⟩
  rw [hab.held, heldAfter_take_enable hd hk]

end Sys2Proof.Machine
end

section
/-! The statement of `spec/60_exceptions.md`. -/

namespace Sys2Proof.Machine

/-- An error response releases the engine and enters the error, whatever the step index is (R173, R206). -/
theorem takeResponse_err {g : Byte} {c : Code} {s : State} :
    takeResponse (.err g c) s = errorEntry g c (engRelease s) := rfl

/-- Settles O50: the step is the sequencer's taking of the error, and the engine's release before the entry keeps all
that the entry reads. (The model's `errorEntry` has the plain name.) -/
theorem errorEntry_holds : Obligations.ErrorEntry := by
  intro s g c hb hp hr
  have hstep : step s = .next (errorEntry g c (engRelease s)) := by
    rw [step_of_busy hb, tick_of_response hb hp hr, takeResponse_err]
  exact ⟨_, hstep, by simp [State.idle], errorEntry_res .., errorEntry_seq .., errorEntry_dev .., errorEntry_env ..,
    errorEntry_history ..⟩

end Sys2Proof.Machine
end

section
/-! The statements of `spec/70_reset_and_hazards.md`. -/

namespace Sys2Proof.Machine

/-- An idle block with nothing at the bus port takes the host's renewal in one step (R230). -/
theorem step_of_rebind {s : State} {rest : List HostMove} (hi : s.idle = true) (hport : s.busPort = none)
    (hinbox : s.inbox = .rebind :: rest) : step s = .next (rebind { s with inbox := rest }) := by
  have hfetch : fetch s = .rebind { s with inbox := rest } :=
    (fetch_of_no_busPort hport).trans (fetchHost_of_no_word hinbox rfl rfl)
  simp [step, hi, hfetch]

/-- Settles O52: every meaning asks first whether the block is idle. -/
theorem nothingRunsUnlessIdle : Obligations.NothingRunsUnlessIdle :=
  fun i _ hi => exec_of_not_idle i hi

/-- Settles O55: the renewal writes the block's fields, the history and the device, and leaves the rest, of which only
the request itself was taken. -/
theorem rebindResetsTheBlock : Obligations.RebindResetsTheBlock := by
  intro s rest hi hport hinbox
  exact ⟨_, step_of_rebind hi hport hinbox, rebind_seq _, rebind_eng _, rebind_res _, rebind_history _, rebind_dev _,
    rebind_cfg _, rebind_inbox _, (rebind_busPort _).trans hport⟩

end Sys2Proof.Machine
end
